-- ==== Sys2Proof/Word.lean ====
section
/-! DEFINITION. The widths the spec gives to bytes, command words, limbs and MAC operands. -/

namespace Sys2Proof

/-- One byte of a payload (R55). -/
abbrev Byte := BitVec 8

/-- A command word (R56). -/
abbrev Word := BitVec 32

/-- A stored limb, "64-bit unsigned" (R21). -/
abbrev Limb := BitVec 64

/-- An operand of the MAC primitive, bounded by 2^52 (R80, R86). -/
abbrev MacOperand := BitVec 52

end Sys2Proof
end

