-- ==== Sys2Proof/Machine/Limb.lean ====
section
/-! DEFINITION. Field-element limb arithmetic (41_limb_arithmetic.md, part 1): pure functions on triples of
non-negative integers, exact, with no width; widths enter only where a register lane is read or written. -/

namespace Sys2Proof.Machine

/-- A limb triple (x0, x1, x2) of non-negative integers, limb 0 first (R9). -/
structure Triple where
  /-- Limb 0. -/
  x0 : Nat
  /-- Limb 1. -/
  x1 : Nat
  /-- Limb 2. -/
  x2 : Nat
deriving DecidableEq, Repr

/-- p = 2^127 − 1 (R2). -/
def modulus : Nat := 2 ^ 127 - 1

/-- M = 2^43, the ratio of two neighbouring limb weights (R9). -/
def radix : Nat := 2 ^ 43

/-- val(x) = x0 + x1·2^43 + x2·2^86 (R9). -/
def val (x : Triple) : Nat := x.x0 + x.x1 * 2 ^ 43 + x.x2 * 2 ^ 86

/-- The residue of a triple, val(x) mod p. -/
def residue (x : Triple) : Nat := val x % modulus

/-- Every limb is below the bound. -/
def Triple.below (x : Triple) (bound : Nat) : Bool := x.x0 < bound && x.x1 < bound && x.x2 < bound

/-- R90. -/
def feAdd (x y : Triple) : Triple := ⟨x.x0 + y.x0, x.x1 + y.x1, x.x2 + y.x2⟩

/-- BIAS of R91, of value 2^11·p. -/
def bias : Triple := ⟨2 ^ 52 - 2 ^ 11, 2 ^ 52 - 2 ^ 9, 2 ^ 52 - 2 ^ 9⟩

/-- R92; used only where no limb of y exceeds the limb of BIAS, so that no difference is cut off at 0. -/
def feSub (x y : Triple) : Triple := ⟨x.x0 + bias.x0 - y.x0, x.x1 + bias.x1 - y.x1, x.x2 + bias.x2 - y.x2⟩

/-- R93. -/
def feNeg (x : Triple) : Triple := feSub ⟨0, 0, 0⟩ x

/-- One carry pass (R94); the intermediates t1 and t2 are exact. -/
def pass43 (x : Triple) : Triple :=
  let t1 := x.x1 + x.x0 / radix
  let t2 := x.x2 + t1 / radix
  ⟨x.x0 % radix + 4 * (t2 / radix), t1 % radix, t2 % radix⟩

/-- Weak reduction: two carry passes (R95, conflict C3). -/
def wred (x : Triple) : Triple := pass43 (pass43 x)

/-- The canonical triple of an integer n < p (R97). -/
def digits (n : Nat) : Triple := ⟨n % 2 ^ 43, n / 2 ^ 43 % 2 ^ 43, n / 2 ^ 86⟩

/-- Canonical reduction, by its defining equation (R98). -/
def canon (x : Triple) : Triple := digits (residue x)

/-- The reference algorithm of R99: weak reduction, one fold at 2^127, at most one subtraction of p. The machine uses
`canon`; the two are stated equal. -/
def canonByFolding (x : Triple) : Triple :=
  let v := val (wred x)
  let f := v % 2 ^ 127 + v / 2 ^ 127
  digits (if modulus ≤ f then f - modulus else f)

end Sys2Proof.Machine
end

