-- ==== Sys2Proof/Machine/Codec.lean ====
section
/-! DEFINITION. Byte strings and the canonical codec (45_codec.md, part 1; 20_memory.md, part 2): pure functions. -/

namespace Sys2Proof.Machine

/-- le_int(B): the integer of a little-endian byte string (R11). -/
def leInt : List Byte → Nat
  | [] => 0
  | b :: bs => b.toNat + 256 * leInt bs

/-- le_bytes_N(n): byte k is (n div 2^(8k)) mod 256, byte 0 first (R11, R42). -/
def leBytes : Nat → Nat → List Byte
  | 0, _ => []
  | k + 1, n => BitVec.ofNat 8 (n % 256) :: leBytes k (n / 256)

/-- The slots of a payload: lane l occupies bytes [size·l, size·(l+1)) (R44). -/
def slots (size : Nat) : Nat → List Byte → List (List Byte)
  | 0, _ => []
  | lanes + 1, bytes => bytes.take size :: slots size lanes (bytes.drop size)

/-- fe_small(n) for a u64 n (R180). -/
def feSmall (n : Nat) : Triple := ⟨n % 2 ^ 43, n / 2 ^ 43, 0⟩

/-- encode(x): the 16 bytes of the residue (R181). -/
def encodeFe (x : Triple) : List Byte := leBytes 16 (residue x)

/-- A 16-byte slot is valid when its integer is below p (R182, conflict C5). -/
def validSlot (slot : List Byte) : Bool := leInt slot < modulus

/-- decode(B) for a valid slot (R182). -/
def decodeFe (slot : List Byte) : Triple := digits (leInt slot)

/-- The encoding of an Fp2 element: "c0's and c1's 16-byte encodings, in that order" (R44). -/
def encodeFp2 (c : Triple × Triple) : List Byte := encodeFe c.1 ++ encodeFe c.2

/-- A 32-byte slot is valid when both its halves are (R189). -/
def validFp2Slot (slot : List Byte) : Bool := validSlot (slot.take 16) && validSlot (slot.drop 16)

/-- The two components of a valid 32-byte slot (R189). -/
def decodeFp2 (slot : List Byte) : Triple × Triple := (decodeFe (slot.take 16), decodeFe (slot.drop 16))

end Sys2Proof.Machine
end

