-- ==== Sys2Proof/Config.lean ====
section
/-! DEFINITION. What an implementation fixes: the open parameters of R8. They are no registers (R32): no command
reads or writes them and no step changes them. -/

namespace Sys2Proof

/-- The parameter BACKEND of R8. -/
inductive Backend where
  | native
  | emulated
deriving DecidableEq, Repr

/-- The parameter BACKEND_POLICY of R8: what to do when the configured native backend does not exist. -/
inductive BackendPolicy where
  | fallback
  | fail
deriving DecidableEq, Repr

/-- The open parameters of R8. -/
structure Config where
  /-- V, the number of lanes of every register; an admissible configuration has V ≥ 1. -/
  lanes : Nat
  /-- ETA, the non-residue with u² = ETA. -/
  eta : Nat
  /-- BACKEND. -/
  backend : Backend
  /-- BACKEND_AVAILABLE. -/
  available : Bool
  /-- BACKEND_POLICY. -/
  policy : BackendPolicy
deriving DecidableEq, Repr

/-- DESIGN CHOICE (log entry 1, unsafe for a claim that rests on it): the configuration that `State.reset` carries, the
one under which 95_test_vectors.md gives its vectors: one lane, ETA = p − 1, the native backend present. -/
def Config.standard : Config :=
  { lanes := 1, eta := 2 ^ 127 - 2, backend := .native, available := true, policy := .fallback }

end Sys2Proof
end

