-- ==== Sys2Proof/Machine/Codes.lean ====
section
/-! DEFINITION. The seven status codes of R201 and the code the engine resets with (R232). -/

namespace Sys2Proof.Machine

/-- The names of R201. "There are no others" (R200). -/
inductive Code where
  /-- 0: the command completed. -/
  | ok
  /-- 1, recoverable: a payload of wrong length, or a slot holding an integer ≥ p (R202). -/
  | invalidEncoding
  /-- 2, recoverable, per lane: inversion of zero (R203). -/
  | notInvertible
  /-- 3, fatal: a source limb breaks the command's range condition (R207). -/
  | rangeViolation
  /-- 4, fatal, at reset only: the configured backend does not exist and the policy is to fail (R206). -/
  | backendUnavailable
  /-- 5, recoverable: the word or its payload presence is no legal command (R204). -/
  | illegalCommand
  /-- 6, fatal: a source lane has never been written (R205). -/
  | unwrittenRegister
deriving DecidableEq, Repr

/-- The value of STATUS, of FAULT and of a response's status field that stands for the code (R201). -/
def Code.byte : Code → BitVec 8
  | .ok => 0
  | .invalidEncoding => 1
  | .notInvertible => 2
  | .rangeViolation => 3
  | .backendUnavailable => 4
  | .illegalCommand => 5
  | .unwrittenRegister => 6

/-- The class of the code: fatal codes put the engine in the fault state (R201, R208). -/
def Code.fatal : Code → Bool
  | .ok => false
  | .invalidEncoding => false
  | .notInvertible => false
  | .rangeViolation => true
  | .backendUnavailable => true
  | .illegalCommand => false
  | .unwrittenRegister => true

/-- The column "STATUS and FAULT after reset" of R232. -/
def resetCode (c : Config) : Code :=
  match c.backend, c.available, c.policy with
  | .emulated, _, _ => .ok
  | .native, true, _ => .ok
  | .native, false, .fallback => .ok
  | .native, false, .fail => .backendUnavailable

/-- The column "MAC used" of R232; `none` is its last row, the fault state. -/
def resolvedBackend (c : Config) : Option Backend :=
  match c.backend, c.available, c.policy with
  | .emulated, _, _ => some .emulated
  | .native, true, _ => some .native
  | .native, false, .fallback => some .emulated
  | .native, false, .fail => none

end Sys2Proof.Machine
end

