-- ==== Sys2Proof/Syntax.lean ====
section
/-! DEFINITION. The 23 commands of R60, one constructor for each row of spec/opcode_table.json. -/

namespace Sys2Proof

/-- A register number, F0 to F15 (R20). In an Fp2 command it names the pair that begins at it (R22, R57). -/
abbrev Reg := Fin 16

/-- The second register of the pair that begins at r (R22); r is even in every legal Fp2 command. -/
def partner (r : Reg) : Reg := r + 1

/-- A command with its register numbers; the payload travels beside it (R55). -/
inductive Instr where
  | nop
  | zero (rd : Reg)
  | one (rd : Reg)
  | ldi (rd : Reg)
  | dec (rd : Reg)
  | enc (ra : Reg)
  | add (rd ra rb : Reg)
  | sub (rd ra rb : Reg)
  | neg (rd ra : Reg)
  | wred (rd ra : Reg)
  | canon (rd ra : Reg)
  | mul (rd ra rb : Reg)
  | sqr (rd ra : Reg)
  | inv (rd ra : Reg)
  | iszero (ra : Reg)
  | eq (ra rb : Reg)
  | fp2dec (rd : Reg)
  | fp2enc (ra : Reg)
  | fp2add (rd ra rb : Reg)
  | fp2sub (rd ra rb : Reg)
  | fp2mul (rd ra rb : Reg)
  | fp2sqr (rd ra : Reg)
  | fp2inv (rd ra : Reg)
deriving DecidableEq, Repr

/-- Why a word is no command: the clauses of R61 that look at the word alone. -/
inductive Illegal where
  /-- R61 (a): bits 31:24 hold none of the 23 opcodes. -/
  | reservedOpcode
  /-- R61 (b): bits 11:0 are not 0. -/
  | reservedBits
  /-- R61 (c): a register field that the command does not use is not 0. -/
  | unusedField
  /-- R61 (d): an Fp2 command names an odd register. -/
  | oddPair
  /-- A serialised command word is not four bytes (R53, R56). -/
  | wrongLength
deriving DecidableEq, Repr

end Sys2Proof
end

