-- ==== Sys2Proof/Machine/State.lean ====
section
/-! DEFINITION. The state of the engine (10_state.md), as plain data, its reset value, and the reasons a step could
stop. The last three fields of `State` are the MODEL's own: they carry the transaction interface of R55. -/

namespace Sys2Proof.Machine

/-- The content of a written lane: "exactly 3 unsigned 64-bit limbs", limb 0 first (R21). -/
structure Limbs where
  /-- Limb 0, weight 1. -/
  x0 : Limb
  /-- Limb 1, weight 2^43. -/
  x1 : Limb
  /-- Limb 2, weight 2^86. -/
  x2 : Limb
deriving DecidableEq, Repr

/-- The lanes of one register, lane 0 first. `none` is a lane whose written flag W is 0: it "holds no value"
(R23); `some x` is a lane with W = 1 that holds x. -/
abbrev Lanes := List (Option Limbs)

/-- The engine's answer to one command: status code, lane mask (bit l is element l) and output payload (R55). -/
structure Response where
  /-- The status field, the value STATUS has after the command (R25). -/
  status : BitVec 8
  /-- The lane mask, the value LMASK has after the command (R26). -/
  lmask : List Bool
  /-- The output payload, byte 0 first (R43). -/
  payload : List Byte
deriving DecidableEq, Repr

/-- A move of the host between two commands (R247); the third move of R247, to stop, is the end of the list of moves. -/
inductive HostMove where
  /-- Issue the command (w, P): any 32-bit word and any byte string. -/
  | command (w : Word) (payload : List Byte)
  /-- Assert reset. -/
  | reset
deriving DecidableEq, Repr

/-- The machine: the registers and status registers of 10_state.md under a configuration, and the model's own three
fields that carry commands in and responses out. -/
structure State where
  /-- The configuration (R8): no register, changed by no step (R32). Log entry 1. -/
  cfg : Config
  /-- The register file F0 to F15 with its written flags (R20, R21, R23). -/
  regs : Vector Lanes 16
  /-- STATUS, the code of the most recent command (R25). -/
  status : BitVec 8
  /-- LMASK, bit l at position l (R26). -/
  lmask : List Bool
  /-- FAULT: 0 while the engine runs, else the code of the fatal fault (R27). -/
  fault : BitVec 8
  /-- The model's own: the input payload of the command in execution, empty between commands (R46). Log entry 3. -/
  payload : List Byte
  /-- The model's own: the host's moves still to come, the next one first (R247). Log entry 2. -/
  host : List HostMove
  /-- The model's own: the responses given so far, oldest first (R52). Log entry 4. -/
  responses : List Response
deriving DecidableEq, Repr

/-- The reasons a step can stop with a fault: NONE. Every condition the spec names is a status code in a response
and leaves a next state (R201, R214), and every command terminates (R246). Raised by nobody; safe. -/
inductive Fault where
deriving DecidableEq, Repr

/-- The reasons a step can be refused. -/
inductive Refusal where
  /-- Raised only by an arm of `exec` whose instruction has no meaning yet, by name; there is no such arm. Safe: a
  refused step proves nothing about the engine. -/
  | notModelled (mnemonic : String)
deriving DecidableEq, Repr

/-- The outcome of a step. -/
abbrev Result := Host.Outcome State Fault Refusal

/-- R33, R231, R232: every written flag 0, so no lane holds a value; LMASK 0; STATUS and FAULT the code of backend
resolution. Nothing has been issued and nothing answered. -/
def State.resetWith (c : Config) : State where
  cfg := c
  regs := Vector.replicate 16 (List.replicate c.lanes none)
  status := (resetCode c).byte
  lmask := List.replicate c.lanes false
  fault := (resetCode c).byte
  payload := []
  host := []
  responses := []

/-- The machine right after reset, under the configuration of log entry 1; `State.resetWith` says the same of every
configuration. -/
def State.reset : State := State.resetWith Config.standard

end Sys2Proof.Machine
end

