-- ==== Sys2Proof/Machine/Ops.lean ====
section
/-! DEFINITION. The shared operations: reading and writing register lanes, the ways a command ends, the steps of the
execution skeleton of R67 that every command shares, and reset. Each combinator of the skeleton takes what comes after
it as its last argument. -/

namespace Sys2Proof.Machine

/-! ## Lanes as integers -/

/-- The limbs of a written lane as integers. -/
def Limbs.nat (x : Limbs) : Triple := ⟨x.x0.toNat, x.x1.toNat, x.x2.toNat⟩

/-- A triple as stored limbs of 64 bits (R21). Every triple a command stores has limbs below 2^64, by the command's
range condition, so nothing is cut off. -/
def Triple.limbs (x : Triple) : Limbs := ⟨BitVec.ofNat 64 x.x0, BitVec.ofNat 64 x.x1, BitVec.ofNat 64 x.x2⟩

/-! ## The register file -/

/-- Lane l of register r: `none` while its written flag is 0 (R23). -/
def State.lane (s : State) (r : Reg) (l : Nat) : Option Limbs := s.regs[r.val][l]?.join

/-- Lane l of register r as a triple of integers. -/
def State.triple (s : State) (r : Reg) (l : Nat) : Option Triple := (s.lane r l).map Limbs.nat

/-- The V lanes of register r, lane 0 first (R21). -/
def State.lanes (s : State) (r : Reg) : Lanes := (List.range s.cfg.lanes).map (s.lane r)

/-- Register r now holds these lanes. -/
def State.writeReg (s : State) (r : Reg) (v : Lanes) : State := { s with regs := s.regs.set r.val v r.isLt }

/-- F[r][l] <- x for every lane l: a store sets the written flag (R11, R23). -/
def State.writeTriples (s : State) (r : Reg) (xs : List Triple) : State := s.writeReg r (xs.map fun x => some x.limbs)

/-! ## How a command ends -/

/-- LMASK = 0, all V bits (R26). -/
def State.zeroMask (s : State) : List Bool := List.replicate s.cfg.lanes false

/-- `respond(c, m, Q)` (R11): the one response of the command is given and its payload is used up (R46, R55). -/
def State.respond (s : State) (c : BitVec 8) (m : List Bool) (q : List Byte) : State :=
  { s with payload := [], responses := s.responses ++ [⟨c, m, q⟩] }

/-- STATUS <- c; LMASK <- m; respond(c, m, Q): the end of every command outside the fault state (R25, R26). -/
def State.finish (s : State) (c : Code) (m : List Bool) (q : List Byte) : State :=
  { s with status := c.byte, lmask := m }.respond c.byte m q

/-- R209: the recoverable error sequence for the codes 1 and 5. -/
def State.fail (s : State) (c : Code) : State := s.finish c s.zeroMask []

/-- R210: the fatal fault sequence. This is the engine's whole exception entry; nothing else is saved. -/
def State.raise (s : State) (c : Code) : State := { s with fault := c.byte }.finish c s.zeroMask []

/-- R211: in the fault state every command is answered respond(FAULT, 0, empty) and changes nothing. -/
def State.refuseInFault (s : State) : State := s.respond s.fault s.zeroMask []

/-- Step 7 for a command whose destination is a register: every lane is written, STATUS <- 0, LMASK <- 0. -/
def State.storeReg (s : State) (rd : Reg) (xs : List Triple) : State := (s.writeTriples rd xs).finish .ok s.zeroMask []

/-- Step 7 for a command whose destination is the pair that begins at rd: "writing pair rd means writing F[rd] and
F[rd+1]" (44_fp2.md part 3). -/
def State.storePair (s : State) (rd : Reg) (xs : List (Triple × Triple)) : State :=
  ((s.writeTriples rd (xs.map Prod.fst)).writeTriples (partner rd) (xs.map Prod.snd)).finish .ok s.zeroMask []

/-- The lanes of a destination after a per-lane command: a lane with a result is written, a failing lane is "left as
it was", content and written flag (R129, R203). -/
def keepFailing (results : List (Option Triple)) (old : Lanes) : Lanes :=
  List.zipWith (fun result lane => (result.map Triple.limbs).or lane) results old

/-! ## The steps of the skeleton of R67 -/

/-- Steps 1 and 2 for a command that takes no payload: refused in the fault state, illegal where a pair is odd or a
payload is there (R61 d, e). -/
def State.beginCommand (s : State) (legal : Bool) (k : State) : State :=
  if s.fault ≠ 0 then s.refuseInFault
  else if legal && s.payload.isEmpty then k
  else s.fail .illegalCommand

/-- Steps 1 to 3 for a command that takes a payload of n bytes (R43): refused in the fault state, illegal where a pair
is odd, InvalidEncoding where the payload has another length (R202). -/
def State.beginPayload (s : State) (legal : Bool) (n : Nat) (k : List Byte → State) : State :=
  if s.fault ≠ 0 then s.refuseInFault
  else if legal then (if s.payload.length = n then k s.payload else s.fail .invalidEncoding)
  else s.fail .illegalCommand

/-- Step 5: RangeViolation where any lane breaks the command's range condition (R207). -/
def State.requireRange (s : State) (holds : Bool) (k : State) : State := if holds then k else s.raise .rangeViolation

/-- Step 6 of DEC and FP2DEC: InvalidEncoding where any slot is not valid (R187, R189). -/
def State.requireSlots (s : State) (holds : Bool) (k : State) : State := if holds then k else s.fail .invalidEncoding

/-! ## Commands that are no command, and reset -/

/-- A word that decodes to no command: refused in the fault state, else IllegalCommand (R67 steps 1 and 2, R204). -/
def State.rejectIllegal (s : State) : State := s.beginCommand false s

/-- The host asserts reset (R230, R231): the engine is in its reset state under the same configuration, and the host
goes on with the moves it has still to make; what it has been answered it keeps (log entry 10). -/
def State.assertReset (s : State) (rest : List HostMove) : State :=
  { State.resetWith s.cfg with host := rest, responses := s.responses }

end Sys2Proof.Machine
end

