-- ==== Sys2Proof/Machine/Mac.lean ====
section
/-! DEFINITION. The MAC primitive (40_mac_primitive.md), on operands of 52 bits: outside that bound it has no meaning
(R86), so the bound is in the type. -/

namespace Sys2Proof.Machine

/-- R80: the low 52 bits of the product. -/
def macLo (a b : MacOperand) : Nat := a.toNat * b.toNat % 2 ^ 52

/-- R80: the high 52 bits of the product. -/
def macHi (a b : MacOperand) : Nat := a.toNat * b.toNat / 2 ^ 52

/-- The emulated backend by the decomposition of R85 (DEDUCED: R85 gives it for convenience, any decomposition with
the same results is equally good): the pair (lo, hi). The machine uses `macLo` and `macHi` whatever the backend (R84). -/
def macEmulated (a b : MacOperand) : Nat × Nat :=
  let a1 := a.toNat / 2 ^ 26
  let a0 := a.toNat % 2 ^ 26
  let b1 := b.toNat / 2 ^ 26
  let b0 := b.toNat % 2 ^ 26
  let mid := a1 * b0 + a0 * b1
  let ls := a0 * b0 + mid % 2 ^ 26 * 2 ^ 26
  (ls % 2 ^ 52, a1 * b1 + mid / 2 ^ 26 + ls / 2 ^ 52)

/-- An integer below 2^52 as a MAC operand. The engine calls it only there (R86, R127, R159; log entry 12). -/
def macOperand (n : Nat) : MacOperand := BitVec.ofNat 52 n

end Sys2Proof.Machine
end

