-- ==== Sys2Proof/Machine/Mult.lean ====
section
/-! DEFINITION. Field multiplication and inversion (42_multiplication.md, parts 1 and 2): pure functions on triples. -/

namespace Sys2Proof.Machine

/-- lo(a, b) on limbs. -/
def lo (a b : Nat) : Nat := macLo (macOperand a) (macOperand b)

/-- hi(a, b) on limbs. -/
def hi (a b : Nat) : Nat := macHi (macOperand a) (macOperand b)

/-- The three accumulators of R120, with the coefficient 2^11 of conflict C1, as exact sums (R82, R124). -/
def mulZ (x y : Triple) : Triple where
  x0 := lo x.x0 y.x0 + 4 * lo x.x2 y.x1 + 4 * lo x.x1 y.x2
    + 2 ^ 11 * hi x.x2 y.x0 + 2 ^ 11 * hi x.x1 y.x1 + 2 ^ 11 * hi x.x0 y.x2
  x1 := lo x.x1 y.x0 + lo x.x0 y.x1 + 4 * lo x.x2 y.x2
    + 2 ^ 9 * hi x.x0 y.x0 + 2 ^ 11 * hi x.x2 y.x1 + 2 ^ 11 * hi x.x1 y.x2
  x2 := lo x.x2 y.x0 + lo x.x1 y.x1 + lo x.x0 y.x2
    + 2 ^ 9 * hi x.x1 y.x0 + 2 ^ 9 * hi x.x0 y.x1 + 2 ^ 11 * hi x.x2 y.x2

/-- R122. -/
def feMul (x y : Triple) : Triple := wred (mulZ x y)

/-- b^e mod m by squaring, on the low `fuel` bits of the exponent e. -/
def powMod (m b : Nat) : Nat → Nat → Nat
  | 0, _ => 1 % m
  | fuel + 1, e =>
    let h := powMod m b fuel (e / 2)
    h * h * b ^ (e % 2) % m

/-- n^(p−2) mod p (R126); the exponent has 127 bits. -/
def modInverse (n : Nat) : Nat := powMod modulus n 127 (modulus - 2)

/-- R126: `none` for a triple whose residue is 0, else the canonical triple of the inverse. -/
def feInv (x : Triple) : Option Triple :=
  if residue x = 0 then none else some (digits (modInverse (residue x)))

end Sys2Proof.Machine
end

