-- ==== Sys2Proof/Machine/Quadratic.lean ====
section
/-! DEFINITION. Quadratic extension arithmetic (44_fp2.md, part 2): pure functions on pairs (c0, c1) of triples, for a
non-residue given as an integer. -/

namespace Sys2Proof.Machine

/-- An Fp2 element c0 + c1·u (R155). -/
abbrev Fp2 := Triple × Triple

/-- R156. -/
def fp2Add (c d : Fp2) : Fp2 := (feAdd c.1 d.1, feAdd c.2 d.2)

/-- R157. -/
def fp2Sub (c d : Fp2) : Fp2 := (feSub c.1 d.1, feSub c.2 d.2)

/-- scale_by_eta, with eta_fe = digits(ETA) as the first operand (R155, R161). -/
def scaleByEta (eta : Nat) (t : Triple) : Triple := feMul (digits eta) t

/-- The Karatsuba product of R158, both components weakly reduced. -/
def fp2Mul (eta : Nat) (c d : Fp2) : Fp2 :=
  let t0 := feMul c.1 d.1
  let t1 := feMul c.2 d.2
  let t2 := feMul (feAdd c.1 c.2) (feAdd d.1 d.2)
  let u0 := feAdd t0 (scaleByEta eta t1)
  let u1 := feSub (feSub t2 t0) t1
  (wred u0, wred u1)

/-- R162. -/
def fp2Sqr (eta : Nat) (c : Fp2) : Fp2 := fp2Mul eta c c

/-- The norm N = (a0·a0 − ETA·a1·a1) mod p of R163, in [0, p). -/
def norm (eta a0 a1 : Nat) : Nat := (((a0 * a0 : Nat) : Int) - ((eta * a1 * a1 : Nat) : Int)).emod (modulus : Int) |>.toNat

/-- R163: `none` where both residues are 0, else both components of the inverse, canonical. -/
def fp2Inv (eta : Nat) (c : Fp2) : Option Fp2 :=
  let a0 := residue c.1
  let a1 := residue c.2
  if a0 = 0 ∧ a1 = 0 then none
  else
    let ni := modInverse (norm eta a0 a1)
    some (digits (a0 * ni % modulus), digits ((modulus - a1) % modulus * ni % modulus))

end Sys2Proof.Machine
end

