-- ==== Sys2Proof/WellFormed.lean ====
section
/-! DEFINITION. Which terms of `Instr` a command word can stand for. -/

namespace Sys2Proof

/-- Bit 0 of a register number is 0: the number names a pair (R59). -/
def evenReg (r : Reg) : Bool := r.val % 2 == 0

/-- R59: every register an Fp2 command uses is even. A base-field command has no further condition. -/
def Instr.wellFormed : Instr → Bool
  | .nop => true
  | .zero _ => true
  | .one _ => true
  | .ldi _ => true
  | .dec _ => true
  | .enc _ => true
  | .add _ _ _ => true
  | .sub _ _ _ => true
  | .neg _ _ => true
  | .wred _ _ => true
  | .canon _ _ => true
  | .mul _ _ _ => true
  | .sqr _ _ => true
  | .inv _ _ => true
  | .iszero _ => true
  | .eq _ _ => true
  | .fp2dec rd => evenReg rd
  | .fp2enc ra => evenReg ra
  | .fp2add rd ra rb => evenReg rd && evenReg ra && evenReg rb
  | .fp2sub rd ra rb => evenReg rd && evenReg ra && evenReg rb
  | .fp2mul rd ra rb => evenReg rd && evenReg ra && evenReg rb
  | .fp2sqr rd ra => evenReg rd && evenReg ra
  | .fp2inv rd ra => evenReg rd && evenReg ra

end Sys2Proof
end

