-- ==== Sys2Proof/Machine/Operands.lean ====
section
/-! DEFINITION. The operand forms: a source register, a source pair, the slots of an input payload. -/

namespace Sys2Proof.Machine

/-- The contents of a list of options when every one is there. -/
def allSome {α : Type} : List (Option α) → Option (List α)
  | [] => some []
  | none :: _ => none
  | some a :: rest => (allSome rest).map (a :: ·)

/-- F[r] as a source: all V lanes, or `none` where any of them is unwritten (R24). -/
def State.readReg (s : State) (r : Reg) : Option (List Triple) := allSome ((List.range s.cfg.lanes).map (s.triple r))

/-- Step 4 of R67 for the source register r: UnwrittenRegister where a lane has W = 0 (R24, R205). -/
def State.source (s : State) (r : Reg) (k : List Triple → State) : State :=
  match s.readReg r with
  | none => s.raise .unwrittenRegister
  | some x => k x

/-- Step 4 of R67 for the source pair that begins at r: both registers are read (R22, R24); lane l of the pair is
(F[r][l], F[r+1][l]). -/
def State.sourcePair (s : State) (r : Reg) (k : List Fp2 → State) : State :=
  s.source r fun c0 => s.source (partner r) fun c1 => k (c0.zip c1)

/-- The 8-byte slots of an LDI payload as integers, lane 0 first (R44, R186). -/
def State.smallIntegers (s : State) (bytes : List Byte) : List Nat := (slots 8 s.cfg.lanes bytes).map leInt

/-- The 16-byte slots of a DEC payload, lane 0 first (R44, R187). -/
def State.feSlots (s : State) (bytes : List Byte) : List (List Byte) := slots 16 s.cfg.lanes bytes

/-- The 32-byte slots of an FP2DEC payload, lane 0 first (R44, R189). -/
def State.fp2Slots (s : State) (bytes : List Byte) : List (List Byte) := slots 32 s.cfg.lanes bytes

/-- The same triple in every lane (ZERO and ONE). -/
def State.everyLane (s : State) (x : Triple) : List Triple := List.replicate s.cfg.lanes x

end Sys2Proof.Machine
end

