-- ==== Sys2Proof/Machine/Flags.lean ====
section
/-! DEFINITION. The range conditions of R142 (step 5 of R67) and the lane masks of R26. The engine has no condition
codes (R29). -/

namespace Sys2Proof.Machine

/-! ## Range conditions on one lane (R142) -/

/-- The largest value of a stored limb, 2^64 − 1 (R21). -/
def limbMax : Nat := 2 ^ 64 - 1

/-- MUL_LIMIT, the largest limb of a multiplier operand (R8, conflict C2). -/
def mulLimit : Nat := 2 ^ 51 - 1

/-- Every limb of x is at most the limb of y in the same place. -/
def limbsLe (x y : Triple) : Bool := x.x0 ≤ y.x0 && x.x1 ≤ y.x1 && x.x2 ≤ y.x2

/-- ADD: every sum of limbs stays within 64 bits (R100). -/
def addInRange (x y : Triple) : Bool := limbsLe (feAdd x y) ⟨limbMax, limbMax, limbMax⟩

/-- SUB: no subtrahend limb exceeds the bias, and every result limb stays within 64 bits (R101). -/
def subInRange (x y : Triple) : Bool := limbsLe y bias && limbsLe (feSub x y) ⟨limbMax, limbMax, limbMax⟩

/-- NEG: no limb exceeds the bias (R102). -/
def negInRange (x : Triple) : Bool := limbsLe x bias

/-- One operand of MUL or SQR: every limb is at most MUL_LIMIT (R127; where R146 says more,
log entry 18). -/
def mulInRange (x : Triple) : Bool := limbsLe x ⟨mulLimit, mulLimit, mulLimit⟩

/-- One operand of FP2MUL or FP2SQR: every sum c0_i + c1_i is at most MUL_LIMIT (R166). -/
def fp2MulInRange (c : Fp2) : Bool := mulInRange (feAdd c.1 c.2)

/-- FP2ADD: the condition of ADD on both components (R164). -/
def fp2AddInRange (c d : Fp2) : Bool := addInRange c.1 d.1 && addInRange c.2 d.2

/-- FP2SUB: the condition of SUB on both components (R165). -/
def fp2SubInRange (c d : Fp2) : Bool := subInRange c.1 d.1 && subInRange c.2 d.2

/-! ## Every lane: "one failing lane faults the whole command" (R207) -/

/-- A one-operand condition holds in every lane. -/
def everyLaneHolds {α : Type} (p : α → Bool) (x : List α) : Bool := x.all p

/-- A two-operand condition holds in every lane. -/
def everyLaneHolds2 {α β : Type} (p : α → β → Bool) (x : List α) (y : List β) : Bool := (x.zip y).all fun q => p q.1 q.2

/-! ## Lane masks (R26) -/

/-- ISZERO: bit l is set when lane l has residue 0 (R105). -/
def zeroLanes (x : List Triple) : List Bool := x.map fun t => residue t == 0

/-- EQ: bit l is set when the canonical triples of lane l are equal (R106). -/
def equalLanes (x y : List Triple) : List Bool := List.zipWith (fun a b => canon a == canon b) x y

/-- INV and FP2INV: bit l is set when lane l has no inverse (R129, R168, R203). -/
def failingLanes {α : Type} (results : List (Option α)) : List Bool := results.map Option.isNone

/-- STATUS after INV and FP2INV: 0 when the mask is 0, else 2 (R129, R168). -/
def inverseCode (mask : List Bool) : Code := if mask.any id then .notInvertible else .ok

end Sys2Proof.Machine
end

