-- ==== Sys2Proof/Machine/CodecCommands.lean ====
section
/-! DEFINITION. The canonical codec: DEC, ENC, FP2DEC, FP2ENC (45_codec.md, part 2). -/

namespace Sys2Proof.Machine

/-- DEC rd (R187): all lanes or none. -/
def execDec (rd : Reg) (s : State) : Result :=
  .next <| s.beginPayload true (16 * s.cfg.lanes) fun bytes =>
    s.requireSlots (everyLaneHolds validSlot (s.feSlots bytes)) <|
    s.storeReg rd ((s.feSlots bytes).map decodeFe)

/-- ENC ra (R188): the encodings of all lanes, lane 0 first; no register changes. -/
def execEnc (ra : Reg) (s : State) : Result :=
  .next <| s.beginCommand true <| s.source ra fun x => s.finish .ok s.zeroMask (x.flatMap encodeFe)

/-- FP2DEC rd (R189): all 2·V slots or none. -/
def execFp2dec (rd : Reg) (s : State) : Result :=
  .next <| s.beginPayload (evenReg rd) (32 * s.cfg.lanes) fun bytes =>
    s.requireSlots (everyLaneHolds validFp2Slot (s.fp2Slots bytes)) <|
    s.storePair rd ((s.fp2Slots bytes).map decodeFp2)

/-- FP2ENC ra (R190): lane by lane c0's encoding and then c1's; no register changes. -/
def execFp2enc (ra : Reg) (s : State) : Result :=
  .next <| s.beginCommand (evenReg ra) <| s.sourcePair ra fun c => s.finish .ok s.zeroMask (c.flatMap encodeFp2)

end Sys2Proof.Machine
end

