-- ==== Sys2Proof/Machine/Constructors.lean ====
section
/-! DEFINITION. NOP and the constructors ZERO, ONE, LDI (45_codec.md, part 2). -/

namespace Sys2Proof.Machine

/-- NOP (R183): no register changes; STATUS <- 0, LMASK <- 0. -/
def execNop (s : State) : Result := .next <| s.beginCommand true <| s.finish .ok s.zeroMask []

/-- ZERO rd (R184). -/
def execZero (rd : Reg) (s : State) : Result := .next <| s.beginCommand true <| s.storeReg rd (s.everyLane ⟨0, 0, 0⟩)

/-- ONE rd (R185). -/
def execOne (rd : Reg) (s : State) : Result := .next <| s.beginCommand true <| s.storeReg rd (s.everyLane ⟨1, 0, 0⟩)

/-- LDI rd (R186): lane l is the u64 of slot l; every 8-byte slot is valid. -/
def execLdi (rd : Reg) (s : State) : Result :=
  .next <| s.beginPayload true (8 * s.cfg.lanes) fun bytes => s.storeReg rd ((s.smallIntegers bytes).map feSmall)

end Sys2Proof.Machine
end

