-- ==== Sys2Proof/Machine/Fp2Commands.lean ====
section
/-! DEFINITION. Fp2 arithmetic on pairs: FP2ADD, FP2SUB, FP2MUL, FP2SQR, FP2INV (44_fp2.md, part 3). An odd register
makes the command illegal (R59), here as in the decoder. -/

namespace Sys2Proof.Machine

/-- FP2ADD rd, ra, rb (R164). -/
def execFp2add (rd ra rb : Reg) (s : State) : Result :=
  .next <| s.beginCommand (evenReg rd && evenReg ra && evenReg rb) <|
    s.sourcePair ra fun c => s.sourcePair rb fun d =>
    s.requireRange (everyLaneHolds2 fp2AddInRange c d) <| s.storePair rd (List.zipWith fp2Add c d)

/-- FP2SUB rd, ra, rb computes ra − rb (R165). -/
def execFp2sub (rd ra rb : Reg) (s : State) : Result :=
  .next <| s.beginCommand (evenReg rd && evenReg ra && evenReg rb) <|
    s.sourcePair ra fun c => s.sourcePair rb fun d =>
    s.requireRange (everyLaneHolds2 fp2SubInRange c d) <| s.storePair rd (List.zipWith fp2Sub c d)

/-- FP2MUL rd, ra, rb (R166). -/
def execFp2mul (rd ra rb : Reg) (s : State) : Result :=
  .next <| s.beginCommand (evenReg rd && evenReg ra && evenReg rb) <|
    s.sourcePair ra fun c => s.sourcePair rb fun d =>
    s.requireRange (everyLaneHolds fp2MulInRange c && everyLaneHolds fp2MulInRange d) <|
    s.storePair rd (List.zipWith (fp2Mul s.cfg.eta) c d)

/-- FP2SQR rd, ra (R167): "exactly those of FP2MUL rd, ra, ra". -/
def execFp2sqr (rd ra : Reg) (s : State) : Result :=
  .next <| s.beginCommand (evenReg rd && evenReg ra) <| s.sourcePair ra fun c =>
    s.requireRange (everyLaneHolds fp2MulInRange c) <| s.storePair rd (c.map (fp2Sqr s.cfg.eta))

/-- FP2INV rd, ra (R168): lanes with an inverse are written, the others kept and reported. -/
def execFp2inv (rd ra : Reg) (s : State) : Result :=
  .next <| s.beginCommand (evenReg rd && evenReg ra) <| s.sourcePair ra fun c =>
    let results := c.map (fp2Inv s.cfg.eta)
    let mask := failingLanes results
    let first := keepFailing (results.map (Option.map Prod.fst)) (s.lanes rd)
    let second := keepFailing (results.map (Option.map Prod.snd)) (s.lanes (partner rd))
    ((s.writeReg rd first).writeReg (partner rd) second).finish (inverseCode mask) mask []

end Sys2Proof.Machine
end

