-- ==== Sys2Proof/Machine/LimbCommands.lean ====
section
/-! DEFINITION. Limb arithmetic: ADD, SUB, NEG, WRED, CANON, ISZERO, EQ (41_limb_arithmetic.md, part 2). -/

namespace Sys2Proof.Machine

/-- ADD rd, ra, rb (R100). -/
def execAdd (rd ra rb : Reg) (s : State) : Result :=
  .next <| s.beginCommand true <| s.source ra fun x => s.source rb fun y =>
    s.requireRange (everyLaneHolds2 addInRange x y) <| s.storeReg rd (List.zipWith feAdd x y)

/-- SUB rd, ra, rb computes ra − rb (R101). -/
def execSub (rd ra rb : Reg) (s : State) : Result :=
  .next <| s.beginCommand true <| s.source ra fun x => s.source rb fun y =>
    s.requireRange (everyLaneHolds2 subInRange x y) <| s.storeReg rd (List.zipWith feSub x y)

/-- NEG rd, ra (R102). -/
def execNeg (rd ra : Reg) (s : State) : Result :=
  .next <| s.beginCommand true <| s.source ra fun x =>
    s.requireRange (everyLaneHolds negInRange x) <| s.storeReg rd (x.map feNeg)

/-- WRED rd, ra (R103): every u64 triple is accepted. -/
def execWred (rd ra : Reg) (s : State) : Result :=
  .next <| s.beginCommand true <| s.source ra fun x => s.storeReg rd (x.map wred)

/-- CANON rd, ra (R104): every u64 triple is accepted. -/
def execCanon (rd ra : Reg) (s : State) : Result :=
  .next <| s.beginCommand true <| s.source ra fun x => s.storeReg rd (x.map canon)

/-- ISZERO ra (R105): no register changes; the mask is the answer. -/
def execIszero (ra : Reg) (s : State) : Result :=
  .next <| s.beginCommand true <| s.source ra fun x => s.finish .ok (zeroLanes x) []

/-- EQ ra, rb (R106): no register changes; the mask is the answer. -/
def execEq (ra rb : Reg) (s : State) : Result :=
  .next <| s.beginCommand true <| s.source ra fun x => s.source rb fun y => s.finish .ok (equalLanes x y) []

end Sys2Proof.Machine
end

