-- ==== Sys2Proof/Machine/MulCommands.lean ====
section
/-! DEFINITION. Multiplication, squaring and inversion: MUL, SQR, INV (42_multiplication.md, part 3). -/

namespace Sys2Proof.Machine

/-- MUL rd, ra, rb (R127). -/
def execMul (rd ra rb : Reg) (s : State) : Result :=
  .next <| s.beginCommand true <| s.source ra fun x => s.source rb fun y =>
    s.requireRange (everyLaneHolds mulInRange x && everyLaneHolds mulInRange y) <|
    s.storeReg rd (List.zipWith feMul x y)

/-- SQR rd, ra (R128): "exactly those of MUL rd, ra, ra". -/
def execSqr (rd ra : Reg) (s : State) : Result :=
  .next <| s.beginCommand true <| s.source ra fun x =>
    s.requireRange (everyLaneHolds mulInRange x) <| s.storeReg rd (x.map fun t => feMul t t)

/-- INV rd, ra (R129): lanes with an inverse are written, the others kept and reported. -/
def execInv (rd ra : Reg) (s : State) : Result :=
  .next <| s.beginCommand true <| s.source ra fun x =>
    let results := x.map feInv
    let mask := failingLanes results
    (s.writeReg rd (keepFailing results (s.lanes rd))).finish (inverseCode mask) mask []

end Sys2Proof.Machine
end

