-- ==== Sys2Proof/Machine/Dispatch.lean ====
section
/-! DEFINITION. One arm for each command: Execute(d, P) of R67 for a decoded command d, with the payload P in `payload`. -/

namespace Sys2Proof.Machine

def exec (i : Instr) (s : State) : Host.Outcome State Fault Refusal :=
  match i with
  | .nop => Sys2Proof.Machine.execNop s
  | .zero rd => Sys2Proof.Machine.execZero rd s
  | .one rd => Sys2Proof.Machine.execOne rd s
  | .ldi rd => Sys2Proof.Machine.execLdi rd s
  | .dec rd => Sys2Proof.Machine.execDec rd s
  | .enc ra => Sys2Proof.Machine.execEnc ra s
  | .add rd ra rb => Sys2Proof.Machine.execAdd rd ra rb s
  | .sub rd ra rb => Sys2Proof.Machine.execSub rd ra rb s
  | .neg rd ra => Sys2Proof.Machine.execNeg rd ra s
  | .wred rd ra => Sys2Proof.Machine.execWred rd ra s
  | .canon rd ra => Sys2Proof.Machine.execCanon rd ra s
  | .mul rd ra rb => Sys2Proof.Machine.execMul rd ra rb s
  | .sqr rd ra => Sys2Proof.Machine.execSqr rd ra s
  | .inv rd ra => Sys2Proof.Machine.execInv rd ra s
  | .iszero ra => Sys2Proof.Machine.execIszero ra s
  | .eq ra rb => Sys2Proof.Machine.execEq ra rb s
  | .fp2dec rd => Sys2Proof.Machine.execFp2dec rd s
  | .fp2enc ra => Sys2Proof.Machine.execFp2enc ra s
  | .fp2add rd ra rb => Sys2Proof.Machine.execFp2add rd ra rb s
  | .fp2sub rd ra rb => Sys2Proof.Machine.execFp2sub rd ra rb s
  | .fp2mul rd ra rb => Sys2Proof.Machine.execFp2mul rd ra rb s
  | .fp2sqr rd ra => Sys2Proof.Machine.execFp2sqr rd ra s
  | .fp2inv rd ra => Sys2Proof.Machine.execFp2inv rd ra s

end Sys2Proof.Machine
end

