-- ==== Sys2Proof/Decode.lean ====
section
/-! DEFINITION. The decoder and the encoder of command words (30_encoding.md), the table of masks and matches, and
the payload lengths that go with an opcode. Nothing here depends on the machine's state. -/

namespace Sys2Proof

/-! ## Fields of a command word -/

/-- w[hi:lo], "the unsigned integer made of bits hi down to lo of w, inclusive" (R10). -/
def bits (w : Word) (hi lo : Nat) : Nat := w.toNat / 2 ^ lo % 2 ^ (hi - lo + 1)

/-- The field `op` (R56). -/
def opField (w : Word) : Nat := bits w 31 24

/-- The field `rd` (R56). -/
def rdField (w : Word) : Reg := Fin.ofNat 16 (bits w 23 20)

/-- The field `ra` (R56). -/
def raField (w : Word) : Reg := Fin.ofNat 16 (bits w 19 16)

/-- The field `rb` (R56). -/
def rbField (w : Word) : Reg := Fin.ofNat 16 (bits w 15 12)

/-- The field `zero` (R56). -/
def zeroField (w : Word) : Nat := bits w 11 0

/-! ## Operand shapes: which register fields a command uses; the others must be 0 (R57, R61 c) -/

/-- No register field is used. -/
def shapeNone (rd ra rb : Reg) (i : Instr) : Except Illegal Instr :=
  if rd = 0 ∧ ra = 0 ∧ rb = 0 then .ok i else .error .unusedField

/-- Only `rd` is used. -/
def shapeD (rd ra rb : Reg) (mk : Reg → Instr) : Except Illegal Instr :=
  if ra = 0 ∧ rb = 0 then .ok (mk rd) else .error .unusedField

/-- Only `ra` is used. -/
def shapeA (rd ra rb : Reg) (mk : Reg → Instr) : Except Illegal Instr :=
  if rd = 0 ∧ rb = 0 then .ok (mk ra) else .error .unusedField

/-- `rd` and `ra` are used. -/
def shapeDA (rd ra rb : Reg) (mk : Reg → Reg → Instr) : Except Illegal Instr :=
  if rb = 0 then .ok (mk rd ra) else .error .unusedField

/-- `ra` and `rb` are used. -/
def shapeAB (rd ra rb : Reg) (mk : Reg → Reg → Instr) : Except Illegal Instr :=
  if rd = 0 then .ok (mk ra rb) else .error .unusedField

/-- All three register fields are used. -/
def shapeDAB (rd ra rb : Reg) (mk : Reg → Reg → Reg → Instr) : Except Illegal Instr := .ok (mk rd ra rb)

/-! ## The decoder -/

/-- The opcode map of R60, with the fields each command uses. -/
def decodeFields (op : Nat) (rd ra rb : Reg) : Except Illegal Instr :=
  match op with
  | 0x00 => shapeNone rd ra rb .nop
  | 0x10 => shapeD rd ra rb .zero
  | 0x11 => shapeD rd ra rb .one
  | 0x12 => shapeD rd ra rb .ldi
  | 0x13 => shapeD rd ra rb .dec
  | 0x14 => shapeA rd ra rb .enc
  | 0x15 => shapeDAB rd ra rb .add
  | 0x16 => shapeDAB rd ra rb .sub
  | 0x17 => shapeDA rd ra rb .neg
  | 0x18 => shapeDA rd ra rb .wred
  | 0x19 => shapeDA rd ra rb .canon
  | 0x1A => shapeDAB rd ra rb .mul
  | 0x1B => shapeDA rd ra rb .sqr
  | 0x1C => shapeDA rd ra rb .inv
  | 0x1D => shapeA rd ra rb .iszero
  | 0x1E => shapeAB rd ra rb .eq
  | 0x23 => shapeD rd ra rb .fp2dec
  | 0x24 => shapeA rd ra rb .fp2enc
  | 0x25 => shapeDAB rd ra rb .fp2add
  | 0x26 => shapeDAB rd ra rb .fp2sub
  | 0x2A => shapeDAB rd ra rb .fp2mul
  | 0x2B => shapeDA rd ra rb .fp2sqr
  | 0x2C => shapeDA rd ra rb .fp2inv
  | _ => .error .reservedOpcode

/-- R59: an Fp2 command names even registers; "an odd value is an illegal command, not a rounded one". -/
def requirePairs (i : Instr) : Except Illegal Instr :=
  if i.wellFormed then .ok i else .error .oddPair

/-- Decode(w) of R66, total on all 2^32 words. -/
def decodeWord (w : Word) : Except Illegal Instr :=
  if zeroField w ≠ 0 then .error .reservedBits
  else (decodeFields (opField w) (rdField w) (raField w) (rbField w)).bind requirePairs

/-- The word whose serialised bytes are b0 to b3, little-endian (R53). -/
def wordOfBytes (b0 b1 b2 b3 : Byte) : Word :=
  BitVec.ofNat 32 (b0.toNat + 2 ^ 8 * b1.toNat + 2 ^ 16 * b2.toNat + 2 ^ 24 * b3.toNat)

/-- Decoding of a serialised command word: exactly four bytes, byte 0 first (R53, R56). -/
def decodeBytes : List Byte → Except Illegal Instr
  | [b0, b1, b2, b3] => decodeWord (wordOfBytes b0 b1 b2 b3)
  | _ => .error .wrongLength

/-! ## The encoder -/

/-- The one format of R56. -/
def encodeFields (op : Nat) (rd ra rb : Reg) : Word :=
  BitVec.ofNat 32 (op * 2 ^ 24 + rd.val * 2 ^ 20 + ra.val * 2 ^ 16 + rb.val * 2 ^ 12)

/-- The word of a well-formed command (R56, R57, R60); an unused field is 0. -/
def encode : Instr → Word
  | .nop => encodeFields 0x00 0 0 0
  | .zero rd => encodeFields 0x10 rd 0 0
  | .one rd => encodeFields 0x11 rd 0 0
  | .ldi rd => encodeFields 0x12 rd 0 0
  | .dec rd => encodeFields 0x13 rd 0 0
  | .enc ra => encodeFields 0x14 0 ra 0
  | .add rd ra rb => encodeFields 0x15 rd ra rb
  | .sub rd ra rb => encodeFields 0x16 rd ra rb
  | .neg rd ra => encodeFields 0x17 rd ra 0
  | .wred rd ra => encodeFields 0x18 rd ra 0
  | .canon rd ra => encodeFields 0x19 rd ra 0
  | .mul rd ra rb => encodeFields 0x1A rd ra rb
  | .sqr rd ra => encodeFields 0x1B rd ra 0
  | .inv rd ra => encodeFields 0x1C rd ra 0
  | .iszero ra => encodeFields 0x1D 0 ra 0
  | .eq ra rb => encodeFields 0x1E 0 ra rb
  | .fp2dec rd => encodeFields 0x23 rd 0 0
  | .fp2enc ra => encodeFields 0x24 0 ra 0
  | .fp2add rd ra rb => encodeFields 0x25 rd ra rb
  | .fp2sub rd ra rb => encodeFields 0x26 rd ra rb
  | .fp2mul rd ra rb => encodeFields 0x2A rd ra rb
  | .fp2sqr rd ra => encodeFields 0x2B rd ra 0
  | .fp2inv rd ra => encodeFields 0x2C rd ra 0

/-- The four bytes of a serialised command word, "byte 0 is w[7:0], byte 3 is w[31:24]" (R53). -/
def wordBytes (w : Word) : List Byte :=
  [BitVec.ofNat 8 (bits w 7 0), BitVec.ofNat 8 (bits w 15 8), BitVec.ofNat 8 (bits w 23 16), BitVec.ofNat 8 (bits w 31 24)]

/-! ## The table of spec/opcode_table.json -/

/-- A row of the table: a word is the command's exactly when (w AND mask) = match (R66). -/
structure OpcodeRow where
  /-- The command's mnemonic. -/
  mnemonic : String
  /-- The bits that the row fixes. -/
  mask : Word
  /-- The values of those bits. -/
  pattern : Word
deriving DecidableEq, Repr

/-- The 23 rows of spec/opcode_table.json. -/
def opcodeTable : List OpcodeRow :=
  [⟨"NOP", 0xFFFFFFFF#32, 0x00000000#32⟩,
   ⟨"ZERO", 0xFF0FFFFF#32, 0x10000000#32⟩,
   ⟨"ONE", 0xFF0FFFFF#32, 0x11000000#32⟩,
   ⟨"LDI", 0xFF0FFFFF#32, 0x12000000#32⟩,
   ⟨"DEC", 0xFF0FFFFF#32, 0x13000000#32⟩,
   ⟨"ENC", 0xFFF0FFFF#32, 0x14000000#32⟩,
   ⟨"ADD", 0xFF000FFF#32, 0x15000000#32⟩,
   ⟨"SUB", 0xFF000FFF#32, 0x16000000#32⟩,
   ⟨"NEG", 0xFF00FFFF#32, 0x17000000#32⟩,
   ⟨"WRED", 0xFF00FFFF#32, 0x18000000#32⟩,
   ⟨"CANON", 0xFF00FFFF#32, 0x19000000#32⟩,
   ⟨"MUL", 0xFF000FFF#32, 0x1A000000#32⟩,
   ⟨"SQR", 0xFF00FFFF#32, 0x1B000000#32⟩,
   ⟨"INV", 0xFF00FFFF#32, 0x1C000000#32⟩,
   ⟨"ISZERO", 0xFFF0FFFF#32, 0x1D000000#32⟩,
   ⟨"EQ", 0xFFF00FFF#32, 0x1E000000#32⟩,
   ⟨"FP2DEC", 0xFF1FFFFF#32, 0x23000000#32⟩,
   ⟨"FP2ENC", 0xFFF1FFFF#32, 0x24000000#32⟩,
   ⟨"FP2ADD", 0xFF111FFF#32, 0x25000000#32⟩,
   ⟨"FP2SUB", 0xFF111FFF#32, 0x26000000#32⟩,
   ⟨"FP2MUL", 0xFF111FFF#32, 0x2A000000#32⟩,
   ⟨"FP2SQR", 0xFF11FFFF#32, 0x2B000000#32⟩,
   ⟨"FP2INV", 0xFF11FFFF#32, 0x2C000000#32⟩]

/-- The word w is an instance of the row: (w AND mask) = match (R66). -/
def OpcodeRow.covers (row : OpcodeRow) (w : Word) : Bool := w &&& row.mask == row.pattern

/-- The mnemonic of a command (R60). -/
def Instr.mnemonic : Instr → String
  | .nop => "NOP"
  | .zero _ => "ZERO"
  | .one _ => "ONE"
  | .ldi _ => "LDI"
  | .dec _ => "DEC"
  | .enc _ => "ENC"
  | .add _ _ _ => "ADD"
  | .sub _ _ _ => "SUB"
  | .neg _ _ => "NEG"
  | .wred _ _ => "WRED"
  | .canon _ _ => "CANON"
  | .mul _ _ _ => "MUL"
  | .sqr _ _ => "SQR"
  | .inv _ _ => "INV"
  | .iszero _ => "ISZERO"
  | .eq _ _ => "EQ"
  | .fp2dec _ => "FP2DEC"
  | .fp2enc _ => "FP2ENC"
  | .fp2add _ _ _ => "FP2ADD"
  | .fp2sub _ _ _ => "FP2SUB"
  | .fp2mul _ _ _ => "FP2MUL"
  | .fp2sqr _ _ => "FP2SQR"
  | .fp2inv _ _ => "FP2INV"

/-! ## Payload lengths -/

/-- The bytes of one lane's slot in the command's input payload (R44): 0 for a command that takes no payload. -/
def Instr.slotBytes : Instr → Nat
  | .nop => 0
  | .zero _ => 0
  | .one _ => 0
  | .ldi _ => 8
  | .dec _ => 16
  | .enc _ => 0
  | .add _ _ _ => 0
  | .sub _ _ _ => 0
  | .neg _ _ => 0
  | .wred _ _ => 0
  | .canon _ _ => 0
  | .mul _ _ _ => 0
  | .sqr _ _ => 0
  | .inv _ _ => 0
  | .iszero _ => 0
  | .eq _ _ => 0
  | .fp2dec _ => 32
  | .fp2enc _ => 0
  | .fp2add _ _ _ => 0
  | .fp2sub _ _ _ => 0
  | .fp2mul _ _ _ => 0
  | .fp2sqr _ _ => 0
  | .fp2inv _ _ => 0

/-- R43: the input payload length that a command requires with V lanes. -/
def Instr.payloadLength (i : Instr) (lanes : Nat) : Nat := i.slotBytes * lanes

/-! ## The host's question about one table word -/

/-- The instruction read from an instruction whose bits are w, of which the low nbits count: the word's four bytes
are laid out little-endian (R53) and given to `decodeBytes`. A number that does not fit the one word a command has
(R56) is no command (log entry 11). -/
def decodeTableWord (nbits w : Nat) : Option Instr :=
  let n := w % 2 ^ nbits
  if n < 2 ^ 32 then
    match decodeBytes (wordBytes (BitVec.ofNat 32 n)) with
    | .ok i => some i
    | .error _ => none
  else none

end Sys2Proof
end

