-- ==== Sys2Proof/Machine/Fetch.lean ====
section
/-! DEFINITION. How the engine receives its next command. It has no program counter and no instruction memory (R28,
R51): the host presents each command, here the first of the moves in `host`. -/

namespace Sys2Proof.Machine

/-- What the host's next move asks of the engine, with the state in which the engine begins to answer it. -/
inductive Fetched where
  /-- The host has stopped (R247): nothing to do. -/
  | idle
  /-- The host asserts reset; the moves after it. -/
  | reset (rest : List HostMove)
  /-- The host presents a word that decodes to no command. -/
  | illegal (s : State)
  /-- The host presents the command i, its payload in `payload`. -/
  | run (i : Instr) (s : State)
deriving DecidableEq, Repr

/-- The command is presented: its payload P stands at the input, the moves after it are still to come (R55). -/
def State.present (s : State) (bytes : List Byte) (rest : List HostMove) : State :=
  { s with payload := bytes, host := rest }

/-- The next move of the host, its word decoded (R66, R247). -/
def State.fetch (s : State) : Fetched :=
  match s.host with
  | [] => .idle
  | .reset :: rest => .reset rest
  | .command w bytes :: rest =>
    match decodeWord w with
    | .ok i => .run i (s.present bytes rest)
    | .error _ => .illegal (s.present bytes rest)

/-- A payload of zero bytes, of the length that the word's command requires (R43); empty where the word decodes to no
command. -/
def zeroPayload (w : Word) (lanes : Nat) : List Byte :=
  match decodeWord w with
  | .ok i => List.replicate (i.payloadLength lanes) 0
  | .error _ => []

/-- The host is made to issue the word w next, with a payload of zeros of the required length (log entry 2). -/
def State.issueNext (s : State) (w : Word) : State :=
  { s with host := .command w (zeroPayload w s.cfg.lanes) :: s.host }

end Sys2Proof.Machine
end

