-- ==== Sys2Proof/Machine/Step.lean ====
section
/-! DEFINITION. One step: one move of the host (R15, R247). -/

namespace Sys2Proof.Machine

/-- The host's next move is carried out: a command is executed whole (R46, R67), a reset resets (R231), and when the
host has stopped nothing changes (R216; log entry 9). -/
def step (s : State) : Host.Outcome State Fault Refusal :=
  match s.fetch with
  | .idle => .next s
  | .reset rest => .next (s.assertReset rest)
  | .illegal t => .next t.rejectIllegal
  | .run i t => exec i t

/-- The state in which the very next step runs the instruction whose bits are w, of which the low nbits count: the
host's next move is that command (log entry 2). -/
def State.withFetchWord (s : State) (nbits w : Nat) : State := s.issueNext (BitVec.ofNat 32 (w % 2 ^ nbits))

end Sys2Proof.Machine
end

