-- ==== Sys2Proof/Safety.lean ====
section
/-! DEFINITION. The words the claims use: what an admissible configuration is, what a command reads and writes, what
it means that a register holds values, that a command answered, that nothing else changed; and the invariant of the
machine. -/

namespace Sys2Proof

/-- The condition R8 puts on the open parameters: V ≥ 1, and ETA in [1, p) is a quadratic non-residue mod p. -/
def Config.Admissible (c : Config) : Prop :=
  1 ≤ c.lanes ∧ 1 ≤ c.eta ∧ c.eta < Machine.modulus ∧ ∀ n : Nat, n * n % Machine.modulus ≠ c.eta

/-- The registers a command reads as sources, both of each source pair (R24, R60). -/
def Instr.sources : Instr → List Reg
  | .nop => []
  | .zero _ => []
  | .one _ => []
  | .ldi _ => []
  | .dec _ => []
  | .enc ra => [ra]
  | .add _ ra rb => [ra, rb]
  | .sub _ ra rb => [ra, rb]
  | .neg _ ra => [ra]
  | .wred _ ra => [ra]
  | .canon _ ra => [ra]
  | .mul _ ra rb => [ra, rb]
  | .sqr _ ra => [ra]
  | .inv _ ra => [ra]
  | .iszero ra => [ra]
  | .eq ra rb => [ra, rb]
  | .fp2dec _ => []
  | .fp2enc ra => [ra, partner ra]
  | .fp2add _ ra rb => [ra, partner ra, rb, partner rb]
  | .fp2sub _ ra rb => [ra, partner ra, rb, partner rb]
  | .fp2mul _ ra rb => [ra, partner ra, rb, partner rb]
  | .fp2sqr _ ra => [ra, partner ra]
  | .fp2inv _ ra => [ra, partner ra]

/-- The registers a command may write, both of a destination pair (R60). -/
def Instr.destinations : Instr → List Reg
  | .nop => []
  | .zero rd => [rd]
  | .one rd => [rd]
  | .ldi rd => [rd]
  | .dec rd => [rd]
  | .enc _ => []
  | .add rd _ _ => [rd]
  | .sub rd _ _ => [rd]
  | .neg rd _ => [rd]
  | .wred rd _ => [rd]
  | .canon rd _ => [rd]
  | .mul rd _ _ => [rd]
  | .sqr rd _ => [rd]
  | .inv rd _ => [rd]
  | .iszero _ => []
  | .eq _ _ => []
  | .fp2dec rd => [rd, partner rd]
  | .fp2enc _ => []
  | .fp2add rd _ _ => [rd, partner rd]
  | .fp2sub rd _ _ => [rd, partner rd]
  | .fp2mul rd _ _ => [rd, partner rd]
  | .fp2sqr rd _ => [rd, partner rd]
  | .fp2inv rd _ => [rd, partner rd]

end Sys2Proof

namespace Sys2Proof.Machine

/-- The engine runs (FAULT = 0, R27) and the command to be executed comes with this payload. -/
abbrev State.Ready (s : State) (bytes : List Byte) : Prop := s.fault = 0 ∧ s.payload = bytes

/-- Every lane of register r is written, and lane l holds the limbs x l. -/
abbrev State.Holds (s : State) (r : Reg) (x : Nat → Triple) : Prop := ∀ l, l < s.cfg.lanes → s.triple r l = some (x l)

/-- Every lane of register r is written. -/
abbrev State.Written (s : State) (r : Reg) : Prop := ∀ l, l < s.cfg.lanes → s.lane r l ≠ none

/-- The command gave the one response (c, m, q), and STATUS and LMASK hold c and m (R25, R26, R55). -/
abbrev State.Answered (s t : State) (c : Code) (m : List Bool) (q : List Byte) : Prop :=
  t.status = c.byte ∧ t.lmask = m ∧ t.responses = s.responses ++ [⟨c.byte, m, q⟩]

/-- The frame of a command: no register but those of `dst` changes, nor does the configuration or what the host has
still to do; the payload is used up. STATUS, LMASK and the responses are `State.Answered`'s matter. -/
abbrev State.Keeps (s t : State) (dst : List Reg) : Prop :=
  t.cfg = s.cfg ∧ t.host = s.host ∧ t.payload = [] ∧ ∀ r : Reg, r ∉ dst → t.regs[r.val] = s.regs[r.val]

/-- The whole effect of a command that completed: nothing but the registers of `dst` changed, FAULT is 0, the answer
is (c, m, q). -/
abbrev State.CompletedWith (s t : State) (dst : List Reg) (c : Code) (m : List Bool) (q : List Byte) : Prop :=
  s.Keeps t dst ∧ t.fault = 0 ∧ s.Answered t c m q

/-- The whole effect of a recoverable error with code c (R209 for 1 and 5): no register lane and no written flag
changes, FAULT stays 0, the answer is (c, 0, empty). -/
abbrev State.RejectedWith (s t : State) (c : Code) : Prop :=
  s.Keeps t [] ∧ t.fault = 0 ∧ s.Answered t c s.zeroMask []

/-- The whole effect of a fatal fault with code c (R210): no register lane and no written flag changes, FAULT <- c,
the answer is (c, 0, empty). -/
abbrev State.FaultedWith (s t : State) (c : Code) : Prop :=
  s.Keeps t [] ∧ t.fault = c.byte ∧ s.Answered t c s.zeroMask []

/-- The range condition R142 puts on the sources of a command, in the state s, spelled out limb by limb. -/
def State.RangeHolds (s : State) (i : Instr) : Prop :=
  let sum (a b : Reg) (bound : Nat) : Prop := ∀ l, l < s.cfg.lanes → ∀ x y, s.triple a l = some x → s.triple b l = some y →
    x.x0 + y.x0 ≤ bound ∧ x.x1 + y.x1 ≤ bound ∧ x.x2 + y.x2 ≤ bound
  let difference (a b : Reg) : Prop := ∀ l, l < s.cfg.lanes → ∀ x y, s.triple a l = some x → s.triple b l = some y →
    (y.x0 ≤ bias.x0 ∧ y.x1 ≤ bias.x1 ∧ y.x2 ≤ bias.x2) ∧
    x.x0 + bias.x0 - y.x0 ≤ 2 ^ 64 - 1 ∧ x.x1 + bias.x1 - y.x1 ≤ 2 ^ 64 - 1 ∧ x.x2 + bias.x2 - y.x2 ≤ 2 ^ 64 - 1
  let atMost (a : Reg) (b0 b1 b2 : Nat) : Prop := ∀ l, l < s.cfg.lanes → ∀ x, s.triple a l = some x →
    x.x0 ≤ b0 ∧ x.x1 ≤ b1 ∧ x.x2 ≤ b2
  match i with
  | .add _ ra rb => sum ra rb (2 ^ 64 - 1)
  | .sub _ ra rb => difference ra rb
  | .neg _ ra => atMost ra bias.x0 bias.x1 bias.x2
  | .mul _ ra rb => atMost ra (2 ^ 51 - 1) (2 ^ 51 - 1) (2 ^ 51 - 1) ∧ atMost rb (2 ^ 51 - 1) (2 ^ 51 - 1) (2 ^ 51 - 1)
  | .sqr _ ra => atMost ra (2 ^ 51 - 1) (2 ^ 51 - 1) (2 ^ 51 - 1)
  | .fp2add _ ra rb => sum ra rb (2 ^ 64 - 1) ∧ sum (partner ra) (partner rb) (2 ^ 64 - 1)
  | .fp2sub _ ra rb => difference ra rb ∧ difference (partner ra) (partner rb)
  | .fp2mul _ ra rb => sum ra (partner ra) (2 ^ 51 - 1) ∧ sum rb (partner rb) (2 ^ 51 - 1)
  | .fp2sqr _ ra => sum ra (partner ra) (2 ^ 51 - 1)
  | .nop => True
  | .zero _ => True
  | .one _ => True
  | .ldi _ => True
  | .dec _ => True
  | .enc _ => True
  | .wred _ _ => True
  | .canon _ _ => True
  | .inv _ _ => True
  | .iszero _ => True
  | .eq _ _ => True
  | .fp2dec _ => True
  | .fp2enc _ => True
  | .fp2inv _ _ => True

/-- The invariant of the machine between two commands: every register has V lanes; LMASK has V bits; STATUS holds a
code c of R201; FAULT is c when c is fatal and 0 when it is not (R27, R208); LMASK is 0 unless c is OK or
NotInvertible, and not 0 when c is NotInvertible (R26); no payload waits (R31). -/
def State.Inv (s : State) : Prop :=
  (∀ r : Reg, (s.regs[r.val]).length = s.cfg.lanes) ∧
  s.lmask.length = s.cfg.lanes ∧
  s.payload = [] ∧
  ∃ c : Code, s.status = c.byte ∧ s.fault = (if c.fatal then c.byte else 0) ∧
    (c ≠ .ok → c ≠ .notInvertible → s.lmask = s.zeroMask) ∧ (c = .notInvertible → true ∈ s.lmask)

/-- The opcode map of R60: opcode, and whether the command uses rd, ra, rb. -/
def opcodeMap : List (Nat × Bool × Bool × Bool) :=
  [(0x00, false, false, false), (0x10, true, false, false), (0x11, true, false, false), (0x12, true, false, false),
   (0x13, true, false, false), (0x14, false, true, false), (0x15, true, true, true), (0x16, true, true, true),
   (0x17, true, true, false), (0x18, true, true, false), (0x19, true, true, false), (0x1A, true, true, true),
   (0x1B, true, true, false), (0x1C, true, true, false), (0x1D, false, true, false), (0x1E, false, true, true),
   (0x23, true, false, false), (0x24, false, true, false), (0x25, true, true, true), (0x26, true, true, true),
   (0x2A, true, true, true), (0x2B, true, true, false), (0x2C, true, true, false)]

/-- R61 (a) to (d): the word is the word of no command, field by field. -/
def IllegalWord (w : Word) : Prop :=
  zeroField w ≠ 0 ∨ (∀ row ∈ opcodeMap, opField w ≠ row.1) ∨
  ∃ row ∈ opcodeMap, opField w = row.1 ∧
    ((row.2.1 = false ∧ rdField w ≠ 0) ∨ (row.2.2.1 = false ∧ raField w ≠ 0) ∨ (row.2.2.2 = false ∧ rbField w ≠ 0) ∨
     (0x23 ≤ row.1 ∧ ((rdField w).val % 2 = 1 ∨ (raField w).val % 2 = 1 ∨ (rbField w).val % 2 = 1)))

end Sys2Proof.Machine
end

