-- ==== Sys2Proof/Certificates/Slice0/Obligations.lean ====
section
/-! DEFINITION. The statements for the provers. Each docstring names the rule of spec/ that the statement formalises;
numbers are written out where a rule writes them, so that a statement does not lean on the definition it is about. -/

open Sys2Proof Sys2Proof.Machine

/-! ### Encoding -/

/-- Every well-formed command, with every register number its fields admit, is decoded from its own word, and from
the bytes of that word (R56, R60); the four bytes of any word are little-endian, byte 0 is w[7:0] and byte 3 is w[31:24],
and decoding them is decoding the word (R53). -/
def Obligations.DecodeAfterEncodeGivesTheCommand : Prop :=
  (∀ i : Instr, i.wellFormed = true →
    decodeWord (encode i) = .ok i ∧ decodeBytes (wordBytes (encode i)) = .ok i) ∧
  ∀ w : Word,
    wordBytes w = [w.extractLsb' 0 8, w.extractLsb' 8 8, w.extractLsb' 16 8, w.extractLsb' 24 8] ∧
    decodeBytes [w.extractLsb' 0 8, w.extractLsb' 8 8, w.extractLsb' 16 8, w.extractLsb' 24 8] = decodeWord w

/-- A word that decodes to a command is the one word of that command, and the command is well-formed: no two words
mean the same command and no bit is dropped (R56, R62). -/
def Obligations.EncodeAfterDecodeGivesTheWord : Prop :=
  ∀ (w : Word) (i : Instr), decodeWord w = .ok i → i.wellFormed = true ∧ encode i = w

/-- R66: a word is illegal exactly when a clause of R61 (a) to (d) holds of its fields; it is legal exactly when it
matches one row of the opcode table, it then matches no other row, and it is the row's command with the register
numbers of the word's fields; a row's mask covers the opcode, bits 11:0, every unused field and bit 0 of every used field
of an Fp2 command. -/
def Obligations.LegalWordsMatchExactlyOneTableRow : Prop :=
  (let fixed (op : Nat) (used : Bool) : Nat := if used = false then 0xF else if 0x23 ≤ op then 1 else 0
   opcodeTable.map (fun row => (row.pattern, row.mask)) = opcodeMap.map fun (op, d, a, b) =>
    (BitVec.ofNat 32 (op * 2 ^ 24),
      BitVec.ofNat 32 (0xFF000FFF + fixed op d * 2 ^ 20 + fixed op a * 2 ^ 16 + fixed op b * 2 ^ 12))) ∧
  ∀ w : Word,
    ((∃ e, decodeWord w = .error e) ↔ IllegalWord w) ∧
    ((∃ i, decodeWord w = .ok i) ↔ ∃ row ∈ opcodeTable, row.covers w = true) ∧
    (∀ row ∈ opcodeTable, ∀ row' ∈ opcodeTable, row.covers w = true → row'.covers w = true → row = row') ∧
    (∀ i, decodeWord w = .ok i → (∃ row ∈ opcodeTable, row.covers w = true ∧ row.mnemonic = i.mnemonic) ∧
      (i.destinations = [] ∨ i.destinations = [rdField w] ∨ i.destinations = [rdField w, partner (rdField w)]) ∧
      (i.sources = [] ∨ i.sources = [raField w] ∨ i.sources = [raField w, rbField w] ∨
        i.sources = [raField w, partner (raField w)] ∨
        i.sources = [raField w, partner (raField w), rbField w, partner (rbField w)]))

/-- Words written out from the spec's own text (R221, 95_test_vectors.md sections 7 and 8) decode to the commands the
text gives them. -/
def Obligations.WordsOfTheSpecDecodeAsItSays : Prop :=
  decodeWord 0x1A312000#32 = .ok (.mul 3 1 2) ∧ decodeWord 0x12100000#32 = .ok (.ldi 1) ∧
  decodeWord 0x14030000#32 = .ok (.enc 3) ∧ decodeWord 0x1E034000#32 = .ok (.eq 3 4) ∧
  decodeWord 0x2C600000#32 = .ok (.fp2inv 6 0) ∧ decodeWord 0x24040000#32 = .ok (.fp2enc 4) ∧
  decodeWord 0x2A412000#32 = .error .oddPair ∧ decodeWord 0x15111001#32 = .error .reservedBits ∧
  decodeWord 0x10210000#32 = .error .unusedField ∧ decodeWord 0x1F000000#32 = .error .reservedOpcode

/-! ### The step -/

/-- When the host's next move is a command whose word decodes to i, the step is exec of i in the state in which the
payload stands at the input and that move is taken from the host's list; nothing else differs (R67, R55). -/
def Obligations.StepRunsTheDecodedCommand : Prop :=
  ∀ (s : State) (w : Word) (bytes : List Byte) (rest : List HostMove) (i : Instr),
    s.host = .command w bytes :: rest → decodeWord w = .ok i →
    step s = exec i (s.present bytes rest) ∧ s.present bytes rest = { s with payload := bytes, host := rest }

/-- R246 and R55: every command is one step that answers, with exactly one response; the payload is used up and the
host goes on to its next move. The other two clauses rest on the model's own choices: a reset is one step that keeps the
host's remaining moves and the responses (log entry 10), and when the host has stopped a step changes nothing (R216, log
entry 9). -/
def Obligations.EveryCommandIsOneStepWithOneResponse : Prop :=
  ∀ s : State,
    (∀ w bytes rest, s.host = .command w bytes :: rest →
      ∃ t r, step s = .next t ∧ t.responses = s.responses ++ [r] ∧ t.host = rest ∧ t.payload = []) ∧
    (∀ rest, s.host = .reset :: rest → ∃ t, step s = .next t ∧ t.responses = s.responses ∧ t.host = rest) ∧
    (s.host = [] → step s = .next s)

/-- R61 and R204: a word that R61 (a) to (d) calls illegal, or a payload given to a command that takes none (R61 e), is
answered (5, 0, empty) while the engine runs, with STATUS 5 and LMASK 0, and changes no register, written flag or FAULT. -/
def Obligations.IllegalCommandIsRejected : Prop :=
  ∀ (s : State) (w : Word) (bytes : List Byte) (rest : List HostMove),
    s.host = .command w bytes :: rest → s.fault = 0 →
    (IllegalWord w ∨ ∃ i, decodeWord w = .ok i ∧ i.slotBytes = 0 ∧ bytes ≠ []) →
    ∃ t, step s = .next t ∧ (s.present bytes rest).RejectedWith t .illegalCommand

/-- R59 for the terms no word decodes to: exec of an Fp2 command that names an odd register is an illegal command too
(log entry 8). -/
def Obligations.OddPairTermIsIllegalCommand : Prop :=
  ∀ (i : Instr) (s : State), i.wellFormed = false → s.fault = 0 →
    ∃ t, exec i s = .next t ∧ s.RejectedWith t .illegalCommand

/-- R211: in the fault state every command, legal or not, with any payload, is answered (FAULT, 0, empty) and changes
nothing; only reset leaves the fault state, and reset clears the register file. -/
def Obligations.FaultStateRefusesEveryCommand : Prop :=
  ∀ s : State, s.fault ≠ 0 →
    (∀ w bytes rest, s.host = .command w bytes :: rest →
      ∃ t, step s = .next t ∧ (s.present bytes rest).Keeps t [] ∧ t.fault = s.fault ∧ t.status = s.status ∧
        t.lmask = s.lmask ∧ t.responses = s.responses ++ [⟨s.fault, List.replicate s.cfg.lanes false, []⟩]) ∧
    (∀ t, step s = .next t → t.fault ≠ s.fault → ∃ rest, s.host = .reset :: rest) ∧
    (∀ rest, s.host = .reset :: rest → ∃ t, step s = .next t ∧ ∀ r l, t.lane r l = none)

/-! ### Invariants of the machine -/

/-- Every step keeps the invariant: V lanes in every register, V bits in LMASK, STATUS a code of R201, FAULT the code
exactly when it is fatal, LMASK 0 unless the code is OK or NotInvertible, no payload left over. -/
def Obligations.EveryStepKeepsTheInvariant : Prop :=
  ∀ s t : State, s.Inv → step s = .next t → t.Inv

/-- The invariant holds right after reset, under every configuration. -/
def Obligations.ResetEstablishesTheInvariant : Prop :=
  (∀ c : Config, (State.resetWith c).Inv) ∧ State.reset.Inv

/-- R25 and R26: the response to a command carries the values STATUS and LMASK have after it. -/
def Obligations.ResponseCarriesStatusAndMask : Prop :=
  ∀ (s t : State) (w : Word) (bytes : List Byte) (rest : List HostMove),
    s.Inv → s.host = .command w bytes :: rest → step s = .next t →
    ∃ q, t.responses = s.responses ++ [⟨t.status, t.lmask, q⟩]

/-- R27: FAULT is written only by a fatal fault while it is 0, with the code 3 or 6 of a command; once it is not 0 no
command changes it. -/
def Obligations.FaultIsWrittenOnceUntilReset : Prop :=
  ∀ (s t : State) (w : Word) (bytes : List Byte) (rest : List HostMove),
    s.host = .command w bytes :: rest → step s = .next t →
    (s.fault = 0 → (t.fault = 0 ∨ t.fault = 3 ∨ t.fault = 6) ∧ (t.fault ≠ 0 → t.status = t.fault)) ∧
    (s.fault ≠ 0 → t.fault = s.fault)

/-- R23: a written lane stays written until reset. -/
def Obligations.WrittenLanesStayWrittenUntilReset : Prop :=
  ∀ (s t : State) (w : Word) (bytes : List Byte) (rest : List HostMove),
    s.host = .command w bytes :: rest → step s = .next t →
    ∀ (r : Reg) (l : Nat), l < s.cfg.lanes → s.lane r l ≠ none → t.lane r l ≠ none

/-- R32: no step changes the configuration; R247: no command looks at the moves the host has still to make. -/
def Obligations.ConfigurationIsFixedAndFutureMovesUnseen : Prop :=
  ∀ s t : State, step s = .next t → t.cfg = s.cfg ∧
    ∀ more, s.host ≠ [] → step { s with host := s.host ++ more } = .next { t with host := t.host ++ more }

/-- R84: no response and no register bit depends on the backend parameters: a command does the same under any of them. -/
def Obligations.BackendHasNoEffectOnCommands : Prop :=
  ∀ (s t : State) (w : Word) (bytes : List Byte) (rest : List HostMove) (b : Backend) (available : Bool) (policy : BackendPolicy),
    s.host = .command w bytes :: rest → step s = .next t →
    step { s with cfg := { s.cfg with backend := b, available := available, policy := policy } } =
      .next { t with cfg := { t.cfg with backend := b, available := available, policy := policy } }

/-- R29: no command reads STATUS or LMASK: registers, FAULT and responses come out the same whatever they hold. -/
def Obligations.StatusAndMaskAreNeverRead : Prop :=
  ∀ (i : Instr) (s t : State) (status : BitVec 8) (mask : List Bool), exec i s = .next t →
    ∃ u, exec i { s with status := status, lmask := mask } = .next u ∧
      u.regs = t.regs ∧ u.fault = t.fault ∧ u.responses = t.responses

/-- R50: lanes never interact. Two engines of the same V and ETA that agree on lane l of every register and on slot l
of the payload, and that both complete the command (STATUS OK or NotInvertible), agree on lane l of every register, on
bit l of LMASK and on slot l of the payload they answer (16 bytes for ENC, 32 for FP2ENC), whatever their other lanes
hold. -/
def Obligations.LanesDoNotInteract : Prop :=
  ∀ (i : Instr) (s₁ s₂ t₁ t₂ : State) (l : Nat),
    s₂.cfg.lanes = s₁.cfg.lanes → s₂.cfg.eta = s₁.cfg.eta → l < s₁.cfg.lanes →
    s₁.fault = 0 → s₂.fault = 0 →
    (∀ r : Reg, s₂.lane r l = s₁.lane r l) →
    (s₂.payload.drop (i.slotBytes * l)).take i.slotBytes = (s₁.payload.drop (i.slotBytes * l)).take i.slotBytes →
    exec i s₁ = .next t₁ → exec i s₂ = .next t₂ →
    (t₁.status = 0 ∨ t₁.status = 2) → (t₂.status = 0 ∨ t₂.status = 2) →
    (∀ r : Reg, t₂.lane r l = t₁.lane r l) ∧ t₂.lmask[l]? = t₁.lmask[l]? ∧
    ∃ q₁ q₂, t₁.responses = s₁.responses ++ [⟨t₁.status, t₁.lmask, q₁⟩] ∧
      t₂.responses = s₂.responses ++ [⟨t₂.status, t₂.lmask, q₂⟩] ∧
      ∀ n, (i.mnemonic = "ENC" ∧ n = 16) ∨ (i.mnemonic = "FP2ENC" ∧ n = 32) →
        (q₂.drop (n * l)).take n = (q₁.drop (n * l)).take n

/-- R46: a command whose sources and destinations are distinct registers, issued again with the same payload, leaves
the registers, STATUS, LMASK and FAULT as it left them the first time, and gives the same response again. -/
def Obligations.RepeatedCommandChangesNothingMore : Prop :=
  ∀ (i : Instr) (s t : State), (∀ r ∈ i.destinations, r ∉ i.sources) → s.fault = 0 → exec i s = .next t →
    ∃ u response, exec i { t with payload := s.payload } = .next u ∧
      u.regs = t.regs ∧ u.status = t.status ∧ u.lmask = t.lmask ∧ u.fault = t.fault ∧
      t.responses = s.responses ++ [response] ∧ u.responses = t.responses ++ [response]

/-! ### Reset -/

/-- R33: after reset no lane of any register is written or holds a value, LMASK is 0 in all V bits, and STATUS and
FAULT are 4 when the engine resets into BackendUnavailable and 0 when it does not. -/
def Obligations.ResetState : Prop :=
  ∀ c : Config,
    (∀ r l, (State.resetWith c).lane r l = none) ∧
    (State.resetWith c).lmask = List.replicate c.lanes false ∧
    (c.backend = .native ∧ c.available = false ∧ c.policy = .fail →
      (State.resetWith c).status = 4 ∧ (State.resetWith c).fault = 4) ∧
    (¬(c.backend = .native ∧ c.available = false ∧ c.policy = .fail) →
      (State.resetWith c).status = 0 ∧ (State.resetWith c).fault = 0)

/-- R231 and R232: when the host asserts reset, the engine is in the reset state of its own configuration, whatever it
was before, and another reset gives that state again; the host's list and its answers are its own (log entry 10). -/
def Obligations.AssertedResetGivesTheResetState : Prop :=
  ∀ (s : State) (rest : List HostMove), s.host = .reset :: rest →
    ∃ t, step s = .next t ∧ t = { State.resetWith s.cfg with host := rest, responses := s.responses } ∧
      ∀ rest', rest = .reset :: rest' → step t = .next { t with host := rest' }

/-! ### Errors and faults -/

/-- R205: any unwritten lane of any source register, both registers of a source pair, raises the fatal
UnwrittenRegister. -/
def Obligations.UnwrittenSourceIsFatal : Prop :=
  ∀ (i : Instr) (s : State), i.wellFormed = true → s.Ready [] → (∃ r ∈ i.sources, ¬ s.Written r) →
    ∃ t, exec i s = .next t ∧ s.FaultedWith t .unwrittenRegister

/-- R142: with all sources written, breaking the command's range condition in any lane and limb raises the fatal
RangeViolation; keeping it, and for a command that has none, raises no fault. -/
def Obligations.BrokenRangeConditionIsFatal : Prop :=
  ∀ (i : Instr) (s : State), i.wellFormed = true → s.Ready [] → (∀ r ∈ i.sources, s.Written r) →
    (¬ s.RangeHolds i → ∃ t, exec i s = .next t ∧ s.FaultedWith t .rangeViolation) ∧
    (s.RangeHolds i → ∃ t, exec i s = .next t ∧ t.fault = 0)

/-- R202: a payload of another length than 8·V, 16·V, 32·V (LDI, DEC, FP2DEC), or for DEC and FP2DEC any 16-byte slot in
any lane that encodes an integer ≥ p, rejects the whole command: no lane is written, LMASK is 0. -/
def Obligations.InvalidEncodingRejectsTheWholeCommand : Prop :=
  ∀ (i : Instr) (s : State) (rd : Reg), (i = .ldi rd ∨ i = .dec rd ∨ (i = .fp2dec rd ∧ rd.val % 2 = 0)) → s.fault = 0 →
    (s.payload.length ≠ i.slotBytes * s.cfg.lanes ∨
      ∃ k, k < i.slotBytes / 16 * s.cfg.lanes ∧ 2 ^ 127 - 1 ≤ leInt ((s.payload.drop (16 * k)).take 16)) →
    ∃ t, exec i s = .next t ∧ s.RejectedWith t .invalidEncoding

/-! ### The MAC primitive -/

/-- R80 and R81: the two halves are the product's residue and quotient by 2^52, they give the product back exactly,
and they are bounded; the bound on the high half is attained. -/
def Obligations.MacHalvesAreExactAndBounded : Prop :=
  ∀ a b : MacOperand,
    (macLo a b = a.toNat * b.toNat % 2 ^ 52 ∧ macHi a b = a.toNat * b.toNat / 2 ^ 52) ∧
    a.toNat * b.toNat = macLo a b + 2 ^ 52 * macHi a b ∧ macLo a b ≤ 2 ^ 52 - 1 ∧ macHi a b ≤ 2 ^ 52 - 2 ∧
    (∀ e, a.toNat < 2 ^ (43 + e) → b.toNat < 2 ^ (43 + e) → macHi a b < 2 ^ (34 + 2 * e)) ∧
    (a.toNat ≤ 2 ^ 51 - 1 → b.toNat ≤ 2 ^ 51 - 1 → macHi a b ≤ 2 ^ 50 - 1) ∧
    (a.toNat = 2 ^ 52 - 1 → b.toNat = 2 ^ 52 - 1 → macLo a b = 1 ∧ macHi a b = 2 ^ 52 - 2) ∧
    (a.toNat = 2 ^ 51 - 1 → b.toNat = 2 ^ 51 - 1 → macLo a b = 1 ∧ macHi a b = 0x3ffffffffffff)

/-- R83 and R85: the emulated backend, by 26-bit halves, is bit-identical to the contract on all operands. -/
def Obligations.EmulatedMacMeetsTheContract : Prop :=
  ∀ a b : MacOperand, macEmulated a b = (macLo a b, macHi a b)

/-! ### Limb arithmetic -/

/-- R91 to R93: the bias is 2^11·p, and a biased difference or negation is the difference of the values plus it. -/
def Obligations.BiasedDifferenceHasTheRightValue : Prop :=
  val ⟨0xffffffffff800, 0xffffffffffe00, 0xffffffffffe00⟩ = 2 ^ 11 * (2 ^ 127 - 1) ∧
  ∀ x y : Triple, y.x0 ≤ 0xffffffffff800 → y.x1 ≤ 0xffffffffffe00 → y.x2 ≤ 0xffffffffffe00 →
    feSub x y = ⟨x.x0 + 0xffffffffff800 - y.x0, x.x1 + 0xffffffffffe00 - y.x1, x.x2 + 0xffffffffffe00 - y.x2⟩ ∧
    (val (feSub x y) : Int) = val x - val y + 2 ^ 11 * (2 ^ 127 - 1) ∧
    (val (feSub x y) : Int) ≡ val x - val y [ZMOD 2 ^ 127 - 1] ∧
    feNeg y = feSub ⟨0, 0, 0⟩ y ∧ (val (feNeg y) : Int) = 2 ^ 11 * (2 ^ 127 - 1) - val y

/-- R94 to R96: weak reduction is two of the carry passes written here, for every triple of u64 limbs; it gives limbs
below 2^43, keeps the residue, stays below 2^129 = 4p + 4, and changes nothing that is already weakly reduced; twice is
once; canonical triples are fixed. -/
def Obligations.WeakReductionMeetsItsPostcondition : Prop :=
  let pass (x : Triple) : Triple :=
    ⟨x.x0 % 2 ^ 43 + 4 * ((x.x2 + (x.x1 + x.x0 / 2 ^ 43) / 2 ^ 43) / 2 ^ 43), (x.x1 + x.x0 / 2 ^ 43) % 2 ^ 43,
      (x.x2 + (x.x1 + x.x0 / 2 ^ 43) / 2 ^ 43) % 2 ^ 43⟩
  ∀ x : Triple, x.below (2 ^ 64) = true →
    wred x = pass (pass x) ∧
    (wred x).below (2 ^ 43) = true ∧
    val (wred x) % (2 ^ 127 - 1) = val x % (2 ^ 127 - 1) ∧
    val (wred x) < 2 ^ 129 ∧ 2 ^ 129 = 4 * (2 ^ 127 - 1) + 4 ∧
    (x.below (2 ^ 43) = true → wred x = x) ∧ wred (wred x) = wred x ∧
    (∀ n, n < 2 ^ 127 - 1 → wred (digits n) = digits n)

/-- R97: the canonical triple of n < p has value n, limbs 0 and 1 below 2^43 and limb 2 below 2^41; two canonical
triples are equal exactly when their values are; and the triple of p − 1 is the one the rule writes. -/
def Obligations.CanonicalTriplesAreUnique : Prop :=
  (∀ n, n < 2 ^ 127 - 1 → digits n = ⟨n % 2 ^ 43, n / 2 ^ 43 % 2 ^ 43, n / 2 ^ 86⟩ ∧ val (digits n) = n ∧
    (digits n).x0 < 2 ^ 43 ∧ (digits n).x1 < 2 ^ 43 ∧ (digits n).x2 < 2 ^ 41) ∧
  (∀ n m, n < 2 ^ 127 - 1 → m < 2 ^ 127 - 1 → (digits n = digits m ↔ val (digits n) = val (digits m))) ∧
  digits (2 ^ 127 - 2) = ⟨0x7fffffffffe, 0x7ffffffffff, 0x1ffffffffff⟩

/-- R98: canonical reduction is the canonical triple of the residue; it is idempotent, it does not see a weak reduction
before it, and it fixes canonical triples. -/
def Obligations.CanonicalReductionMeetsItsEquation : Prop :=
  ∀ x : Triple, x.below (2 ^ 64) = true →
    canon x = digits (val x % (2 ^ 127 - 1)) ∧ canon (canon x) = canon x ∧ canon (wred x) = canon x ∧
    (∀ n, n < 2 ^ 127 - 1 → canon (digits n) = digits n)

/-- R99: the reference algorithm, one fold at 2^127 and at most one subtraction of p after a weak reduction, computes
canonical reduction. -/
def Obligations.FoldingAlgorithmComputesCanon : Prop :=
  ∀ x : Triple, x.below (2 ^ 64) = true → canonByFolding x = canon x

/-- R143: ADD grows the bit-excess by at most one; up to eight doublings of any reduced triple, and a sum of up to 256
reduced triples, stay within MUL's operand limit; the largest reduced triple, of limbs 2^43 − 1, leaves it at nine
doublings and at a sum of 257. -/
def Obligations.EightDoublingsFitTheMultiplier : Prop :=
  (∀ (b : Nat) (x y : Triple), x.below (2 ^ (43 + b)) = true → y.below (2 ^ (43 + b)) = true →
    (feAdd x y).below (2 ^ (43 + (b + 1))) = true) ∧
  (∀ x : Triple, x.below (2 ^ 43) = true → ∀ k, k ≤ 8 → mulInRange ((fun z => feAdd z z)^[k] x) = true) ∧
  (∀ xs : List Triple, (∀ x ∈ xs, x.below (2 ^ 43) = true) → xs.length ≤ 256 →
    mulInRange (xs.foldl feAdd ⟨0, 0, 0⟩) = true) ∧
  (∀ k, mulInRange ((fun z => feAdd z z)^[k] ⟨2 ^ 43 - 1, 2 ^ 43 - 1, 2 ^ 43 - 1⟩) = true ↔ k ≤ 8) ∧
  (∀ n, mulInRange ((List.replicate n ⟨2 ^ 43 - 1, 2 ^ 43 - 1, 2 ^ 43 - 1⟩).foldl feAdd ⟨0, 0, 0⟩) = true ↔ n ≤ 256)

/-! ### Multiplication and inversion -/

/-- R120 and R121: with every operand limb at most 2^51 − 1 the accumulators are the sums of R120, written here with the
residue and the quotient by 2^52 of each product; they stay below the bounds of R121, hence below 2^63; on the largest
operands they are the values that rule gives. -/
def Obligations.AccumulatorsAreTheirSumsAndDoNotOverflow : Prop :=
  (∀ x y : Triple, mulInRange x = true → mulInRange y = true →
    (let lo (a b : Nat) := a * b % 2 ^ 52
     let hi (a b : Nat) := a * b / 2 ^ 52
     mulZ x y =
      ⟨lo x.x0 y.x0 + 4 * lo x.x2 y.x1 + 4 * lo x.x1 y.x2 + 2 ^ 11 * hi x.x2 y.x0 + 2 ^ 11 * hi x.x1 y.x1 + 2 ^ 11 * hi x.x0 y.x2,
       lo x.x1 y.x0 + lo x.x0 y.x1 + 4 * lo x.x2 y.x2 + 2 ^ 9 * hi x.x0 y.x0 + 2 ^ 11 * hi x.x2 y.x1 + 2 ^ 11 * hi x.x1 y.x2,
       lo x.x2 y.x0 + lo x.x1 y.x1 + lo x.x0 y.x2 + 2 ^ 9 * hi x.x1 y.x0 + 2 ^ 9 * hi x.x0 y.x1 + 2 ^ 11 * hi x.x2 y.x2⟩) ∧
    (mulZ x y).x0 ≤ 9 * (2 ^ 52 - 1) + 3 * 2 ^ 11 * (2 ^ 50 - 1) ∧
    (mulZ x y).x1 ≤ 6 * (2 ^ 52 - 1) + (2 ^ 9 + 2 * 2 ^ 11) * (2 ^ 50 - 1) ∧
    (mulZ x y).x2 ≤ 3 * (2 ^ 52 - 1) + (2 * 2 ^ 9 + 2 ^ 11) * (2 ^ 50 - 1) ∧
    (mulZ x y).below (2 ^ 63) = true) ∧
  mulZ ⟨2 ^ 51 - 1, 2 ^ 51 - 1, 2 ^ 51 - 1⟩ ⟨2 ^ 51 - 1, 2 ^ 51 - 1, 2 ^ 51 - 1⟩ =
    ⟨0x5fffffffffffe809, 0x47ffffffffffee06, 0x2ffffffffffff403⟩

/-- R122 and R123: the accumulators and the product are congruent to the product of the values mod p, and every limb
of the product is below 2^43. -/
def Obligations.ProductIsCorrectModP : Prop :=
  ∀ x y : Triple, mulInRange x = true → mulInRange y = true →
    val (mulZ x y) % (2 ^ 127 - 1) = val x * val y % (2 ^ 127 - 1) ∧
    val (feMul x y) % (2 ^ 127 - 1) = val x * val y % (2 ^ 127 - 1) ∧
    feMul x y = wred (mulZ x y) ∧ (feMul x y).below (2 ^ 43) = true

/-- The exponentiation that the model runs is the power of R126. -/
def Obligations.PowerBySquaringIsThePower : Prop :=
  ∀ m b fuel e : Nat, e < 2 ^ fuel → powMod m b fuel e = b ^ e % m

/-- R126: no inverse exactly for a residue of 0; otherwise the canonical triple of the unique m in [1, p) with
n·m ≡ 1 (mod p). -/
def Obligations.InverseIsTheUniqueInverse : Prop :=
  ∀ x : Triple,
    (val x % (2 ^ 127 - 1) = 0 → feInv x = none) ∧
    (val x % (2 ^ 127 - 1) ≠ 0 → ∃ m, 1 ≤ m ∧ m < 2 ^ 127 - 1 ∧ val x % (2 ^ 127 - 1) * m % (2 ^ 127 - 1) = 1 ∧
      feInv x = some (digits m) ∧
      ∀ m', 1 ≤ m' → m' < 2 ^ 127 - 1 → val x % (2 ^ 127 - 1) * m' % (2 ^ 127 - 1) = 1 → m' = m)

/-! ### Quadratic extension -/

/-- R158 and R160: under the range condition of FP2MUL, and for every ETA below p, the result is computed by the steps of
R158, it is the product in GF(p)[u]/(u² − ETA), and both components are weakly reduced. -/
def Obligations.Fp2ProductIsCorrect : Prop :=
  ∀ (eta : Nat) (c d : Fp2), eta < 2 ^ 127 - 1 → fp2MulInRange c = true → fp2MulInRange d = true →
    (let t0 := feMul c.1 d.1
     let t1 := feMul c.2 d.2
     let t2 := feMul (feAdd c.1 c.2) (feAdd d.1 d.2)
     fp2Mul eta c d = (wred (feAdd t0 (feMul (digits eta) t1)), wred (feSub (feSub t2 t0) t1))) ∧
    val (fp2Mul eta c d).1 % (2 ^ 127 - 1) = (val c.1 * val d.1 + eta * (val c.2 * val d.2)) % (2 ^ 127 - 1) ∧
    val (fp2Mul eta c d).2 % (2 ^ 127 - 1) = (val c.1 * val d.2 + val c.2 * val d.1) % (2 ^ 127 - 1) ∧
    (fp2Mul eta c d).1.below (2 ^ 43) = true ∧ (fp2Mul eta c d).2.below (2 ^ 43) = true

/-- R163: for an admissible ETA there is no inverse exactly when both components are 0 mod p; otherwise the result r
is canonical in both components and (a0 + a1·u)·(r0 + r1·u) = 1. -/
def Obligations.Fp2InverseIsCorrect : Prop :=
  ∀ (cfg : Config) (c : Fp2), cfg.Admissible →
    (val c.1 % (2 ^ 127 - 1) = 0 ∧ val c.2 % (2 ^ 127 - 1) = 0 → fp2Inv cfg.eta c = none) ∧
    (¬(val c.1 % (2 ^ 127 - 1) = 0 ∧ val c.2 % (2 ^ 127 - 1) = 0) →
      ∃ r0 r1, r0 < 2 ^ 127 - 1 ∧ r1 < 2 ^ 127 - 1 ∧ fp2Inv cfg.eta c = some (digits r0, digits r1) ∧
        (val c.1 * r0 + cfg.eta * (val c.2 * r1)) % (2 ^ 127 - 1) = 1 ∧
        (val c.1 * r1 + val c.2 * r0) % (2 ^ 127 - 1) = 0)

/-! ### Codec -/

/-- R191: every valid slot is encoded back from what it decodes to; every encoding is valid, has 16 bytes and decodes
to the canonical triple. R42 and R11: byte k of the encoding is (n div 2^(8k)) mod 256 for the residue n, as of every
little-endian string of n, and an integer is read back with byte k at weight 2^(8k). -/
def Obligations.CodecRoundTrips : Prop :=
  (∀ slot : List Byte, slot.length = 16 → validSlot slot = true → encodeFe (decodeFe slot) = slot) ∧
  (∀ x : Triple, decodeFe (encodeFe x) = canon x ∧ validSlot (encodeFe x) = true ∧ (encodeFe x).length = 16 ∧
    ∀ k, k < 16 → ((encodeFe x)[k]?).map BitVec.toNat = some (val x % (2 ^ 127 - 1) / 2 ^ (8 * k) % 256)) ∧
  (∀ size n : Nat, (leBytes size n).length = size ∧
    ∀ k, k < size → ((leBytes size n)[k]?).map BitVec.toNat = some (n / 2 ^ (8 * k) % 256)) ∧
  (∀ bytes : List Byte, leInt bytes = ((List.range bytes.length).map fun k => (bytes.getD k 0).toNat * 2 ^ (8 * k)).sum)

/-! ### What each command does when it completes, and what it leaves alone -/

/-- R183: NOP writes STATUS 0 and LMASK 0, answers (0, 0, empty), and changes no register. -/
def Obligations.NopAnswersOk : Prop :=
  ∀ s : State, s.Ready [] → ∃ t, exec .nop s = .next t ∧ s.CompletedWith t [] .ok s.zeroMask []

/-- R184, R185: ZERO and ONE write (0, 0, 0) and (1, 0, 0) to every lane of rd and nothing else. -/
def Obligations.ZeroAndOneFillTheRegister : Prop :=
  ∀ (s : State) (rd : Reg), s.Ready [] →
    (∃ t, exec (.zero rd) s = .next t ∧ t.Holds rd (fun _ => ⟨0, 0, 0⟩) ∧ s.CompletedWith t [rd] .ok s.zeroMask []) ∧
    (∃ t, exec (.one rd) s = .next t ∧ t.Holds rd (fun _ => ⟨1, 0, 0⟩) ∧ s.CompletedWith t [rd] .ok s.zeroMask [])

/-- R186: LDI with a payload of 8·V bytes writes (n mod 2^43, n div 2^43, 0) to lane l of rd, n the little-endian u64 of
slot l. -/
def Obligations.LdiLoadsTheSmallIntegers : Prop :=
  ∀ (s : State) (rd : Reg), s.fault = 0 → s.payload.length = 8 * s.cfg.lanes →
    ∃ t, exec (.ldi rd) s = .next t ∧ s.CompletedWith t [rd] .ok s.zeroMask [] ∧
      t.Holds rd (fun l => ⟨leInt ((s.payload.drop (8 * l)).take 8) % 2 ^ 43, leInt ((s.payload.drop (8 * l)).take 8) / 2 ^ 43, 0⟩)

/-- R187: DEC with a payload of 16·V bytes, every slot below p, writes the canonical triple of slot l to lane l. -/
def Obligations.DecWritesTheDecodedLanes : Prop :=
  ∀ (s : State) (rd : Reg), s.fault = 0 → s.payload.length = 16 * s.cfg.lanes →
    (∀ l, l < s.cfg.lanes → leInt ((s.payload.drop (16 * l)).take 16) < 2 ^ 127 - 1) →
    ∃ t, exec (.dec rd) s = .next t ∧ s.CompletedWith t [rd] .ok s.zeroMask [] ∧
      t.Holds rd (fun l => digits (leInt ((s.payload.drop (16 * l)).take 16)))

/-- R189: FP2DEC with a payload of 32·V bytes, every half slot below p, writes both registers of the pair. -/
def Obligations.Fp2decWritesBothComponents : Prop :=
  ∀ (s : State) (rd : Reg), rd.val % 2 = 0 → s.fault = 0 → s.payload.length = 32 * s.cfg.lanes →
    (∀ k, k < 2 * s.cfg.lanes → leInt ((s.payload.drop (16 * k)).take 16) < 2 ^ 127 - 1) →
    ∃ t, exec (.fp2dec rd) s = .next t ∧ s.CompletedWith t [rd, partner rd] .ok s.zeroMask [] ∧
      t.Holds rd (fun l => digits (leInt ((s.payload.drop (32 * l)).take 16))) ∧
      t.Holds (partner rd) (fun l => digits (leInt ((s.payload.drop (32 * l + 16)).take 16)))

/-- R188, R190: ENC and FP2ENC answer the 16 little-endian bytes of the residue of every lane, lane 0 first, c0 before
c1, for any limbs, and change no register. -/
def Obligations.EncAndFp2encAnswerTheBytes : Prop :=
  (∀ (s : State) (ra : Reg) (x : Nat → Triple), s.Ready [] → s.Holds ra x →
    ∃ t, exec (.enc ra) s = .next t ∧ s.CompletedWith t [] .ok s.zeroMask
      ((List.range s.cfg.lanes).flatMap fun l => leBytes 16 (val (x l) % (2 ^ 127 - 1)))) ∧
  (∀ (s : State) (ra : Reg) (x y : Nat → Triple), ra.val % 2 = 0 → s.Ready [] → s.Holds ra x → s.Holds (partner ra) y →
    ∃ t, exec (.fp2enc ra) s = .next t ∧ s.CompletedWith t [] .ok s.zeroMask
      ((List.range s.cfg.lanes).flatMap fun l =>
        leBytes 16 (val (x l) % (2 ^ 127 - 1)) ++ leBytes 16 (val (y l) % (2 ^ 127 - 1))))

/-- R100: where every sum of limbs is at most 2^64 − 1, ADD writes the limb-wise sums, unreduced. -/
def Obligations.AddWritesTheLimbSums : Prop :=
  ∀ (s : State) (rd ra rb : Reg) (x y : Nat → Triple), s.Ready [] → s.Holds ra x → s.Holds rb y →
    (∀ l, l < s.cfg.lanes → (x l).x0 + (y l).x0 ≤ 2 ^ 64 - 1 ∧ (x l).x1 + (y l).x1 ≤ 2 ^ 64 - 1 ∧
      (x l).x2 + (y l).x2 ≤ 2 ^ 64 - 1) →
    ∃ t, exec (.add rd ra rb) s = .next t ∧ s.CompletedWith t [rd] .ok s.zeroMask [] ∧
      t.Holds rd (fun l => ⟨(x l).x0 + (y l).x0, (x l).x1 + (y l).x1, (x l).x2 + (y l).x2⟩)

/-- R101: where no subtrahend limb exceeds the bias and no result limb exceeds 2^64 − 1, SUB writes ra − rb plus the
bias, limb by limb. -/
def Obligations.SubWritesTheBiasedDifferences : Prop :=
  ∀ (s : State) (rd ra rb : Reg) (x y : Nat → Triple), s.Ready [] → s.Holds ra x → s.Holds rb y →
    (∀ l, l < s.cfg.lanes →
      ((y l).x0 ≤ 2 ^ 52 - 2 ^ 11 ∧ (y l).x1 ≤ 2 ^ 52 - 2 ^ 9 ∧ (y l).x2 ≤ 2 ^ 52 - 2 ^ 9) ∧
      (x l).x0 + (2 ^ 52 - 2 ^ 11) - (y l).x0 ≤ 2 ^ 64 - 1 ∧ (x l).x1 + (2 ^ 52 - 2 ^ 9) - (y l).x1 ≤ 2 ^ 64 - 1 ∧
      (x l).x2 + (2 ^ 52 - 2 ^ 9) - (y l).x2 ≤ 2 ^ 64 - 1) →
    ∃ t, exec (.sub rd ra rb) s = .next t ∧ s.CompletedWith t [rd] .ok s.zeroMask [] ∧
      t.Holds rd (fun l => ⟨(x l).x0 + (2 ^ 52 - 2 ^ 11) - (y l).x0, (x l).x1 + (2 ^ 52 - 2 ^ 9) - (y l).x1,
        (x l).x2 + (2 ^ 52 - 2 ^ 9) - (y l).x2⟩)

/-- R102: where no limb exceeds the bias, NEG writes the bias minus the limbs. -/
def Obligations.NegWritesTheBiasedNegations : Prop :=
  ∀ (s : State) (rd ra : Reg) (x : Nat → Triple), s.Ready [] → s.Holds ra x →
    (∀ l, l < s.cfg.lanes → (x l).x0 ≤ 2 ^ 52 - 2 ^ 11 ∧ (x l).x1 ≤ 2 ^ 52 - 2 ^ 9 ∧ (x l).x2 ≤ 2 ^ 52 - 2 ^ 9) →
    ∃ t, exec (.neg rd ra) s = .next t ∧ s.CompletedWith t [rd] .ok s.zeroMask [] ∧
      t.Holds rd (fun l => ⟨2 ^ 52 - 2 ^ 11 - (x l).x0, 2 ^ 52 - 2 ^ 9 - (x l).x1, 2 ^ 52 - 2 ^ 9 - (x l).x2⟩)

/-- R103, R104: WRED and CANON accept every triple; they write the weakly reduced and the canonical triple. -/
def Obligations.WredAndCanonReduceEveryLane : Prop :=
  ∀ (s : State) (rd ra : Reg) (x : Nat → Triple), s.Ready [] → s.Holds ra x →
    (∃ t, exec (.wred rd ra) s = .next t ∧ s.CompletedWith t [rd] .ok s.zeroMask [] ∧ t.Holds rd (fun l => wred (x l))) ∧
    (∃ t, exec (.canon rd ra) s = .next t ∧ s.CompletedWith t [rd] .ok s.zeroMask [] ∧
      t.Holds rd (fun l => digits (val (x l) % (2 ^ 127 - 1))))

/-- R105, R106: ISZERO and EQ answer a mask whose bit l is set exactly when lane l is 0 mod p, or equal mod p; they
change no register. -/
def Obligations.IszeroAndEqAnswerTheMask : Prop :=
  ∀ (s : State) (ra rb : Reg) (x y : Nat → Triple), s.Ready [] → s.Holds ra x →
    (∃ t, exec (.iszero ra) s = .next t ∧ s.CompletedWith t [] .ok
      ((List.range s.cfg.lanes).map fun l => decide (val (x l) % (2 ^ 127 - 1) = 0)) []) ∧
    (s.Holds rb y → ∃ t, exec (.eq ra rb) s = .next t ∧ s.CompletedWith t [] .ok
      ((List.range s.cfg.lanes).map fun l => decide (val (x l) % (2 ^ 127 - 1) = val (y l) % (2 ^ 127 - 1))) [])

/-- R127, R128: where no operand limb exceeds 2^51 − 1, MUL writes the reduced products and SQR the reduced squares. -/
def Obligations.MulAndSqrWriteReducedProducts : Prop :=
  ∀ (s : State) (rd ra rb : Reg) (x y : Nat → Triple), s.Ready [] → s.Holds ra x →
    (∀ l, l < s.cfg.lanes → (x l).x0 ≤ 2 ^ 51 - 1 ∧ (x l).x1 ≤ 2 ^ 51 - 1 ∧ (x l).x2 ≤ 2 ^ 51 - 1) →
    (∃ t, exec (.sqr rd ra) s = .next t ∧ s.CompletedWith t [rd] .ok s.zeroMask [] ∧
      t.Holds rd (fun l => wred (mulZ (x l) (x l)))) ∧
    (s.Holds rb y →
      (∀ l, l < s.cfg.lanes → (y l).x0 ≤ 2 ^ 51 - 1 ∧ (y l).x1 ≤ 2 ^ 51 - 1 ∧ (y l).x2 ≤ 2 ^ 51 - 1) →
      ∃ t, exec (.mul rd ra rb) s = .next t ∧ s.CompletedWith t [rd] .ok s.zeroMask [] ∧
        t.Holds rd (fun l => wred (mulZ (x l) (y l))))

/-- R129: INV writes to every lane with a residue other than 0 the canonical triple of its inverse mod p, leaves the
other lanes of rd and their written flags as they were, and reports them in LMASK; STATUS is 2 when there is one. -/
def Obligations.InvWritesTheInversesLaneByLane : Prop :=
  ∀ (s : State) (rd ra : Reg) (x : Nat → Triple), s.Ready [] → s.Holds ra x →
    ∃ t, exec (.inv rd ra) s = .next t ∧
      s.CompletedWith t [rd] (if ∃ l ∈ List.range s.cfg.lanes, val (x l) % (2 ^ 127 - 1) = 0 then .notInvertible else .ok)
        ((List.range s.cfg.lanes).map fun l => decide (val (x l) % (2 ^ 127 - 1) = 0)) [] ∧
      ∀ l, l < s.cfg.lanes →
        (val (x l) % (2 ^ 127 - 1) = 0 → t.lane rd l = s.lane rd l) ∧
        (val (x l) % (2 ^ 127 - 1) ≠ 0 → ∃ m, m < 2 ^ 127 - 1 ∧ val (x l) * m % (2 ^ 127 - 1) = 1 ∧
          t.triple rd l = some (digits m))

/-- R164, R165: where both components keep the range conditions of ADD and SUB, FP2ADD and FP2SUB write the
component-wise sums and biased differences to both registers of the pair. -/
def Obligations.Fp2addAndFp2subWorkComponentwise : Prop :=
  ∀ (s : State) (rd ra rb : Reg) (x0 x1 y0 y1 : Nat → Triple), rd.val % 2 = 0 → ra.val % 2 = 0 → rb.val % 2 = 0 →
    s.Ready [] → s.Holds ra x0 → s.Holds (partner ra) x1 → s.Holds rb y0 → s.Holds (partner rb) y1 →
    (s.RangeHolds (.fp2add rd ra rb) → ∃ t, exec (.fp2add rd ra rb) s = .next t ∧
      s.CompletedWith t [rd, partner rd] .ok s.zeroMask [] ∧
      t.Holds rd (fun l => feAdd (x0 l) (y0 l)) ∧ t.Holds (partner rd) (fun l => feAdd (x1 l) (y1 l))) ∧
    (s.RangeHolds (.fp2sub rd ra rb) → ∃ t, exec (.fp2sub rd ra rb) s = .next t ∧
      s.CompletedWith t [rd, partner rd] .ok s.zeroMask [] ∧
      t.Holds rd (fun l => feSub (x0 l) (y0 l)) ∧ t.Holds (partner rd) (fun l => feSub (x1 l) (y1 l)))

/-- R166, R167: where the sums of the components keep the multiplier's limit, FP2MUL and FP2SQR write the Karatsuba
product of R158 to both registers of the pair. -/
def Obligations.Fp2mulAndFp2sqrWriteTheProduct : Prop :=
  ∀ (s : State) (rd ra rb : Reg) (x0 x1 y0 y1 : Nat → Triple), rd.val % 2 = 0 → ra.val % 2 = 0 → rb.val % 2 = 0 →
    s.Ready [] → s.Holds ra x0 → s.Holds (partner ra) x1 → s.Holds rb y0 → s.Holds (partner rb) y1 →
    (s.RangeHolds (.fp2mul rd ra rb) → ∃ t, exec (.fp2mul rd ra rb) s = .next t ∧
      s.CompletedWith t [rd, partner rd] .ok s.zeroMask [] ∧
      t.Holds rd (fun l => (fp2Mul s.cfg.eta (x0 l, x1 l) (y0 l, y1 l)).1) ∧
      t.Holds (partner rd) (fun l => (fp2Mul s.cfg.eta (x0 l, x1 l) (y0 l, y1 l)).2)) ∧
    (s.RangeHolds (.fp2sqr rd ra) → ∃ t, exec (.fp2sqr rd ra) s = .next t ∧
      s.CompletedWith t [rd, partner rd] .ok s.zeroMask [] ∧
      t.Holds rd (fun l => (fp2Mul s.cfg.eta (x0 l, x1 l) (x0 l, x1 l)).1) ∧
      t.Holds (partner rd) (fun l => (fp2Mul s.cfg.eta (x0 l, x1 l) (x0 l, x1 l)).2))

/-- R168: FP2INV writes to every lane with an inverse (R163) both its components, leaves the other lanes of the pair
and their written flags as they were, and reports them in LMASK; STATUS is 2 when there is one. -/
def Obligations.Fp2invWritesTheInversesLaneByLane : Prop :=
  ∀ (s : State) (rd ra : Reg) (x0 x1 : Nat → Triple), rd.val % 2 = 0 → ra.val % 2 = 0 →
    s.Ready [] → s.Holds ra x0 → s.Holds (partner ra) x1 →
    ∃ t, exec (.fp2inv rd ra) s = .next t ∧
      s.CompletedWith t [rd, partner rd]
        (if ∃ l ∈ List.range s.cfg.lanes, val (x0 l) % (2 ^ 127 - 1) = 0 ∧ val (x1 l) % (2 ^ 127 - 1) = 0
          then .notInvertible else .ok)
        ((List.range s.cfg.lanes).map fun l =>
          decide (val (x0 l) % (2 ^ 127 - 1) = 0 ∧ val (x1 l) % (2 ^ 127 - 1) = 0)) [] ∧
      ∀ l, l < s.cfg.lanes →
        (fp2Inv s.cfg.eta (x0 l, x1 l) = none → t.lane rd l = s.lane rd l ∧ t.lane (partner rd) l = s.lane (partner rd) l) ∧
        (∀ c, fp2Inv s.cfg.eta (x0 l, x1 l) = some c → t.triple rd l = some c.1 ∧ t.triple (partner rd) l = some c.2)

/-! ### Commands against each other -/

/-- R141: a result of WRED, MUL, SQR, FP2MUL or FP2SQR has limbs below 2^43; a result of ZERO, ONE, LDI, DEC, FP2DEC, CANON
and a good lane of INV or FP2INV is canonical: limbs 0 and 1 below 2^43, limb 2 below 2^41, value below p. -/
def Obligations.ResultsKeepTheirBounds : Prop :=
  ∀ (i : Instr) (s t : State) (rd : Reg) (l : Nat) (x : Triple),
    s.fault = 0 → exec i s = .next t → (t.status = 0 ∨ t.status = 2) →
    rd ∈ i.destinations → l < s.cfg.lanes → t.lmask[l]? = some false → t.triple rd l = some x →
    (i.mnemonic ∈ ["WRED", "MUL", "SQR", "FP2MUL", "FP2SQR"] → x.below (2 ^ 43) = true) ∧
    (i.mnemonic ∈ ["ZERO", "ONE", "LDI", "DEC", "FP2DEC", "CANON", "INV", "FP2INV"] →
      x.x0 < 2 ^ 43 ∧ x.x1 < 2 ^ 43 ∧ x.x2 < 2 ^ 41 ∧ val x < 2 ^ 127 - 1)

/-- R128, R167: SQR is MUL of the register with itself, and FP2SQR is FP2MUL of the pair with itself, in every state. -/
def Obligations.SquaringIsSelfMultiplication : Prop :=
  ∀ (s : State) (rd ra : Reg),
    exec (.sqr rd ra) s = exec (.mul rd ra ra) s ∧ exec (.fp2sqr rd ra) s = exec (.fp2mul rd ra ra) s

/-- R102: NEG is limb-identical to SUB from a register that holds (0, 0, 0), in every state. -/
def Obligations.NegationIsSubtractionFromZero : Prop :=
  ∀ (s : State) (rd ra fz : Reg), s.Holds fz (fun _ => ⟨0, 0, 0⟩) → exec (.neg rd ra) s = exec (.sub rd fz ra) s

/-- R164: an FP2ADD that completes leaves the registers as ADD of the first components followed by ADD of the second
ones does. -/
def Obligations.Fp2addIsTwoAdds : Prop :=
  ∀ (s t : State) (rd ra rb : Reg), s.fault = 0 → exec (.fp2add rd ra rb) s = .next t → t.status = 0 →
    ∃ u v, exec (.add rd ra rb) s = .next u ∧ exec (.add (partner rd) (partner ra) (partner rb)) u = .next v ∧
      v.regs = t.regs ∧ v.status = 0

/-- R146, as far as it agrees with the definitions (log entry 18): a limb of a NEG or SUB result exceeds 2^51 − 1 where
the subtrahend's limb is at most 2^51 − 2^11 (limb 0) or 2^51 − 2^9 (limbs 1 and 2). Where some lane has such a limb,
squaring the result at once is a RangeViolation. A NEG result without such a limb is a legal operand, the largest
multiplier operand's negation among them. Squaring after WRED always completes. -/
def Obligations.BiasedResultNeedsReductionBeforeMul : Prop :=
  (∀ (s t : State) (i : Instr) (rd ra rb f g : Reg) (y : Nat → Triple), s.fault = 0 →
    (i = .neg rd rb ∨ i = .sub rd ra rb) → s.Holds rb y → exec i s = .next t → t.status = 0 →
    ((∃ l, l < s.cfg.lanes ∧ ((y l).x0 ≤ 2 ^ 51 - 2 ^ 11 ∨ (y l).x1 ≤ 2 ^ 51 - 2 ^ 9 ∨ (y l).x2 ≤ 2 ^ 51 - 2 ^ 9)) →
      ∃ u, exec (.sqr g rd) t = .next u ∧ t.FaultedWith u .rangeViolation) ∧
    (i = .neg rd rb →
      (∀ l, l < s.cfg.lanes → 2 ^ 51 - 2 ^ 11 < (y l).x0 ∧ 2 ^ 51 - 2 ^ 9 < (y l).x1 ∧ 2 ^ 51 - 2 ^ 9 < (y l).x2) →
      ∃ u, exec (.sqr g rd) t = .next u ∧ u.fault = 0 ∧ u.status = 0) ∧
    (∃ u v, exec (.wred f rd) t = .next u ∧ exec (.sqr g f) u = .next v ∧ v.fault = 0 ∧ v.status = 0)) ∧
  feNeg ⟨2 ^ 51 - 1, 2 ^ 51 - 1, 2 ^ 51 - 1⟩ = ⟨2 ^ 51 - 2047, 2 ^ 51 - 511, 2 ^ 51 - 511⟩ ∧
  mulInRange (feNeg ⟨2 ^ 51 - 1, 2 ^ 51 - 1, 2 ^ 51 - 1⟩) = true
end

