-- ==== Sys2Proof/Laws/Decode.lean ====
section
/-! SUPPORT. The fields of an encoded word read back as they were put in (R56). -/

namespace Sys2Proof.Laws

/-- The word's value, before it is taken apart. -/
theorem encodeFields_toNat (op : Nat) (h : op < 256) (rd ra rb : Reg) :
    (encodeFields op rd ra rb).toNat = op * 2 ^ 24 + rd.val * 2 ^ 20 + ra.val * 2 ^ 16 + rb.val * 2 ^ 12 := by
  have h1 := rd.isLt; have h2 := ra.isLt; have h3 := rb.isLt
  simp only [encodeFields, BitVec.toNat_ofNat]; omega

theorem opField_encodeFields (op : Nat) (h : op < 256) (rd ra rb : Reg) : opField (encodeFields op rd ra rb) = op := by
  have h1 := rd.isLt; have h2 := ra.isLt; have h3 := rb.isLt
  simp only [opField, bits, encodeFields_toNat op h]; omega

theorem rdField_encodeFields (op : Nat) (h : op < 256) (rd ra rb : Reg) : rdField (encodeFields op rd ra rb) = rd := by
  have h1 := rd.isLt; have h2 := ra.isLt; have h3 := rb.isLt
  ext; simp only [rdField, bits, encodeFields_toNat op h, Fin.val_ofNat]; omega

theorem raField_encodeFields (op : Nat) (h : op < 256) (rd ra rb : Reg) : raField (encodeFields op rd ra rb) = ra := by
  have h1 := rd.isLt; have h2 := ra.isLt; have h3 := rb.isLt
  ext; simp only [raField, bits, encodeFields_toNat op h, Fin.val_ofNat]; omega

theorem rbField_encodeFields (op : Nat) (h : op < 256) (rd ra rb : Reg) : rbField (encodeFields op rd ra rb) = rb := by
  have h1 := rd.isLt; have h2 := ra.isLt; have h3 := rb.isLt
  ext; simp only [rbField, bits, encodeFields_toNat op h, Fin.val_ofNat]; omega

theorem zeroField_encodeFields (op : Nat) (h : op < 256) (rd ra rb : Reg) : zeroField (encodeFields op rd ra rb) = 0 := by
  have h1 := rd.isLt; have h2 := ra.isLt; have h3 := rb.isLt
  simp only [zeroField, bits, encodeFields_toNat op h]; omega

/-- Decoding an encoded word is decoding its fields. -/
theorem decodeWord_encodeFields (op : Nat) (h : op < 256) (rd ra rb : Reg) :
    decodeWord (encodeFields op rd ra rb) = (decodeFields op rd ra rb).bind requirePairs := by
  simp only [decodeWord, zeroField_encodeFields op h, opField_encodeFields op h, rdField_encodeFields op h,
    raField_encodeFields op h, rbField_encodeFields op h, ne_eq, not_true_eq_false, if_false]

/-- A word whose bits 11:0 are 0 is the word of its fields. -/
theorem encodeFields_of_fields (w : Word) (h : zeroField w = 0) :
    encodeFields (opField w) (rdField w) (raField w) (rbField w) = w := by
  apply BitVec.eq_of_toNat_eq
  have hw := w.isLt
  simp only [zeroField, bits] at h
  simp only [encodeFields, opField, rdField, raField, rbField, bits, BitVec.toNat_ofNat, Fin.val_ofNat]
  omega

end Sys2Proof.Laws
end

