-- ==== Sys2Proof/Laws/State.lean ====
section
/-! SUPPORT. One lemma for each field of `State` after each update of the model, true by unfolding, so that no later
proof unfolds a record update. -/

namespace Sys2Proof.Laws

open Sys2Proof.Machine

/-! ### The register file -/

@[simp] theorem writeReg_cfg (s : State) (r : Reg) (v : Lanes) : (s.writeReg r v).cfg = s.cfg := rfl
@[simp] theorem writeReg_regs (s : State) (r : Reg) (v : Lanes) : (s.writeReg r v).regs = s.regs.set r.val v r.isLt := rfl
@[simp] theorem writeReg_status (s : State) (r : Reg) (v : Lanes) : (s.writeReg r v).status = s.status := rfl
@[simp] theorem writeReg_lmask (s : State) (r : Reg) (v : Lanes) : (s.writeReg r v).lmask = s.lmask := rfl
@[simp] theorem writeReg_fault (s : State) (r : Reg) (v : Lanes) : (s.writeReg r v).fault = s.fault := rfl
@[simp] theorem writeReg_payload (s : State) (r : Reg) (v : Lanes) : (s.writeReg r v).payload = s.payload := rfl
@[simp] theorem writeReg_host (s : State) (r : Reg) (v : Lanes) : (s.writeReg r v).host = s.host := rfl
@[simp] theorem writeReg_responses (s : State) (r : Reg) (v : Lanes) : (s.writeReg r v).responses = s.responses := rfl

/-! ### Lanes of integers -/

@[simp] theorem writeTriples_cfg (s : State) (r : Reg) (xs : List Triple) : (s.writeTriples r xs).cfg = s.cfg := rfl
@[simp] theorem writeTriples_regs (s : State) (r : Reg) (xs : List Triple) : (s.writeTriples r xs).regs = s.regs.set r.val (xs.map fun x => some x.limbs) r.isLt := rfl
@[simp] theorem writeTriples_status (s : State) (r : Reg) (xs : List Triple) : (s.writeTriples r xs).status = s.status := rfl
@[simp] theorem writeTriples_lmask (s : State) (r : Reg) (xs : List Triple) : (s.writeTriples r xs).lmask = s.lmask := rfl
@[simp] theorem writeTriples_fault (s : State) (r : Reg) (xs : List Triple) : (s.writeTriples r xs).fault = s.fault := rfl
@[simp] theorem writeTriples_payload (s : State) (r : Reg) (xs : List Triple) : (s.writeTriples r xs).payload = s.payload := rfl
@[simp] theorem writeTriples_host (s : State) (r : Reg) (xs : List Triple) : (s.writeTriples r xs).host = s.host := rfl
@[simp] theorem writeTriples_responses (s : State) (r : Reg) (xs : List Triple) : (s.writeTriples r xs).responses = s.responses := rfl

/-! ### A response -/

@[simp] theorem respond_cfg (s : State) (c : BitVec 8) (m : List Bool) (q : List Byte) : (s.respond c m q).cfg = s.cfg := rfl
@[simp] theorem respond_regs (s : State) (c : BitVec 8) (m : List Bool) (q : List Byte) : (s.respond c m q).regs = s.regs := rfl
@[simp] theorem respond_status (s : State) (c : BitVec 8) (m : List Bool) (q : List Byte) : (s.respond c m q).status = s.status := rfl
@[simp] theorem respond_lmask (s : State) (c : BitVec 8) (m : List Bool) (q : List Byte) : (s.respond c m q).lmask = s.lmask := rfl
@[simp] theorem respond_fault (s : State) (c : BitVec 8) (m : List Bool) (q : List Byte) : (s.respond c m q).fault = s.fault := rfl
@[simp] theorem respond_payload (s : State) (c : BitVec 8) (m : List Bool) (q : List Byte) : (s.respond c m q).payload = [] := rfl
@[simp] theorem respond_host (s : State) (c : BitVec 8) (m : List Bool) (q : List Byte) : (s.respond c m q).host = s.host := rfl
@[simp] theorem respond_responses (s : State) (c : BitVec 8) (m : List Bool) (q : List Byte) : (s.respond c m q).responses = s.responses ++ [⟨c, m, q⟩] := rfl

/-! ### The end of a command -/

@[simp] theorem finish_cfg (s : State) (c : Code) (m : List Bool) (q : List Byte) : (s.finish c m q).cfg = s.cfg := rfl
@[simp] theorem finish_regs (s : State) (c : Code) (m : List Bool) (q : List Byte) : (s.finish c m q).regs = s.regs := rfl
@[simp] theorem finish_status (s : State) (c : Code) (m : List Bool) (q : List Byte) : (s.finish c m q).status = c.byte := rfl
@[simp] theorem finish_lmask (s : State) (c : Code) (m : List Bool) (q : List Byte) : (s.finish c m q).lmask = m := rfl
@[simp] theorem finish_fault (s : State) (c : Code) (m : List Bool) (q : List Byte) : (s.finish c m q).fault = s.fault := rfl
@[simp] theorem finish_payload (s : State) (c : Code) (m : List Bool) (q : List Byte) : (s.finish c m q).payload = [] := rfl
@[simp] theorem finish_host (s : State) (c : Code) (m : List Bool) (q : List Byte) : (s.finish c m q).host = s.host := rfl
@[simp] theorem finish_responses (s : State) (c : Code) (m : List Bool) (q : List Byte) : (s.finish c m q).responses = s.responses ++ [⟨c.byte, m, q⟩] := rfl

/-! ### A recoverable error -/

@[simp] theorem fail_cfg (s : State) (c : Code) : (s.fail c).cfg = s.cfg := rfl
@[simp] theorem fail_regs (s : State) (c : Code) : (s.fail c).regs = s.regs := rfl
@[simp] theorem fail_status (s : State) (c : Code) : (s.fail c).status = c.byte := rfl
@[simp] theorem fail_lmask (s : State) (c : Code) : (s.fail c).lmask = s.zeroMask := rfl
@[simp] theorem fail_fault (s : State) (c : Code) : (s.fail c).fault = s.fault := rfl
@[simp] theorem fail_payload (s : State) (c : Code) : (s.fail c).payload = [] := rfl
@[simp] theorem fail_host (s : State) (c : Code) : (s.fail c).host = s.host := rfl
@[simp] theorem fail_responses (s : State) (c : Code) : (s.fail c).responses = s.responses ++ [⟨c.byte, s.zeroMask, []⟩] := rfl

/-! ### A fatal fault -/

@[simp] theorem raise_cfg (s : State) (c : Code) : (s.raise c).cfg = s.cfg := rfl
@[simp] theorem raise_regs (s : State) (c : Code) : (s.raise c).regs = s.regs := rfl
@[simp] theorem raise_status (s : State) (c : Code) : (s.raise c).status = c.byte := rfl
@[simp] theorem raise_lmask (s : State) (c : Code) : (s.raise c).lmask = s.zeroMask := rfl
@[simp] theorem raise_fault (s : State) (c : Code) : (s.raise c).fault = c.byte := rfl
@[simp] theorem raise_payload (s : State) (c : Code) : (s.raise c).payload = [] := rfl
@[simp] theorem raise_host (s : State) (c : Code) : (s.raise c).host = s.host := rfl
@[simp] theorem raise_responses (s : State) (c : Code) : (s.raise c).responses = s.responses ++ [⟨c.byte, s.zeroMask, []⟩] := rfl

/-! ### The answer in the fault state -/

@[simp] theorem refuseInFault_cfg (s : State) : (s.refuseInFault).cfg = s.cfg := rfl
@[simp] theorem refuseInFault_regs (s : State) : (s.refuseInFault).regs = s.regs := rfl
@[simp] theorem refuseInFault_status (s : State) : (s.refuseInFault).status = s.status := rfl
@[simp] theorem refuseInFault_lmask (s : State) : (s.refuseInFault).lmask = s.lmask := rfl
@[simp] theorem refuseInFault_fault (s : State) : (s.refuseInFault).fault = s.fault := rfl
@[simp] theorem refuseInFault_payload (s : State) : (s.refuseInFault).payload = [] := rfl
@[simp] theorem refuseInFault_host (s : State) : (s.refuseInFault).host = s.host := rfl
@[simp] theorem refuseInFault_responses (s : State) : (s.refuseInFault).responses = s.responses ++ [⟨s.fault, s.zeroMask, []⟩] := rfl

/-! ### A register destination -/

@[simp] theorem storeReg_cfg (s : State) (r : Reg) (xs : List Triple) : (s.storeReg r xs).cfg = s.cfg := rfl
@[simp] theorem storeReg_regs (s : State) (r : Reg) (xs : List Triple) : (s.storeReg r xs).regs = s.regs.set r.val (xs.map fun x => some x.limbs) r.isLt := rfl
@[simp] theorem storeReg_status (s : State) (r : Reg) (xs : List Triple) : (s.storeReg r xs).status = Code.ok.byte := rfl
@[simp] theorem storeReg_lmask (s : State) (r : Reg) (xs : List Triple) : (s.storeReg r xs).lmask = s.zeroMask := rfl
@[simp] theorem storeReg_fault (s : State) (r : Reg) (xs : List Triple) : (s.storeReg r xs).fault = s.fault := rfl
@[simp] theorem storeReg_payload (s : State) (r : Reg) (xs : List Triple) : (s.storeReg r xs).payload = [] := rfl
@[simp] theorem storeReg_host (s : State) (r : Reg) (xs : List Triple) : (s.storeReg r xs).host = s.host := rfl
@[simp] theorem storeReg_responses (s : State) (r : Reg) (xs : List Triple) : (s.storeReg r xs).responses = s.responses ++ [⟨Code.ok.byte, s.zeroMask, []⟩] := rfl

/-! ### A pair destination -/

@[simp] theorem storePair_cfg (s : State) (r : Reg) (xs : List (Triple × Triple)) : (s.storePair r xs).cfg = s.cfg := rfl
@[simp] theorem storePair_regs (s : State) (r : Reg) (xs : List (Triple × Triple)) : (s.storePair r xs).regs = (s.regs.set r.val ((xs.map Prod.fst).map fun x => some x.limbs) r.isLt).set (partner r).val
      ((xs.map Prod.snd).map fun x => some x.limbs) (partner r).isLt := rfl
@[simp] theorem storePair_status (s : State) (r : Reg) (xs : List (Triple × Triple)) : (s.storePair r xs).status = Code.ok.byte := rfl
@[simp] theorem storePair_lmask (s : State) (r : Reg) (xs : List (Triple × Triple)) : (s.storePair r xs).lmask = s.zeroMask := rfl
@[simp] theorem storePair_fault (s : State) (r : Reg) (xs : List (Triple × Triple)) : (s.storePair r xs).fault = s.fault := rfl
@[simp] theorem storePair_payload (s : State) (r : Reg) (xs : List (Triple × Triple)) : (s.storePair r xs).payload = [] := rfl
@[simp] theorem storePair_host (s : State) (r : Reg) (xs : List (Triple × Triple)) : (s.storePair r xs).host = s.host := rfl
@[simp] theorem storePair_responses (s : State) (r : Reg) (xs : List (Triple × Triple)) : (s.storePair r xs).responses = s.responses ++ [⟨Code.ok.byte, s.zeroMask, []⟩] := rfl

/-! ### A command is presented -/

@[simp] theorem present_cfg (s : State) (b : List Byte) (rest : List HostMove) : (s.present b rest).cfg = s.cfg := rfl
@[simp] theorem present_regs (s : State) (b : List Byte) (rest : List HostMove) : (s.present b rest).regs = s.regs := rfl
@[simp] theorem present_status (s : State) (b : List Byte) (rest : List HostMove) : (s.present b rest).status = s.status := rfl
@[simp] theorem present_lmask (s : State) (b : List Byte) (rest : List HostMove) : (s.present b rest).lmask = s.lmask := rfl
@[simp] theorem present_fault (s : State) (b : List Byte) (rest : List HostMove) : (s.present b rest).fault = s.fault := rfl
@[simp] theorem present_payload (s : State) (b : List Byte) (rest : List HostMove) : (s.present b rest).payload = b := rfl
@[simp] theorem present_host (s : State) (b : List Byte) (rest : List HostMove) : (s.present b rest).host = rest := rfl
@[simp] theorem present_responses (s : State) (b : List Byte) (rest : List HostMove) : (s.present b rest).responses = s.responses := rfl

/-! ### A word is issued -/

@[simp] theorem issueNext_cfg (s : State) (w : Word) : (s.issueNext w).cfg = s.cfg := rfl
@[simp] theorem issueNext_regs (s : State) (w : Word) : (s.issueNext w).regs = s.regs := rfl
@[simp] theorem issueNext_status (s : State) (w : Word) : (s.issueNext w).status = s.status := rfl
@[simp] theorem issueNext_lmask (s : State) (w : Word) : (s.issueNext w).lmask = s.lmask := rfl
@[simp] theorem issueNext_fault (s : State) (w : Word) : (s.issueNext w).fault = s.fault := rfl
@[simp] theorem issueNext_payload (s : State) (w : Word) : (s.issueNext w).payload = s.payload := rfl
@[simp] theorem issueNext_host (s : State) (w : Word) : (s.issueNext w).host = .command w (zeroPayload w s.cfg.lanes) :: s.host := rfl
@[simp] theorem issueNext_responses (s : State) (w : Word) : (s.issueNext w).responses = s.responses := rfl

/-! ### The reset state -/

@[simp] theorem resetWith_cfg (c : Config) : (State.resetWith c).cfg = c := rfl
@[simp] theorem resetWith_regs (c : Config) : (State.resetWith c).regs = Vector.replicate 16 (List.replicate c.lanes none) := rfl
@[simp] theorem resetWith_status (c : Config) : (State.resetWith c).status = (resetCode c).byte := rfl
@[simp] theorem resetWith_lmask (c : Config) : (State.resetWith c).lmask = List.replicate c.lanes false := rfl
@[simp] theorem resetWith_fault (c : Config) : (State.resetWith c).fault = (resetCode c).byte := rfl
@[simp] theorem resetWith_payload (c : Config) : (State.resetWith c).payload = [] := rfl
@[simp] theorem resetWith_host (c : Config) : (State.resetWith c).host = [] := rfl
@[simp] theorem resetWith_responses (c : Config) : (State.resetWith c).responses = [] := rfl

/-! ### The host asserts reset -/

@[simp] theorem assertReset_cfg (s : State) (rest : List HostMove) : (s.assertReset rest).cfg = s.cfg := rfl
@[simp] theorem assertReset_regs (s : State) (rest : List HostMove) : (s.assertReset rest).regs = Vector.replicate 16 (List.replicate s.cfg.lanes none) := rfl
@[simp] theorem assertReset_status (s : State) (rest : List HostMove) : (s.assertReset rest).status = (resetCode s.cfg).byte := rfl
@[simp] theorem assertReset_lmask (s : State) (rest : List HostMove) : (s.assertReset rest).lmask = List.replicate s.cfg.lanes false := rfl
@[simp] theorem assertReset_fault (s : State) (rest : List HostMove) : (s.assertReset rest).fault = (resetCode s.cfg).byte := rfl
@[simp] theorem assertReset_payload (s : State) (rest : List HostMove) : (s.assertReset rest).payload = [] := rfl
@[simp] theorem assertReset_host (s : State) (rest : List HostMove) : (s.assertReset rest).host = rest := rfl
@[simp] theorem assertReset_responses (s : State) (rest : List HostMove) : (s.assertReset rest).responses = s.responses := rfl

/-! ### Two writes of the register file are frames of everything that looks at no register -/

@[simp] theorem writeReg_zeroMask (s : State) (r : Reg) (v : Lanes) : (s.writeReg r v).zeroMask = s.zeroMask := rfl

@[simp] theorem present_zeroMask (s : State) (b : List Byte) (rest : List HostMove) :
    (s.present b rest).zeroMask = s.zeroMask := rfl

@[simp] theorem zeroMask_length (s : State) : s.zeroMask.length = s.cfg.lanes := by simp [State.zeroMask]

end Sys2Proof.Laws
end

