-- ==== Sys2Proof/Laws/Registers.lean ====
section
/-! SUPPORT. What a read of a lane answers after a write, and that storing a triple of 64-bit limbs loses nothing. -/

namespace Sys2Proof.Laws

open Sys2Proof.Machine

/-! ### Triples and stored limbs -/

/-- The limbs of a lane, as integers, stay below 2^64. -/
theorem nat_below (x : Limbs) : x.nat.x0 < 2 ^ 64 ∧ x.nat.x1 < 2 ^ 64 ∧ x.nat.x2 < 2 ^ 64 :=
  ⟨x.x0.isLt, x.x1.isLt, x.x2.isLt⟩

/-- Stored limbs read back as they were. -/
@[simp] theorem nat_limbs (x : Limbs) : x.nat.limbs = x := by
  cases x; simp [Limbs.nat, Triple.limbs]

/-- A triple of limbs below 2^64 is stored without loss. -/
theorem limbs_nat (x : Triple) (h0 : x.x0 < 2 ^ 64) (h1 : x.x1 < 2 ^ 64) (h2 : x.x2 < 2 ^ 64) : x.limbs.nat = x := by
  cases x; simp_all [Limbs.nat, Triple.limbs, Nat.mod_eq_of_lt]

/-- A register lane holds only triples of limbs below 2^64 (R21). -/
theorem triple_below (s : State) (r : Reg) (l : Nat) (x : Triple) (h : s.triple r l = some x) :
    x.x0 < 2 ^ 64 ∧ x.x1 < 2 ^ 64 ∧ x.x2 < 2 ^ 64 := by
  simp only [State.triple, Option.map_eq_some_iff] at h
  obtain ⟨y, -, rfl⟩ := h
  exact nat_below y

/-! ### Reading after a write -/

/-- Lane l of the register that was written. -/
@[simp] theorem lane_writeReg_same (s : State) (r : Reg) (v : Lanes) (l : Nat) : (s.writeReg r v).lane r l = v[l]?.join := by
  simp [State.lane]

/-- Lane l of any other register. -/
theorem lane_writeReg_other (s : State) (r r' : Reg) (v : Lanes) (l : Nat) (h : r' ≠ r) :
    (s.writeReg r v).lane r' l = s.lane r' l := by
  have h' : r.val ≠ r'.val := fun e => h (Fin.ext e.symm)
  simp [State.lane, h']

/-- A register that was not written reads as before. -/
theorem regs_writeReg_other (s : State) (r r' : Reg) (v : Lanes) (h : r' ≠ r) :
    (s.writeReg r v).regs[r'.val] = s.regs[r'.val] := by
  have h' : r.val ≠ r'.val := fun e => h (Fin.ext e.symm)
  simp [h']

/-- The register that was written. -/
theorem regs_writeReg_same (s : State) (r : Reg) (v : Lanes) : (s.writeReg r v).regs[r.val] = v := by simp

/-- Two states with the same register file read the same lanes. -/
theorem lane_congr (s t : State) (h : t.regs = s.regs) (r : Reg) (l : Nat) : t.lane r l = s.lane r l := by
  simp [State.lane, h]

@[simp] theorem finish_lane (s : State) (c : Code) (m : List Bool) (q : List Byte) (r : Reg) (l : Nat) :
    (s.finish c m q).lane r l = s.lane r l := rfl

@[simp] theorem present_lane (s : State) (b : List Byte) (rest : List HostMove) (r : Reg) (l : Nat) :
    (s.present b rest).lane r l = s.lane r l := rfl

@[simp] theorem fail_lane (s : State) (c : Code) (r : Reg) (l : Nat) : (s.fail c).lane r l = s.lane r l := rfl

@[simp] theorem raise_lane (s : State) (c : Code) (r : Reg) (l : Nat) : (s.raise c).lane r l = s.lane r l := rfl

@[simp] theorem refuseInFault_lane (s : State) (r : Reg) (l : Nat) : s.refuseInFault.lane r l = s.lane r l := rfl

/-- Lane l of a register that was written with the triples xs. -/
theorem lane_writeTriples_same (s : State) (r : Reg) (xs : List Triple) (l : Nat) :
    (s.writeTriples r xs).lane r l = xs[l]?.map Triple.limbs := by
  cases h : xs[l]? <;> simp [State.writeTriples, h]

/-- Lane l of any other register. -/
theorem lane_writeTriples_other (s : State) (r r' : Reg) (xs : List Triple) (l : Nat) (h : r' ≠ r) :
    (s.writeTriples r xs).lane r' l = s.lane r' l :=
  lane_writeReg_other s r r' _ l h

/-- The V lanes of a register as a list. -/
@[simp] theorem lanes_length (s : State) (r : Reg) : (s.lanes r).length = s.cfg.lanes := by simp [State.lanes]

/-- Lane l of that list. -/
theorem lanes_getElem (s : State) (r : Reg) (l : Nat) (h : l < s.cfg.lanes) : (s.lanes r)[l]? = some (s.lane r l) := by
  simp [State.lanes, h]

/-- The two registers of a pair are different. -/
theorem partner_ne (r : Reg) : partner r ≠ r := by revert r; decide

/-! ### The destination of a per-lane command -/

/-- As many lanes as results and old lanes. -/
@[simp] theorem keepFailing_length (rs : List (Option Triple)) (old : Lanes) :
    (keepFailing rs old).length = min rs.length old.length := by simp [keepFailing]

/-- A lane with a result is written with it; a failing lane is what it was (R129). -/
theorem keepFailing_getElem (rs : List (Option Triple)) (old : Lanes) (l : Nat) (r : Option Triple) (o : Option Limbs)
    (hr : rs[l]? = some r) (ho : old[l]? = some o) :
    (keepFailing rs old)[l]? = some ((r.map Triple.limbs).or o) := by
  simp [keepFailing, List.getElem?_zipWith, hr, ho]

end Sys2Proof.Laws
end

