-- ==== Sys2Proof/Laws/Skeleton.lean ====
section
/-! SUPPORT. For each step of the execution skeleton (R67), once, everything it can do; and what a source read answers. -/

namespace Sys2Proof.Laws

open Sys2Proof.Machine

/-! ### Reading all lanes of a source -/

/-- A list of options is all there exactly when it is a list of values. -/
theorem allSome_eq_some {α : Type} (l : List (Option α)) (xs : List α) : allSome l = some xs ↔ l = xs.map some := by
  induction l generalizing xs with
  | nil => cases xs <;> simp [allSome]
  | cons a t ih =>
    cases a with
    | none => cases xs <;> simp [allSome]
    | some a => cases xs <;> simp [allSome, ih, Option.map_eq_some_iff, and_comm]

/-- A list of options is not all there exactly when one is missing. -/
theorem allSome_eq_none {α : Type} (l : List (Option α)) : allSome l = none ↔ none ∈ l := by
  induction l with
  | nil => simp [allSome]
  | cons a t ih => cases a <;> simp [allSome, ih]

/-- A read that succeeds has one triple for each lane, lane l in place l. -/
theorem readReg_getElem (s : State) (r : Reg) (x : List Triple) (h : s.readReg r = some x) (l : Nat)
    (hl : l < s.cfg.lanes) : s.triple r l = x[l]? := by
  have h' := congrArg (fun z : List (Option Triple) => z[l]?) ((allSome_eq_some _ _).mp h)
  simp only [List.getElem?_map, List.getElem?_range hl, Option.map_some] at h'
  cases hx : x[l]? <;> simp_all

/-- A read that succeeds answers V triples. -/
theorem readReg_length (s : State) (r : Reg) (x : List Triple) (h : s.readReg r = some x) : x.length = s.cfg.lanes := by
  have h' := congrArg List.length ((allSome_eq_some _ _).mp h)
  simpa using h'.symm

/-- A register whose lanes hold the triples f l is read as their list. -/
theorem readReg_of_holds (s : State) (r : Reg) (f : Nat → Triple) (h : s.Holds r f) :
    s.readReg r = some ((List.range s.cfg.lanes).map f) := by
  refine (allSome_eq_some _ _).mpr ?_
  simp only [List.map_map]
  exact List.map_congr_left fun l hl => h l (List.mem_range.mp hl)

/-- A read fails exactly when one of the V lanes is unwritten (R24). -/
theorem readReg_eq_none (s : State) (r : Reg) : s.readReg r = none ↔ ∃ l, l < s.cfg.lanes ∧ s.lane r l = none := by
  simp [State.readReg, allSome_eq_none, State.triple]

/-- A written register is read. -/
theorem readReg_of_written (s : State) (r : Reg) (h : s.Written r) : ∃ x, s.readReg r = some x := by
  cases hx : s.readReg r with
  | some x => exact ⟨x, rfl⟩
  | none =>
    obtain ⟨l, hl, hn⟩ := (readReg_eq_none s r).mp hx
    exact absurd hn (h l hl)

/-! ### Everything each step can do -/

/-- Steps 1 and 2 of a command without payload. -/
theorem beginCommand_cases (s : State) (legal : Bool) (k : State) :
    (s.fault ≠ 0 ∧ s.beginCommand legal k = s.refuseInFault) ∨
    (s.fault = 0 ∧ (legal = false ∨ s.payload ≠ []) ∧ s.beginCommand legal k = s.fail .illegalCommand) ∨
    (s.fault = 0 ∧ legal = true ∧ s.payload = [] ∧ s.beginCommand legal k = k) := by
  unfold State.beginCommand
  by_cases hf : s.fault = 0
  · cases legal <;> cases hp : s.payload <;> simp [hf]
  · exact .inl ⟨hf, if_pos hf⟩

/-- Steps 1 to 3 of a command with a payload of n bytes. -/
theorem beginPayload_cases (s : State) (legal : Bool) (n : Nat) (k : List Byte → State) :
    (s.fault ≠ 0 ∧ s.beginPayload legal n k = s.refuseInFault) ∨
    (s.fault = 0 ∧ legal = false ∧ s.beginPayload legal n k = s.fail .illegalCommand) ∨
    (s.fault = 0 ∧ legal = true ∧ s.payload.length ≠ n ∧ s.beginPayload legal n k = s.fail .invalidEncoding) ∨
    (s.fault = 0 ∧ legal = true ∧ s.payload.length = n ∧ s.beginPayload legal n k = k s.payload) := by
  unfold State.beginPayload
  by_cases hf : s.fault = 0
  · cases legal <;> by_cases hn : s.payload.length = n <;> simp [hf, hn]
  · exact .inl ⟨hf, if_pos hf⟩

/-- Step 4 for one source register. -/
theorem source_cases (s : State) (r : Reg) (k : List Triple → State) :
    (s.readReg r = none ∧ s.source r k = s.raise .unwrittenRegister) ∨
    (∃ x, s.readReg r = some x ∧ s.source r k = k x) := by
  unfold State.source
  cases h : s.readReg r with
  | none => exact .inl ⟨rfl, rfl⟩
  | some x => exact .inr ⟨x, rfl, rfl⟩

/-- Step 4 for a source register that is written. -/
theorem source_of_holds (s : State) (r : Reg) (f : Nat → Triple) (h : s.Holds r f) (k : List Triple → State) :
    s.source r k = k ((List.range s.cfg.lanes).map f) := by
  simp [State.source, readReg_of_holds s r f h]

/-- Step 4 for a source pair. -/
theorem sourcePair_cases (s : State) (r : Reg) (k : List Fp2 → State) :
    ((s.readReg r = none ∨ s.readReg (partner r) = none) ∧ s.sourcePair r k = s.raise .unwrittenRegister) ∨
    (∃ c0 c1, s.readReg r = some c0 ∧ s.readReg (partner r) = some c1 ∧ s.sourcePair r k = k (c0.zip c1)) := by
  unfold State.sourcePair
  rcases source_cases s r fun c0 => s.source (partner r) fun c1 => k (c0.zip c1) with ⟨h, e⟩ | ⟨c0, h0, e⟩
  · exact .inl ⟨.inl h, e⟩
  · rcases source_cases s (partner r) fun c1 => k (c0.zip c1) with ⟨h, e'⟩ | ⟨c1, h1, e'⟩
    · exact .inl ⟨.inr h, e.trans e'⟩
    · exact .inr ⟨c0, c1, h0, h1, e.trans e'⟩

/-- Step 4 for a source pair that is written. -/
theorem sourcePair_of_holds (s : State) (r : Reg) (f g : Nat → Triple) (h : s.Holds r f) (h' : s.Holds (partner r) g)
    (k : List Fp2 → State) : s.sourcePair r k = k ((List.range s.cfg.lanes).map fun l => (f l, g l)) := by
  simp only [State.sourcePair, source_of_holds s r f h, source_of_holds s _ g h']
  rw [List.zip_map']

/-- Step 5. -/
theorem requireRange_cases (s : State) (b : Bool) (k : State) :
    (b = false ∧ s.requireRange b k = s.raise .rangeViolation) ∨ (b = true ∧ s.requireRange b k = k) := by
  cases b <;> simp [State.requireRange]

/-- Step 6 of DEC and FP2DEC. -/
theorem requireSlots_cases (s : State) (b : Bool) (k : State) :
    (b = false ∧ s.requireSlots b k = s.fail .invalidEncoding) ∨ (b = true ∧ s.requireSlots b k = k) := by
  cases b <;> simp [State.requireSlots]

/-! ### What the ways to end do -/

/-- The recoverable error sequence is what R209 says. -/
theorem fail_rejects (s : State) (c : Code) (h : s.fault = 0) : s.RejectedWith (s.fail c) c :=
  ⟨⟨rfl, rfl, rfl, fun _ _ => rfl⟩, h, rfl, rfl, rfl⟩

/-- The fatal fault sequence is what R210 says. -/
theorem raise_faults (s : State) (c : Code) : s.FaultedWith (s.raise c) c :=
  ⟨⟨rfl, rfl, rfl, fun _ _ => rfl⟩, rfl, rfl, rfl, rfl⟩

/-- A register destination: the frame, the answer, and lane l of the destination. -/
theorem storeReg_spec (s : State) (rd : Reg) (xs : List Triple) :
    s.Keeps (s.storeReg rd xs) [rd] ∧ s.Answered (s.storeReg rd xs) .ok s.zeroMask [] ∧
    ∀ l, (s.storeReg rd xs).lane rd l = xs[l]?.map Triple.limbs :=
  ⟨⟨rfl, rfl, rfl, fun r hr => regs_writeReg_other s rd r _ (by simpa using hr)⟩, ⟨rfl, rfl, rfl⟩,
    fun l => lane_writeTriples_same s rd xs l⟩

/-- A pair destination: the frame, the answer, and lane l of both registers of the pair. -/
theorem storePair_spec (s : State) (rd : Reg) (xs : List (Triple × Triple)) :
    s.Keeps (s.storePair rd xs) [rd, partner rd] ∧ s.Answered (s.storePair rd xs) .ok s.zeroMask [] ∧
    ∀ l, (s.storePair rd xs).lane rd l = xs[l]?.map (fun c => c.1.limbs) ∧
      (s.storePair rd xs).lane (partner rd) l = xs[l]?.map (fun c => c.2.limbs) := by
  refine ⟨⟨rfl, rfl, rfl, fun r hr => ?_⟩, ⟨rfl, rfl, rfl⟩, fun l => ⟨?_, ?_⟩⟩
  · have h1 : r ≠ rd := fun e => hr (by simp [e])
    have h2 : r ≠ partner rd := fun e => hr (by simp [e])
    exact (regs_writeReg_other _ _ _ _ h2).trans (regs_writeReg_other s _ _ _ h1)
  · refine (lane_writeTriples_other _ (partner rd) rd _ l (partner_ne rd).symm).trans ?_
    rw [lane_writeTriples_same, List.getElem?_map, Option.map_map]; rfl
  · refine (lane_writeTriples_same _ _ _ l).trans ?_
    rw [List.getElem?_map, Option.map_map]; rfl

end Sys2Proof.Laws
end

