-- ==== Sys2Proof/Laws/Exec.lean ====
section
/-! SUPPORT. Everything a command can do, said once for all commands (`exec_cases`): refused in the fault state,
rejected, faulted, or completed with writes to its destinations only. -/

namespace Sys2Proof.Laws

open Sys2Proof.Machine

/-- A state that a completed command may leave: the registers `regs` differ from those of s only in the destinations,
which then have V lanes and lose no written flag; the code is OK, or NotInvertible with a lane reported. -/
def Completes (s t : State) (dst : List Reg) : Prop :=
  ∃ (regs : Vector Lanes 16) (c : Code) (m : List Bool) (q : List Byte), t = State.finish { s with regs := regs } c m q ∧
    (c = .ok ∨ (c = .notInvertible ∧ true ∈ m)) ∧ m.length = s.cfg.lanes ∧
    (∀ r : Reg, r ∉ dst → regs[r.val] = s.regs[r.val]) ∧
    (∀ r : Reg, r ∈ dst → regs[r.val].length = s.cfg.lanes ∧
      ∀ l, l < s.cfg.lanes → s.lane r l ≠ none → regs[r.val][l]?.join ≠ none)

/-- The ways a command can end. -/
def Ends (s t : State) (dst : List Reg) : Prop :=
  (s.fault ≠ 0 ∧ t = s.refuseInFault) ∨
  (s.fault = 0 ∧ (t = s.fail .illegalCommand ∨ t = s.fail .invalidEncoding ∨ t = s.raise .unwrittenRegister ∨
    t = s.raise .rangeViolation ∨ Completes s t dst))

/-! ### The three ways to complete -/

/-- A command that only answers. -/
theorem finish_completes (s : State) (m : List Bool) (q : List Byte) (hm : m.length = s.cfg.lanes) :
    Completes s (s.finish .ok m q) [] :=
  ⟨s.regs, .ok, m, q, rfl, .inl rfl, hm, fun _ _ => rfl, fun _ h => absurd h List.not_mem_nil⟩

/-- A command that has written registers and nothing else, and then ends. -/
theorem written_completes (s u : State) (dst : List Reg) (c : Code) (m : List Bool) (q : List Byte)
    (hu : { s with regs := u.regs } = u) (hc : c = .ok ∨ (c = .notInvertible ∧ true ∈ m)) (hm : m.length = s.cfg.lanes)
    (hframe : ∀ r : Reg, r ∉ dst → u.regs[r.val] = s.regs[r.val])
    (hdst : ∀ r : Reg, r ∈ dst → u.regs[r.val].length = s.cfg.lanes ∧
      ∀ l, l < s.cfg.lanes → s.lane r l ≠ none → u.lane r l ≠ none) :
    Completes s (u.finish c m q) dst :=
  ⟨u.regs, c, m, q, by rw [hu], hc, hm, hframe, hdst⟩

/-- A command that stores a triple in every lane of a register. -/
theorem storeReg_completes (s : State) (rd : Reg) (xs : List Triple) (hx : xs.length = s.cfg.lanes) :
    Completes s (s.storeReg rd xs) [rd] := by
  refine written_completes s _ _ _ _ _ rfl (.inl rfl) (by simp) (fun r hr => ?_) (fun r hr => ?_)
  · exact regs_writeReg_other s rd r _ (by simpa using hr)
  · obtain rfl := List.mem_singleton.mp hr
    refine ⟨by simp [State.writeTriples, hx], fun l hl _ => ?_⟩
    rw [lane_writeTriples_same]; simp [hx ▸ hl]

/-- A command that stores two triples in every lane of a pair. -/
theorem storePair_completes (s : State) (rd : Reg) (xs : List (Triple × Triple)) (hx : xs.length = s.cfg.lanes) :
    Completes s (s.storePair rd xs) [rd, partner rd] := by
  refine written_completes s _ _ _ _ _ rfl (.inl rfl) (by simp) (fun r hr => ?_) (fun r hr => ?_)
  · have h1 : r ≠ rd := fun e => hr (by simp [e])
    have h2 : r ≠ partner rd := fun e => hr (by simp [e])
    exact (regs_writeReg_other _ _ _ _ h2).trans (regs_writeReg_other s _ _ _ h1)
  · rcases List.mem_pair.mp hr with rfl | rfl
    · refine ⟨?_, fun l hl _ => ?_⟩
      · rw [State.writeTriples, regs_writeReg_other _ _ _ _ (partner_ne r).symm, State.writeTriples, regs_writeReg_same]
        simp [hx]
      · rw [lane_writeTriples_other _ _ _ _ _ (partner_ne r).symm, lane_writeTriples_same]; simp [hx ▸ hl]
    · refine ⟨?_, fun l hl _ => ?_⟩
      · rw [State.writeTriples, regs_writeReg_same]; simp [hx]
      · rw [lane_writeTriples_same]; simp [hx ▸ hl]

/-- The mask of failing lanes has one bit for each result. -/
theorem failingLanes_length {α : Type} (rs : List (Option α)) : (failingLanes rs).length = rs.length := by
  simp [failingLanes]

/-- STATUS after INV and FP2INV is OK, or NotInvertible with a lane reported. -/
theorem inverseCode_cases (m : List Bool) : inverseCode m = .ok ∨ (inverseCode m = .notInvertible ∧ true ∈ m) := by
  unfold inverseCode
  by_cases h : m.any id = true
  · exact .inr ⟨if_pos h, by simpa using h⟩
  · exact .inl (if_neg h)

/-- A per-lane destination has V lanes and keeps every written flag (R129, R203). -/
theorem keepFailing_keeps_written (s : State) (r : Reg) (rs : List (Option Triple)) (hr : rs.length = s.cfg.lanes) :
    (keepFailing rs (s.lanes r)).length = s.cfg.lanes ∧
    ∀ l, l < s.cfg.lanes → s.lane r l ≠ none → (keepFailing rs (s.lanes r))[l]?.join ≠ none := by
  refine ⟨by simp [hr], fun l hl hw => ?_⟩
  rw [keepFailing_getElem rs _ l _ _ (List.getElem?_eq_getElem (hr ▸ hl)) (lanes_getElem s r l hl)]
  simp [hw]

/-! ### The skeleton ends as it should -/

theorem beginCommand_ends (s : State) (dst : List Reg) (legal : Bool) (k : State)
    (hk : s.fault = 0 → legal = true → s.payload = [] → Ends s k dst) : Ends s (s.beginCommand legal k) dst := by
  rcases beginCommand_cases s legal k with ⟨hf, e⟩ | ⟨hf, -, e⟩ | ⟨hf, hl, hp, e⟩ <;> rw [e]
  · exact .inl ⟨hf, rfl⟩
  · exact .inr ⟨hf, .inl rfl⟩
  · exact hk hf hl hp

theorem beginPayload_ends (s : State) (dst : List Reg) (legal : Bool) (n : Nat) (k : List Byte → State)
    (hk : s.fault = 0 → legal = true → s.payload.length = n → Ends s (k s.payload) dst) :
    Ends s (s.beginPayload legal n k) dst := by
  rcases beginPayload_cases s legal n k with ⟨hf, e⟩ | ⟨hf, -, e⟩ | ⟨hf, -, -, e⟩ | ⟨hf, hl, hn, e⟩ <;> rw [e]
  · exact .inl ⟨hf, rfl⟩
  · exact .inr ⟨hf, .inl rfl⟩
  · exact .inr ⟨hf, .inr (.inl rfl)⟩
  · exact hk hf hl hn

theorem source_ends (s : State) (dst : List Reg) (r : Reg) (k : List Triple → State) (hf : s.fault = 0)
    (hk : ∀ x, s.readReg r = some x → x.length = s.cfg.lanes → Ends s (k x) dst) : Ends s (s.source r k) dst := by
  rcases source_cases s r k with ⟨-, e⟩ | ⟨x, hx, e⟩ <;> rw [e]
  · exact .inr ⟨hf, .inr (.inr (.inl rfl))⟩
  · exact hk x hx (readReg_length s r x hx)

theorem sourcePair_ends (s : State) (dst : List Reg) (r : Reg) (k : List Fp2 → State) (hf : s.fault = 0)
    (hk : ∀ c, c.length = s.cfg.lanes → Ends s (k c) dst) : Ends s (s.sourcePair r k) dst :=
  source_ends s dst r _ hf fun c0 _ h0 => source_ends s dst _ _ hf fun c1 _ h1 => hk _ (by simp [h0, h1])

theorem requireRange_ends (s : State) (dst : List Reg) (b : Bool) (k : State) (hf : s.fault = 0)
    (hk : b = true → Ends s k dst) : Ends s (s.requireRange b k) dst := by
  rcases requireRange_cases s b k with ⟨-, e⟩ | ⟨hb, e⟩ <;> rw [e]
  · exact .inr ⟨hf, .inr (.inr (.inr (.inl rfl)))⟩
  · exact hk hb

theorem requireSlots_ends (s : State) (dst : List Reg) (b : Bool) (k : State) (hf : s.fault = 0)
    (hk : b = true → Ends s k dst) : Ends s (s.requireSlots b k) dst := by
  rcases requireSlots_cases s b k with ⟨-, e⟩ | ⟨hb, e⟩ <;> rw [e]
  · exact .inr ⟨hf, .inr (.inl rfl)⟩
  · exact hk hb

theorem completes_ends (s t : State) (dst : List Reg) (hf : s.fault = 0) (h : Completes s t dst) : Ends s t dst :=
  .inr ⟨hf, .inr (.inr (.inr (.inr h)))⟩

/-- As many slots as lanes (R44). -/
@[simp] theorem slots_length (size lanes : Nat) (bytes : List Byte) : (slots size lanes bytes).length = lanes := by
  induction lanes generalizing bytes with
  | zero => rfl
  | succ n ih => simp [slots, ih]

/-! ### Every command -/

theorem execNop_ends (s : State) : ∃ t, execNop s = .next t ∧ Ends s t [] :=
  ⟨_, rfl, beginCommand_ends _ _ _ _ fun hf _ _ => completes_ends _ _ _ hf (finish_completes s _ _ (by simp))⟩

theorem execZero_ends (rd : Reg) (s : State) : ∃ t, execZero rd s = .next t ∧ Ends s t [rd] :=
  ⟨_, rfl, beginCommand_ends _ _ _ _ fun hf _ _ =>
    completes_ends _ _ _ hf (storeReg_completes s rd _ (by simp [State.everyLane]))⟩

theorem execOne_ends (rd : Reg) (s : State) : ∃ t, execOne rd s = .next t ∧ Ends s t [rd] :=
  ⟨_, rfl, beginCommand_ends _ _ _ _ fun hf _ _ =>
    completes_ends _ _ _ hf (storeReg_completes s rd _ (by simp [State.everyLane]))⟩

theorem execLdi_ends (rd : Reg) (s : State) : ∃ t, execLdi rd s = .next t ∧ Ends s t [rd] :=
  ⟨_, rfl, beginPayload_ends _ _ _ _ _ fun hf _ _ =>
    completes_ends _ _ _ hf (storeReg_completes s rd _ (by simp [State.smallIntegers]))⟩

theorem execDec_ends (rd : Reg) (s : State) : ∃ t, execDec rd s = .next t ∧ Ends s t [rd] :=
  ⟨_, rfl, beginPayload_ends _ _ _ _ _ fun hf _ _ => requireSlots_ends _ _ _ _ hf fun _ =>
    completes_ends _ _ _ hf (storeReg_completes s rd _ (by simp [State.feSlots]))⟩

theorem execEnc_ends (ra : Reg) (s : State) : ∃ t, execEnc ra s = .next t ∧ Ends s t [] :=
  ⟨_, rfl, beginCommand_ends _ _ _ _ fun hf _ _ => source_ends _ _ _ _ hf fun _ _ _ =>
    completes_ends _ _ _ hf (finish_completes s _ _ (by simp))⟩

theorem execFp2dec_ends (rd : Reg) (s : State) : ∃ t, execFp2dec rd s = .next t ∧ Ends s t [rd, partner rd] :=
  ⟨_, rfl, beginPayload_ends _ _ _ _ _ fun hf _ _ => requireSlots_ends _ _ _ _ hf fun _ =>
    completes_ends _ _ _ hf (storePair_completes s rd _ (by simp [State.fp2Slots]))⟩

theorem execFp2enc_ends (ra : Reg) (s : State) : ∃ t, execFp2enc ra s = .next t ∧ Ends s t [] :=
  ⟨_, rfl, beginCommand_ends _ _ _ _ fun hf _ _ => sourcePair_ends _ _ _ _ hf fun _ _ =>
    completes_ends _ _ _ hf (finish_completes s _ _ (by simp))⟩

theorem execAdd_ends (rd ra rb : Reg) (s : State) : ∃ t, execAdd rd ra rb s = .next t ∧ Ends s t [rd] :=
  ⟨_, rfl, beginCommand_ends _ _ _ _ fun hf _ _ => source_ends _ _ _ _ hf fun x _ hx => source_ends _ _ _ _ hf fun y _ hy =>
    requireRange_ends _ _ _ _ hf fun _ => completes_ends _ _ _ hf (storeReg_completes s rd _ (by simp [hx, hy]))⟩

theorem execSub_ends (rd ra rb : Reg) (s : State) : ∃ t, execSub rd ra rb s = .next t ∧ Ends s t [rd] :=
  ⟨_, rfl, beginCommand_ends _ _ _ _ fun hf _ _ => source_ends _ _ _ _ hf fun x _ hx => source_ends _ _ _ _ hf fun y _ hy =>
    requireRange_ends _ _ _ _ hf fun _ => completes_ends _ _ _ hf (storeReg_completes s rd _ (by simp [hx, hy]))⟩

theorem execNeg_ends (rd ra : Reg) (s : State) : ∃ t, execNeg rd ra s = .next t ∧ Ends s t [rd] :=
  ⟨_, rfl, beginCommand_ends _ _ _ _ fun hf _ _ => source_ends _ _ _ _ hf fun x _ hx =>
    requireRange_ends _ _ _ _ hf fun _ => completes_ends _ _ _ hf (storeReg_completes s rd _ (by simp [hx]))⟩

theorem execWred_ends (rd ra : Reg) (s : State) : ∃ t, execWred rd ra s = .next t ∧ Ends s t [rd] :=
  ⟨_, rfl, beginCommand_ends _ _ _ _ fun hf _ _ => source_ends _ _ _ _ hf fun x _ hx =>
    completes_ends _ _ _ hf (storeReg_completes s rd _ (by simp [hx]))⟩

theorem execCanon_ends (rd ra : Reg) (s : State) : ∃ t, execCanon rd ra s = .next t ∧ Ends s t [rd] :=
  ⟨_, rfl, beginCommand_ends _ _ _ _ fun hf _ _ => source_ends _ _ _ _ hf fun x _ hx =>
    completes_ends _ _ _ hf (storeReg_completes s rd _ (by simp [hx]))⟩

theorem execIszero_ends (ra : Reg) (s : State) : ∃ t, execIszero ra s = .next t ∧ Ends s t [] :=
  ⟨_, rfl, beginCommand_ends _ _ _ _ fun hf _ _ => source_ends _ _ _ _ hf fun x _ hx =>
    completes_ends _ _ _ hf (finish_completes s _ _ (by simp [zeroLanes, hx]))⟩

theorem execEq_ends (ra rb : Reg) (s : State) : ∃ t, execEq ra rb s = .next t ∧ Ends s t [] :=
  ⟨_, rfl, beginCommand_ends _ _ _ _ fun hf _ _ => source_ends _ _ _ _ hf fun x _ hx => source_ends _ _ _ _ hf fun y _ hy =>
    completes_ends _ _ _ hf (finish_completes s _ _ (by simp [equalLanes, hx, hy]))⟩

theorem execMul_ends (rd ra rb : Reg) (s : State) : ∃ t, execMul rd ra rb s = .next t ∧ Ends s t [rd] :=
  ⟨_, rfl, beginCommand_ends _ _ _ _ fun hf _ _ => source_ends _ _ _ _ hf fun x _ hx => source_ends _ _ _ _ hf fun y _ hy =>
    requireRange_ends _ _ _ _ hf fun _ => completes_ends _ _ _ hf (storeReg_completes s rd _ (by simp [hx, hy]))⟩

theorem execSqr_ends (rd ra : Reg) (s : State) : ∃ t, execSqr rd ra s = .next t ∧ Ends s t [rd] :=
  ⟨_, rfl, beginCommand_ends _ _ _ _ fun hf _ _ => source_ends _ _ _ _ hf fun x _ hx =>
    requireRange_ends _ _ _ _ hf fun _ => completes_ends _ _ _ hf (storeReg_completes s rd _ (by simp [hx]))⟩

theorem execInv_ends (rd ra : Reg) (s : State) : ∃ t, execInv rd ra s = .next t ∧ Ends s t [rd] := by
  refine ⟨_, rfl, beginCommand_ends _ _ _ _ fun hf _ _ => source_ends _ _ _ _ hf fun x _ hx => completes_ends _ _ _ hf ?_⟩
  refine written_completes s _ _ _ _ _ rfl (inverseCode_cases _) (by simp [failingLanes_length, hx]) (fun r hr => ?_)
    (fun r hr => ?_)
  · exact regs_writeReg_other s rd r _ (by simpa using hr)
  · obtain rfl := List.mem_singleton.mp hr
    rw [regs_writeReg_same]
    simp only [lane_writeReg_same]
    exact keepFailing_keeps_written s r _ (by simp [hx])

theorem execFp2add_ends (rd ra rb : Reg) (s : State) : ∃ t, execFp2add rd ra rb s = .next t ∧ Ends s t [rd, partner rd] :=
  ⟨_, rfl, beginCommand_ends _ _ _ _ fun hf _ _ => sourcePair_ends _ _ _ _ hf fun x hx => sourcePair_ends _ _ _ _ hf fun y hy =>
    requireRange_ends _ _ _ _ hf fun _ => completes_ends _ _ _ hf (storePair_completes s rd _ (by simp [hx, hy]))⟩

theorem execFp2sub_ends (rd ra rb : Reg) (s : State) : ∃ t, execFp2sub rd ra rb s = .next t ∧ Ends s t [rd, partner rd] :=
  ⟨_, rfl, beginCommand_ends _ _ _ _ fun hf _ _ => sourcePair_ends _ _ _ _ hf fun x hx => sourcePair_ends _ _ _ _ hf fun y hy =>
    requireRange_ends _ _ _ _ hf fun _ => completes_ends _ _ _ hf (storePair_completes s rd _ (by simp [hx, hy]))⟩

theorem execFp2mul_ends (rd ra rb : Reg) (s : State) : ∃ t, execFp2mul rd ra rb s = .next t ∧ Ends s t [rd, partner rd] :=
  ⟨_, rfl, beginCommand_ends _ _ _ _ fun hf _ _ => sourcePair_ends _ _ _ _ hf fun x hx => sourcePair_ends _ _ _ _ hf fun y hy =>
    requireRange_ends _ _ _ _ hf fun _ => completes_ends _ _ _ hf (storePair_completes s rd _ (by simp [hx, hy]))⟩

theorem execFp2sqr_ends (rd ra : Reg) (s : State) : ∃ t, execFp2sqr rd ra s = .next t ∧ Ends s t [rd, partner rd] :=
  ⟨_, rfl, beginCommand_ends _ _ _ _ fun hf _ _ => sourcePair_ends _ _ _ _ hf fun x hx =>
    requireRange_ends _ _ _ _ hf fun _ => completes_ends _ _ _ hf (storePair_completes s rd _ (by simp [hx]))⟩

theorem execFp2inv_ends (rd ra : Reg) (s : State) : ∃ t, execFp2inv rd ra s = .next t ∧ Ends s t [rd, partner rd] := by
  refine ⟨_, rfl, beginCommand_ends _ _ _ _ fun hf _ _ => sourcePair_ends _ _ _ _ hf fun x hx => completes_ends _ _ _ hf ?_⟩
  refine written_completes s _ _ _ _ _ rfl (inverseCode_cases _) (by simp [failingLanes_length, hx]) (fun r hr => ?_)
    (fun r hr => ?_)
  · have h1 : r ≠ rd := fun e => hr (by simp [e])
    have h2 : r ≠ partner rd := fun e => hr (by simp [e])
    exact (regs_writeReg_other _ _ _ _ h2).trans (regs_writeReg_other s _ _ _ h1)
  · rcases List.mem_pair.mp hr with rfl | rfl
    · rw [regs_writeReg_other _ _ _ _ (partner_ne r).symm, regs_writeReg_same]
      simp only [lane_writeReg_other _ _ _ _ _ (partner_ne r).symm, lane_writeReg_same]
      exact keepFailing_keeps_written s r _ (by simp [hx])
    · rw [regs_writeReg_same]
      simp only [lane_writeReg_same]
      exact keepFailing_keeps_written s _ _ (by simp [hx])

/-- What any command can do: it always answers a next state, and that state is one of the ways a command can end. -/
theorem exec_cases (i : Instr) (s : State) : ∃ t, exec i s = .next t ∧ Ends s t i.destinations := by
  cases i with
  | nop => exact execNop_ends s
  | zero rd => exact execZero_ends rd s
  | one rd => exact execOne_ends rd s
  | ldi rd => exact execLdi_ends rd s
  | dec rd => exact execDec_ends rd s
  | enc ra => exact execEnc_ends ra s
  | add rd ra rb => exact execAdd_ends rd ra rb s
  | sub rd ra rb => exact execSub_ends rd ra rb s
  | neg rd ra => exact execNeg_ends rd ra s
  | wred rd ra => exact execWred_ends rd ra s
  | canon rd ra => exact execCanon_ends rd ra s
  | mul rd ra rb => exact execMul_ends rd ra rb s
  | sqr rd ra => exact execSqr_ends rd ra s
  | inv rd ra => exact execInv_ends rd ra s
  | iszero ra => exact execIszero_ends ra s
  | eq ra rb => exact execEq_ends ra rb s
  | fp2dec rd => exact execFp2dec_ends rd s
  | fp2enc ra => exact execFp2enc_ends ra s
  | fp2add rd ra rb => exact execFp2add_ends rd ra rb s
  | fp2sub rd ra rb => exact execFp2sub_ends rd ra rb s
  | fp2mul rd ra rb => exact execFp2mul_ends rd ra rb s
  | fp2sqr rd ra => exact execFp2sqr_ends rd ra s
  | fp2inv rd ra => exact execFp2inv_ends rd ra s

end Sys2Proof.Laws
end

