-- ==== Sys2Proof/Laws/PerInstr.lean ====
section
/-! SUPPORT. Statements made for each command as syntax. The family EncodeFields: what the encoded word of a command
holds in the opcode field and in the bits that must be 0 (R56, R60). -/

namespace Sys2Proof.Laws

/-- The opcode of R60. -/
def opcodeOf : Instr → Nat
  | .nop => 0x00
  | .zero _ => 0x10
  | .one _ => 0x11
  | .ldi _ => 0x12
  | .dec _ => 0x13
  | .enc _ => 0x14
  | .add _ _ _ => 0x15
  | .sub _ _ _ => 0x16
  | .neg _ _ => 0x17
  | .wred _ _ => 0x18
  | .canon _ _ => 0x19
  | .mul _ _ _ => 0x1A
  | .sqr _ _ => 0x1B
  | .inv _ _ => 0x1C
  | .iszero _ => 0x1D
  | .eq _ _ => 0x1E
  | .fp2dec _ => 0x23
  | .fp2enc _ => 0x24
  | .fp2add _ _ _ => 0x25
  | .fp2sub _ _ _ => 0x26
  | .fp2mul _ _ _ => 0x2A
  | .fp2sqr _ _ => 0x2B
  | .fp2inv _ _ => 0x2C

/-- The encoded word of the command has its opcode in bits 31:24 and zeros in bits 11:0. -/
def EncodeFields.Statement (i : Instr) : Prop := opField (encode i) = opcodeOf i ∧ zeroField (encode i) = 0

theorem EncodeFields.of_fields (op : Nat) (h : op < 256) (rd ra rb : Reg) :
    opField (encodeFields op rd ra rb) = op ∧ zeroField (encodeFields op rd ra rb) = 0 :=
  ⟨opField_encodeFields op h rd ra rb, zeroField_encodeFields op h rd ra rb⟩

theorem EncodeFields.nop : EncodeFields.Statement (.nop) := EncodeFields.of_fields 0x00 (by decide) 0 0 0
theorem EncodeFields.zero (rd : Reg) : EncodeFields.Statement (.zero rd) := EncodeFields.of_fields 0x10 (by decide) rd 0 0
theorem EncodeFields.one (rd : Reg) : EncodeFields.Statement (.one rd) := EncodeFields.of_fields 0x11 (by decide) rd 0 0
theorem EncodeFields.ldi (rd : Reg) : EncodeFields.Statement (.ldi rd) := EncodeFields.of_fields 0x12 (by decide) rd 0 0
theorem EncodeFields.dec (rd : Reg) : EncodeFields.Statement (.dec rd) := EncodeFields.of_fields 0x13 (by decide) rd 0 0
theorem EncodeFields.enc (ra : Reg) : EncodeFields.Statement (.enc ra) := EncodeFields.of_fields 0x14 (by decide) 0 ra 0
theorem EncodeFields.add (rd ra rb : Reg) : EncodeFields.Statement (.add rd ra rb) := EncodeFields.of_fields 0x15 (by decide) rd ra rb
theorem EncodeFields.sub (rd ra rb : Reg) : EncodeFields.Statement (.sub rd ra rb) := EncodeFields.of_fields 0x16 (by decide) rd ra rb
theorem EncodeFields.neg (rd ra : Reg) : EncodeFields.Statement (.neg rd ra) := EncodeFields.of_fields 0x17 (by decide) rd ra 0
theorem EncodeFields.wred (rd ra : Reg) : EncodeFields.Statement (.wred rd ra) := EncodeFields.of_fields 0x18 (by decide) rd ra 0
theorem EncodeFields.canon (rd ra : Reg) : EncodeFields.Statement (.canon rd ra) := EncodeFields.of_fields 0x19 (by decide) rd ra 0
theorem EncodeFields.mul (rd ra rb : Reg) : EncodeFields.Statement (.mul rd ra rb) := EncodeFields.of_fields 0x1A (by decide) rd ra rb
theorem EncodeFields.sqr (rd ra : Reg) : EncodeFields.Statement (.sqr rd ra) := EncodeFields.of_fields 0x1B (by decide) rd ra 0
theorem EncodeFields.inv (rd ra : Reg) : EncodeFields.Statement (.inv rd ra) := EncodeFields.of_fields 0x1C (by decide) rd ra 0
theorem EncodeFields.iszero (ra : Reg) : EncodeFields.Statement (.iszero ra) := EncodeFields.of_fields 0x1D (by decide) 0 ra 0
theorem EncodeFields.eq (ra rb : Reg) : EncodeFields.Statement (.eq ra rb) := EncodeFields.of_fields 0x1E (by decide) 0 ra rb
theorem EncodeFields.fp2dec (rd : Reg) : EncodeFields.Statement (.fp2dec rd) := EncodeFields.of_fields 0x23 (by decide) rd 0 0
theorem EncodeFields.fp2enc (ra : Reg) : EncodeFields.Statement (.fp2enc ra) := EncodeFields.of_fields 0x24 (by decide) 0 ra 0
theorem EncodeFields.fp2add (rd ra rb : Reg) : EncodeFields.Statement (.fp2add rd ra rb) := EncodeFields.of_fields 0x25 (by decide) rd ra rb
theorem EncodeFields.fp2sub (rd ra rb : Reg) : EncodeFields.Statement (.fp2sub rd ra rb) := EncodeFields.of_fields 0x26 (by decide) rd ra rb
theorem EncodeFields.fp2mul (rd ra rb : Reg) : EncodeFields.Statement (.fp2mul rd ra rb) := EncodeFields.of_fields 0x2A (by decide) rd ra rb
theorem EncodeFields.fp2sqr (rd ra : Reg) : EncodeFields.Statement (.fp2sqr rd ra) := EncodeFields.of_fields 0x2B (by decide) rd ra 0
theorem EncodeFields.fp2inv (rd ra : Reg) : EncodeFields.Statement (.fp2inv rd ra) := EncodeFields.of_fields 0x2C (by decide) rd ra 0

end Sys2Proof.Laws
end

