-- ==== Sys2Proof/Laws/Prime.lean ====
section
/-! SUPPORT. p is prime (R2), by the Lucas-Lehmer test; −1 is a non-residue mod p, so that the spec's first
configuration is admissible. -/

namespace Sys2Proof.Laws

open Sys2Proof.Machine

/-- "It is prime." (R2) -/
theorem modulus_prime : Nat.Prime modulus := by
  have h : (mersenne 127).Prime := lucas_lehmer_sufficiency 127 (by norm_num) (by norm_num)
  exact h

/-- −1 is no square mod p, because p leaves 3 when divided by 4. -/
theorem minus_one_nonresidue (n : Nat) : n * n % modulus ≠ 2 ^ 127 - 2 := by
  intro h
  have := Fact.mk modulus_prime
  have e : (n : ZMod modulus) * n = -1 := by
    have h1 : ((n * n % modulus : Nat) : ZMod modulus) = ((2 ^ 127 - 2 : Nat) : ZMod modulus) := by rw [h]
    have h2 : ((2 ^ 127 - 2 + 1 : Nat) : ZMod modulus) = 0 := by
      rw [show (2 ^ 127 - 2 + 1 : Nat) = modulus by rw [modulus]; norm_num]; exact ZMod.natCast_self _
    rw [ZMod.natCast_mod, Nat.cast_mul] at h1
    rw [h1]; rw [Nat.cast_add, Nat.cast_one] at h2
    exact eq_neg_of_add_eq_zero_left h2
  exact ZMod.exists_sq_eq_neg_one_iff.mp ⟨(n : ZMod modulus), e.symm⟩ (by norm_num [modulus])

end Sys2Proof.Laws
end

