-- ==== Sys2Proof/Laws/Ranges.lean ====
section
/-! SUPPORT. The range conditions limb by limb, in numerals; conditions, results and masks over all V lanes; and the
shared ending of the commands that store one triple in every lane. -/

namespace Sys2Proof.Laws

open Sys2Proof.Machine

/-! ### Conditions on one lane, in numerals -/

/-- Every limb of one triple is at most the limb of the other. -/
theorem limbsLe_iff (x y : Triple) : limbsLe x y = true ↔ x.x0 ≤ y.x0 ∧ x.x1 ≤ y.x1 ∧ x.x2 ≤ y.x2 := by
  simp [limbsLe, and_assoc]

/-- Every limb is below the bound. -/
theorem below_iff (x : Triple) (n : Nat) : x.below n = true ↔ x.x0 < n ∧ x.x1 < n ∧ x.x2 < n := by
  simp [Triple.below, and_assoc]

/-- R100, in numerals. -/
theorem addInRange_iff (x y : Triple) : addInRange x y = true ↔
    x.x0 + y.x0 ≤ 2 ^ 64 - 1 ∧ x.x1 + y.x1 ≤ 2 ^ 64 - 1 ∧ x.x2 + y.x2 ≤ 2 ^ 64 - 1 :=
  limbsLe_iff _ _

/-- R101, in numerals. -/
theorem subInRange_iff (x y : Triple) : subInRange x y = true ↔
    (y.x0 ≤ 2 ^ 52 - 2 ^ 11 ∧ y.x1 ≤ 2 ^ 52 - 2 ^ 9 ∧ y.x2 ≤ 2 ^ 52 - 2 ^ 9) ∧
    x.x0 + (2 ^ 52 - 2 ^ 11) - y.x0 ≤ 2 ^ 64 - 1 ∧ x.x1 + (2 ^ 52 - 2 ^ 9) - y.x1 ≤ 2 ^ 64 - 1 ∧
    x.x2 + (2 ^ 52 - 2 ^ 9) - y.x2 ≤ 2 ^ 64 - 1 := by
  rw [subInRange, Bool.and_eq_true, limbsLe_iff, limbsLe_iff]; rfl

/-- R102, in numerals. -/
theorem negInRange_iff (x : Triple) : negInRange x = true ↔
    x.x0 ≤ 2 ^ 52 - 2 ^ 11 ∧ x.x1 ≤ 2 ^ 52 - 2 ^ 9 ∧ x.x2 ≤ 2 ^ 52 - 2 ^ 9 :=
  limbsLe_iff _ _

/-- R127, in numerals. -/
theorem mulInRange_iff (x : Triple) : mulInRange x = true ↔
    x.x0 ≤ 2 ^ 51 - 1 ∧ x.x1 ≤ 2 ^ 51 - 1 ∧ x.x2 ≤ 2 ^ 51 - 1 :=
  limbsLe_iff _ _

/-- R166, in numerals. -/
theorem fp2MulInRange_iff (c : Fp2) : fp2MulInRange c = true ↔
    c.1.x0 + c.2.x0 ≤ 2 ^ 51 - 1 ∧ c.1.x1 + c.2.x1 ≤ 2 ^ 51 - 1 ∧ c.1.x2 + c.2.x2 ≤ 2 ^ 51 - 1 :=
  limbsLe_iff _ _

/-! ### All lanes -/

/-- A condition on all lanes of one operand. -/
theorem everyLaneHolds_range {α : Type} (p : α → Bool) (f : Nat → α) (n : Nat) :
    everyLaneHolds p ((List.range n).map f) = true ↔ ∀ l, l < n → p (f l) = true := by
  simp [everyLaneHolds]

/-- A condition on all lanes of two operands. -/
theorem everyLaneHolds2_range {α β : Type} (p : α → β → Bool) (f : Nat → α) (g : Nat → β) (n : Nat) :
    everyLaneHolds2 p ((List.range n).map f) ((List.range n).map g) = true ↔ ∀ l, l < n → p (f l) (g l) = true := by
  simp [everyLaneHolds2, List.zip_map']

/-- A lane-by-lane result of two operands. -/
theorem zipWith_range {α β γ : Type} (F : α → β → γ) (f : Nat → α) (g : Nat → β) (n : Nat) :
    List.zipWith F ((List.range n).map f) ((List.range n).map g) = (List.range n).map fun l => F (f l) (g l) := by
  simp [List.zipWith_map, List.zipWith_self]

/-! ### Ready states, and the shared endings -/

/-- A running engine with no payload goes on to step 4. -/
theorem beginCommand_ready (s : State) (h : s.Ready []) (k : State) : s.beginCommand true k = k := by
  simp [State.beginCommand, h.1, h.2]

/-- A running engine with a payload of the required length goes on to step 4. -/
theorem beginPayload_ready (s : State) (hf : s.fault = 0) (n : Nat) (hn : s.payload.length = n) (k : List Byte → State) :
    s.beginPayload true n k = k s.payload := by
  simp [State.beginPayload, hf, hn]

/-- Lane l of the destination holds the triple that was stored for it, when its limbs fit 64 bits. -/
theorem storeReg_holds (s : State) (rd : Reg) (f : Nat → Triple)
    (h : ∀ l, l < s.cfg.lanes → (f l).x0 < 2 ^ 64 ∧ (f l).x1 < 2 ^ 64 ∧ (f l).x2 < 2 ^ 64) :
    (s.storeReg rd ((List.range s.cfg.lanes).map f)).Holds rd f := by
  intro l hl
  obtain ⟨h0, h1, h2⟩ := h l hl
  have hl' : l < s.cfg.lanes := hl
  simp only [State.triple, (storeReg_spec s rd _).2.2, List.getElem?_map, List.getElem?_range hl', Option.map_some,
    limbs_nat _ h0 h1 h2]

/-- Both registers of the destination pair hold what was stored for them, when the limbs fit 64 bits. -/
theorem storePair_holds (s : State) (rd : Reg) (f : Nat → Fp2)
    (h : ∀ l, l < s.cfg.lanes → ((f l).1.x0 < 2 ^ 64 ∧ (f l).1.x1 < 2 ^ 64 ∧ (f l).1.x2 < 2 ^ 64) ∧
      ((f l).2.x0 < 2 ^ 64 ∧ (f l).2.x1 < 2 ^ 64 ∧ (f l).2.x2 < 2 ^ 64)) :
    (s.storePair rd ((List.range s.cfg.lanes).map f)).Holds rd (fun l => (f l).1) ∧
    (s.storePair rd ((List.range s.cfg.lanes).map f)).Holds (partner rd) (fun l => (f l).2) := by
  constructor <;> intro l hl <;> obtain ⟨⟨h0, h1, h2⟩, h3, h4, h5⟩ := h l hl <;> have hl' : l < s.cfg.lanes := hl
  · simp only [State.triple, ((storePair_spec s rd _).2.2 l).1, List.getElem?_map, List.getElem?_range hl', Option.map_some,
      limbs_nat _ h0 h1 h2]
  · simp only [State.triple, ((storePair_spec s rd _).2.2 l).2, List.getElem?_map, List.getElem?_range hl', Option.map_some,
      limbs_nat _ h3 h4 h5]

/-- A command that stores one register completes with the frame and the answer of step 7. -/
theorem storeReg_completedWith (s : State) (hf : s.fault = 0) (rd : Reg) (xs : List Triple) :
    s.CompletedWith (s.storeReg rd xs) [rd] .ok s.zeroMask [] :=
  ⟨(storeReg_spec s rd xs).1, hf, (storeReg_spec s rd xs).2.1⟩

/-- A command that stores a pair completes with the frame and the answer of step 7. -/
theorem storePair_completedWith (s : State) (hf : s.fault = 0) (rd : Reg) (xs : List Fp2) :
    s.CompletedWith (s.storePair rd xs) [rd, partner rd] .ok s.zeroMask [] :=
  ⟨(storePair_spec s rd xs).1, hf, (storePair_spec s rd xs).2.1⟩

/-! ### Slots of a payload (R44) -/

/-- Slot l is bytes [size·l, size·(l+1)) of the payload. -/
theorem slots_eq (size lanes : Nat) (bytes : List Byte) :
    slots size lanes bytes = (List.range lanes).map fun l => (bytes.drop (size * l)).take size := by
  induction lanes generalizing bytes with
  | zero => rfl
  | succ n ih =>
    rw [slots, ih, List.range_succ_eq_map, List.map_cons, List.map_map]
    simp only [Nat.mul_zero, List.drop_zero, List.cons.injEq, true_and]
    refine List.map_congr_left fun l _ => ?_
    simp [List.drop_drop, Nat.mul_succ, Nat.add_comm]

end Sys2Proof.Laws
end

