-- ==== Sys2Proof/Laws/Step.lean ====
section
/-! SUPPORT. Everything a step can do, by the host's next move. -/

namespace Sys2Proof.Laws

open Sys2Proof.Machine

/-- The host has stopped. -/
theorem step_idle (s : State) (h : s.host = []) : step s = .next s := by simp [step, State.fetch, h]

/-- The host asserts reset. -/
theorem step_reset (s : State) (rest : List HostMove) (h : s.host = .reset :: rest) :
    step s = .next (s.assertReset rest) := by simp [step, State.fetch, h]

/-- The host issues a command: the step ends in one of the ways a command can end, from the state in which it is
presented; where the word decodes, only the command's destinations may change. -/
theorem step_command_ends (s : State) (w : Word) (bytes : List Byte) (rest : List HostMove)
    (h : s.host = .command w bytes :: rest) :
    ∃ t dst, step s = .next t ∧ Ends (s.present bytes rest) t dst ∧ ∀ i, decodeWord w = .ok i → dst = i.destinations := by
  cases hd : decodeWord w with
  | ok i =>
    obtain ⟨t, ht, he⟩ := exec_cases i (s.present bytes rest)
    refine ⟨t, i.destinations, by simpa [step, State.fetch, h, hd] using ht, he, fun j hj => ?_⟩
    cases hj; rfl
  | error e =>
    refine ⟨(s.present bytes rest).rejectIllegal, [], by simp [step, State.fetch, h, hd], ?_, fun j hj => by cases hj⟩
    exact beginCommand_ends _ _ false _ fun _ hl _ => by cases hl

end Sys2Proof.Laws
end

