-- ==== Sys2Proof/Machine/Asm.lean ====
section
/-! DEFINITION. The assembler text of R64 and the pseudo-instructions of R65, which "the engine never sees": pure
functions beside the machine. -/

namespace Sys2Proof.Machine

/-! ## Assembler text (R64) -/

/-- A register as "f0 to f15". -/
def regName (r : Reg) : String :=
  ["f0", "f1", "f2", "f3", "f4", "f5", "f6", "f7", "f8", "f9", "f10", "f11", "f12", "f13", "f14", "f15"].getD r.val ""

/-- One hex digit, lower case. -/
def hexDigit (n : Nat) : Char :=
  ['0', '1', '2', '3', '4', '5', '6', '7', '8', '9', 'a', 'b', 'c', 'd', 'e', 'f'].getD n '0'

/-- "the bytes in transmission order in hex", two digits a byte. -/
def hexBytes (bytes : List Byte) : String :=
  String.ofList (bytes.flatMap fun b => [hexDigit (b.toNat / 16), hexDigit (b.toNat % 16)])

/-- "mnemonic operands in lower case, registers as f0 to f15, destination first". -/
def instrAsm : Instr → String
  | .nop => "nop"
  | .zero rd => "zero " ++ regName rd
  | .one rd => "one " ++ regName rd
  | .ldi rd => "ldi " ++ regName rd
  | .dec rd => "dec " ++ regName rd
  | .enc ra => "enc " ++ regName ra
  | .add rd ra rb => "add " ++ regName rd ++ ", " ++ regName ra ++ ", " ++ regName rb
  | .sub rd ra rb => "sub " ++ regName rd ++ ", " ++ regName ra ++ ", " ++ regName rb
  | .neg rd ra => "neg " ++ regName rd ++ ", " ++ regName ra
  | .wred rd ra => "wred " ++ regName rd ++ ", " ++ regName ra
  | .canon rd ra => "canon " ++ regName rd ++ ", " ++ regName ra
  | .mul rd ra rb => "mul " ++ regName rd ++ ", " ++ regName ra ++ ", " ++ regName rb
  | .sqr rd ra => "sqr " ++ regName rd ++ ", " ++ regName ra
  | .inv rd ra => "inv " ++ regName rd ++ ", " ++ regName ra
  | .iszero ra => "iszero " ++ regName ra
  | .eq ra rb => "eq " ++ regName ra ++ ", " ++ regName rb
  | .fp2dec rd => "fp2dec " ++ regName rd
  | .fp2enc ra => "fp2enc " ++ regName ra
  | .fp2add rd ra rb => "fp2add " ++ regName rd ++ ", " ++ regName ra ++ ", " ++ regName rb
  | .fp2sub rd ra rb => "fp2sub " ++ regName rd ++ ", " ++ regName ra ++ ", " ++ regName rb
  | .fp2mul rd ra rb => "fp2mul " ++ regName rd ++ ", " ++ regName ra ++ ", " ++ regName rb
  | .fp2sqr rd ra => "fp2sqr " ++ regName rd ++ ", " ++ regName ra
  | .fp2inv rd ra => "fp2inv " ++ regName rd ++ ", " ++ regName ra

/-- The whole command: an input payload is "written after the registers as # followed by the bytes". -/
def commandAsm (i : Instr) (bytes : List Byte) : String :=
  if i.slotBytes = 0 then instrAsm i else instrAsm i ++ ", #" ++ hexBytes bytes

/-! ## Pseudo-instructions (R65) -/

/-- The three pseudo-instructions, for r and s even. -/
inductive Pseudo where
  | fp2neg (r s : Reg)
  | fp2wred (r s : Reg)
  | fp2canon (r s : Reg)
deriving DecidableEq, Repr

/-- "pure expansions": the base-field command on both registers of the pair. -/
def Pseudo.expand : Pseudo → List Instr
  | .fp2neg r s => [.neg r s, .neg (partner r) (partner s)]
  | .fp2wred r s => [.wred r s, .wred (partner r) (partner s)]
  | .fp2canon r s => [.canon r s, .canon (partner r) (partner s)]

/-- The lane mask of an Fp2 isZero or equals, composed by the host from the masks of the two components (R65, R169). -/
def pairMask (first second : List Bool) : List Bool := List.zipWith (fun a b => a && b) first second

end Sys2Proof.Machine
end

