-- ==== Sys2Proof/Tests/Slice0.lean ====
section
/-! SUPPORT. The model's own tests. Every expected value is the spec's: 95_test_vectors.md and the worked cases of
R221, named at each test. After them, one witness for the hypotheses of each statement that has any. -/

namespace Sys2Proof.Tests

open Sys2Proof.Machine

/-! ## Helpers -/

/-- The engine after reset with this V and ETA, in which these registers hold these lanes. -/
def engine (lanes eta : Nat) (held : List (Reg × List Triple)) : State :=
  held.foldl (fun s p => s.writeTriples p.1 p.2) (State.resetWith { Config.standard with lanes := lanes, eta := eta })

/-- The engine with one lane and ETA = p − 1. -/
def engine1 (held : List (Reg × Triple)) : State := engine 1 (2 ^ 127 - 2) (held.map fun p => (p.1, [p.2]))

/-- The engine with the input payload of the command to come. -/
def withPayload (s : State) (bytes : List Byte) : State := { s with payload := bytes }

/-- One thing read from the state that an outcome leaves. -/
def seen {α : Type} (o : Result) (f : State → α) : Option α :=
  match o with
  | .next s => some (f s)
  | .fault _ => none
  | .refused _ => none

/-- Lane l of register r, then STATUS, LMASK and FAULT. -/
def laneAndFlags (r : Reg) (l : Nat) (s : State) : Option Triple × BitVec 8 × List Bool × BitVec 8 :=
  (s.triple r l, s.status, s.lmask, s.fault)

/-- The last response. -/
def lastResponse (s : State) : Option Response := s.responses.getLast?

/-- digits(p − 1). -/
def minusOne : Triple := ⟨0x7fffffffffe, 0x7ffffffffff, 0x1ffffffffff⟩

/-- The triple c0 of 95_test_vectors.md F3 to F8, also vector M7's x. -/
def vecC0 : Triple := ⟨0x56789abcdef, 0x579bde02468, 0x48d159e26⟩
/-- The triple c1 there. -/
def vecC1 : Triple := ⟨0x3a987654321, 0x4a86421fdb9, 0x3fb72ea61d⟩
/-- The triple d0 there. -/
def vecD0 : Triple := ⟨0x22222222222, 0x22222224444, 0x444444444⟩
/-- The triple d1 there. -/
def vecD1 : Triple := ⟨0x7fffffffff0, 0x7ffffffffff, 0x1ffffffffff⟩

/-- The engine with c in the pair F0 and d in the pair F2. -/
def engineFp2 (eta : Nat) : State := engine 1 eta [(0, [vecC0]), (1, [vecC1]), (2, [vecD0]), (3, [vecD1])]

/-! ## WellFormed refuses every odd register of an Fp2 command (R59) -/

theorem test_wf_fp2dec_odd : (Instr.fp2dec 1).wellFormed = false := by decide
theorem test_wf_fp2enc_odd : (Instr.fp2enc 15).wellFormed = false := by decide
theorem test_wf_fp2add_odd : (Instr.fp2add 3 0 2).wellFormed = false ∧ (Instr.fp2add 2 1 2).wellFormed = false ∧
    (Instr.fp2add 2 0 5).wellFormed = false := by decide
theorem test_wf_fp2sub_odd : (Instr.fp2sub 3 0 2).wellFormed = false ∧ (Instr.fp2sub 2 1 2).wellFormed = false ∧
    (Instr.fp2sub 2 0 5).wellFormed = false := by decide
theorem test_wf_fp2mul_odd : (Instr.fp2mul 3 0 2).wellFormed = false ∧ (Instr.fp2mul 2 1 2).wellFormed = false ∧
    (Instr.fp2mul 2 0 5).wellFormed = false := by decide
theorem test_wf_fp2sqr_odd : (Instr.fp2sqr 3 0).wellFormed = false ∧ (Instr.fp2sqr 2 1).wellFormed = false := by decide
theorem test_wf_fp2inv_odd : (Instr.fp2inv 3 0).wellFormed = false ∧ (Instr.fp2inv 2 1).wellFormed = false := by decide

/-! ## Decoding: one word for each command, written out from R56 and R60; the words marked P are those of
95_test_vectors.md section 8 and R221 -/

theorem test_decode_nop : decodeWord 0b00000000000000000000000000000000#32 = .ok .nop := by decide
theorem test_decode_zero : decodeWord 0b00010000001000000000000000000000#32 = .ok (.zero 2) := by decide -- P 0x10200000
theorem test_decode_one : decodeWord 0b00010001010000000000000000000000#32 = .ok (.one 4) := by decide -- P 0x11400000
theorem test_decode_ldi : decodeWord 0b00010010000100000000000000000000#32 = .ok (.ldi 1) := by decide -- P 0x12100000
theorem test_decode_dec : decodeWord 0b00010011000100000000000000000000#32 = .ok (.dec 1) := by decide -- P 0x13100000
theorem test_decode_enc : decodeWord 0b00010100000000110000000000000000#32 = .ok (.enc 3) := by decide -- P 0x14030000
theorem test_decode_add : decodeWord 0b00010101010100110010000000000000#32 = .ok (.add 5 3 2) := by decide -- P 0x15532000
theorem test_decode_sub : decodeWord 0b00010110111110100110000000000000#32 = .ok (.sub 15 10 6) := by decide
theorem test_decode_neg : decodeWord 0b00010111001100010000000000000000#32 = .ok (.neg 3 1) := by decide -- P 0x17310000
theorem test_decode_wred : decodeWord 0b00011000001101010000000000000000#32 = .ok (.wred 3 5) := by decide
theorem test_decode_canon : decodeWord 0b00011001010000110000000000000000#32 = .ok (.canon 4 3) := by decide -- P 0x19430000
theorem test_decode_mul : decodeWord 0b00011010001100010010000000000000#32 = .ok (.mul 3 1 2) := by decide -- P 0x1A312000
theorem test_decode_sqr : decodeWord 0b00011011001000010000000000000000#32 = .ok (.sqr 2 1) := by decide -- P 0x1B210000
theorem test_decode_inv : decodeWord 0b00011100001000010000000000000000#32 = .ok (.inv 2 1) := by decide -- P 0x1C210000
theorem test_decode_iszero : decodeWord 0b00011101000001010000000000000000#32 = .ok (.iszero 5) := by decide -- P 0x1D050000
theorem test_decode_eq : decodeWord 0b00011110000000110100000000000000#32 = .ok (.eq 3 4) := by decide -- P 0x1E034000
theorem test_decode_fp2dec : decodeWord 0b00100011111000000000000000000000#32 = .ok (.fp2dec 14) := by decide
theorem test_decode_fp2enc : decodeWord 0b00100100000001000000000000000000#32 = .ok (.fp2enc 4) := by decide -- P 0x24040000
theorem test_decode_fp2add : decodeWord 0b00100101011001000010000000000000#32 = .ok (.fp2add 6 4 2) := by decide
theorem test_decode_fp2sub : decodeWord 0b00100110100001100100000000000000#32 = .ok (.fp2sub 8 6 4) := by decide
theorem test_decode_fp2mul : decodeWord 0b00101010100001100000000000000000#32 = .ok (.fp2mul 8 6 0) := by decide -- P 0x2A860000
theorem test_decode_fp2sqr : decodeWord 0b00101011110010100000000000000000#32 = .ok (.fp2sqr 12 10) := by decide
theorem test_decode_fp2inv : decodeWord 0b00101100011000000000000000000000#32 = .ok (.fp2inv 6 0) := by decide -- P 0x2C600000

/-- X1 to X4 of 95_test_vectors.md section 7. -/
theorem test_decode_illegal : decodeWord 0x1F000000#32 = .error .reservedOpcode ∧ decodeWord 0x15111001#32 = .error .reservedBits ∧
    decodeWord 0x10210000#32 = .error .unusedField ∧ decodeWord 0x2A412000#32 = .error .oddPair := by decide

/-- R53: byte 0 is w[7:0], byte 3 is the opcode. -/
theorem test_decode_bytes : decodeBytes [0x00, 0x20, 0x31, 0x1A] = .ok (.mul 3 1 2) ∧
    decodeBytes [0x00, 0x20, 0x31] = .error .wrongLength := by decide

theorem test_decodeTableWord : decodeTableWord 32 0x1A312000 = some (.mul 3 1 2) ∧ decodeTableWord 32 0x1F000000 = none := by
  decide

/-! ## The pure functions on the vectors of 95_test_vectors.md -/

/-- K4, K5, K7. -/
theorem test_mac : macLo 0xfffffffffffff 0xfffffffffffff = 1 ∧ macHi 0xfffffffffffff 0xfffffffffffff = 0xffffffffffffe ∧
    macHi 0x7ffffffffffff 0x7ffffffffffff = 0x3ffffffffffff ∧
    macEmulated 0x123456789abcd 0xfedcba9876543 = (0x51d9657ead7a7, 0x121fa00ad77d6) ∧
    macLo 0x123456789abcd 0xfedcba9876543 = 0x51d9657ead7a7 := by decide

/-- W5, pass 1: one pass is not enough. -/
theorem test_pass43 : pass43 ⟨0x7ffffffffff, 0x7ffffffffff, 0xfffffffffff⟩ = ⟨0x80000000003, 0x7ffffffffff, 0x7ffffffffff⟩ := by
  decide

/-- M7, the accumulators. -/
theorem test_mulZ : mulZ vecC0 ⟨0x29876543210, 0x286421fdb97, 0x1fb72ea61d9⟩ =
    ⟨0x56a44adc582f38, 0x46b7da36ed3651, 0xd631ac166e04f⟩ := by decide

/-! ## One step of each command -/

/-- R183, and R221 case 4: NOP with a payload is illegal. -/
theorem test_nop : seen (exec .nop (engine1 [])) lastResponse = some (some ⟨0, [false], []⟩) ∧
    seen (exec .nop (withPayload (engine1 []) [0])) lastResponse = some (some ⟨5, [false], []⟩) := by decide

theorem test_zero : seen (exec (.zero 2) (engine1 [])) (laneAndFlags 2 0) = some (some ⟨0, 0, 0⟩, 0, [false], 0) := by decide

theorem test_one : seen (exec (.one 2) (engine1 [])) (laneAndFlags 2 0) = some (some ⟨1, 0, 0⟩, 0, [false], 0) := by decide

/-- L6. -/
theorem test_ldi : seen (exec (.ldi 1) (withPayload (engine1 []) [0xef, 0xcd, 0xab, 0x89, 0x67, 0x45, 0x23, 0x01]))
    (laneAndFlags 1 0) = some (some ⟨0x56789abcdef, 0x2468, 0⟩, 0, [false], 0) := by decide

/-- L7: a payload of one byte. -/
theorem test_ldi_length : seen (exec (.ldi 1) (withPayload (engine1 []) [0])) (laneAndFlags 1 0) =
    some (none, 1, [false], 0) := by decide

/-- D5. -/
theorem test_dec : seen (exec (.dec 1) (withPayload (engine1 [])
    [0xef, 0xcd, 0xab, 0x89, 0x67, 0x45, 0x23, 0x01, 0xef, 0xcd, 0xab, 0x89, 0x67, 0x45, 0x23, 0x01])) (laneAndFlags 1 0) =
    some (some vecC0, 0, [false], 0) := by decide

/-- D10: with V = 2 a bad slot in lane 1 leaves lane 0 unwritten too. -/
theorem test_dec_all_or_nothing : seen (exec (.dec 1) (withPayload (engine 2 3 [])
    ([2] ++ List.replicate 15 0 ++ List.replicate 15 0xff ++ [0x7f]))) (laneAndFlags 1 0) =
    some (none, 1, [false, false], 0) := by decide +kernel

/-- E3. -/
theorem test_enc : seen (exec (.enc 3) (engine1 [(3, ⟨2 ^ 64 - 1, 2 ^ 64 - 1, 2 ^ 64 - 1⟩)])) lastResponse = some (some
    ⟨0, [false], [0xff, 0xff, 0x7f, 0, 0, 0xf8, 0xff, 0xff, 0, 0, 0xc0, 0xff, 0xff, 0x07, 0, 0]⟩) := by decide +kernel

/-- A2: the largest sum that fits. -/
theorem test_add : seen (exec (.add 3 1 2) (engine1 [(1, ⟨2 ^ 64 - 2, 0, 0⟩), (2, ⟨1, 0, 0⟩)])) (laneAndFlags 3 0) =
    some (some ⟨2 ^ 64 - 1, 0, 0⟩, 0, [false], 0) := by decide +kernel

/-- A3: one more is a RangeViolation, and nothing is written. -/
theorem test_add_range : seen (exec (.add 3 1 2) (engine1 [(1, ⟨2 ^ 64 - 1, 0, 0⟩), (2, ⟨1, 0, 0⟩)])) (laneAndFlags 3 0) =
    some (none, 3, [false], 3) := by decide +kernel

/-- N5. -/
theorem test_sub : seen (exec (.sub 3 1 2) (engine1 [(1, ⟨5, 0, 0⟩), (2, ⟨7, 0, 0⟩)])) (laneAndFlags 3 0) =
    some (some ⟨0xffffffffff7fe, 0xffffffffffe00, 0xffffffffffe00⟩, 0, [false], 0) := by decide +kernel

/-- N9: limb 0 would be 2^64. -/
theorem test_sub_range : seen (exec (.sub 3 1 2) (engine1 [(1, ⟨0xfff0000000000800, 0, 0⟩), (2, ⟨0, 0, 0⟩)]))
    (laneAndFlags 3 0) = some (none, 3, [false], 3) := by decide +kernel

/-- N1. -/
theorem test_neg : seen (exec (.neg 3 1) (engine1 [(1, ⟨1, 0, 0⟩)])) (laneAndFlags 3 0) =
    some (some ⟨0xffffffffff7ff, 0xffffffffffe00, 0xffffffffffe00⟩, 0, [false], 0) := by decide +kernel

/-- N4: limb 0 exceeds the bias by one. -/
theorem test_neg_range : seen (exec (.neg 3 1) (engine1 [(1, ⟨0xffffffffff801, 0, 0⟩)])) (laneAndFlags 3 0) =
    some (none, 3, [false], 3) := by decide +kernel

/-- W6. -/
theorem test_wred : seen (exec (.wred 3 1) (engine1 [(1, ⟨2 ^ 64 - 1, 2 ^ 64 - 1, 2 ^ 64 - 1⟩)])) (laneAndFlags 3 0) =
    some (some ⟨0x7fffff, 0x1fffff, 0x1fffff⟩, 0, [false], 0) := by decide +kernel

/-- W5, in place. -/
theorem test_wred_in_place : seen (exec (.wred 1 1) (engine1 [(1, ⟨0x7ffffffffff, 0x7ffffffffff, 0xfffffffffff⟩)]))
    (laneAndFlags 1 0) = some (some ⟨7, 0, 0⟩, 0, [false], 0) := by decide +kernel

/-- W13. -/
theorem test_canon : seen (exec (.canon 4 3) (engine1 [(3, ⟨0x7fffffffffc, 0x7ffffffffff, 0x3ffffffffff⟩)])) (laneAndFlags 4 0) =
    some (some ⟨0x7fffffffffd, 0x7ffffffffff, 0x1ffffffffff⟩, 0, [false], 0) := by decide +kernel

/-- M7. -/
theorem test_mul : seen (exec (.mul 3 1 2) (engine1 [(1, vecC0), (2, ⟨0x29876543210, 0x286421fdb97, 0x1fb72ea61d9⟩)]))
    (laneAndFlags 3 0) = some (some ⟨0x44adc5835e8, 0x7da36ed4125, 0x31ac166e925⟩, 0, [false], 0) := by decide +kernel

/-- M10: a limb of exactly 2^51. -/
theorem test_mul_range : seen (exec (.mul 3 1 2) (engine1 [(1, ⟨2 ^ 51, 0, 0⟩), (2, ⟨1, 0, 0⟩)])) (laneAndFlags 3 0) =
    some (none, 3, [false], 3) := by decide +kernel

/-- M5: the largest legal operand. -/
theorem test_sqr : seen (exec (.sqr 3 1) (engine1 [(1, ⟨2 ^ 51 - 1, 2 ^ 51 - 1, 2 ^ 51 - 1⟩)])) (laneAndFlags 3 0) =
    some (some ⟨0x17e809, 0xbee06, 0x8f403⟩, 0, [false], 0) := by decide +kernel

/-- I5. -/
theorem test_inv : seen (exec (.inv 2 1) (engine1 [(1, vecC0)])) (laneAndFlags 2 0) =
    some (some ⟨0xd9fddb99b9, 0x3bb6e95dd66, 0x156d1fa6ff7⟩, 0, [false], 0) := by decide +kernel

/-- P5a: V = 2, lane 1 holds zero: lane 0 is written, lane 1 stays unwritten and is reported. -/
theorem test_inv_per_lane : seen (exec (.inv 2 1) (engine 2 3 [(1, [⟨2, 0, 0⟩, ⟨0, 0, 0⟩])]))
    (fun t => (laneAndFlags 2 0 t, t.triple 2 1)) =
    some ((some ⟨0, 0, 0x10000000000⟩, 2, [false, true], 0), none) := by decide +kernel

/-- Z4: value 2p. -/
theorem test_iszero : seen (exec (.iszero 5) (engine1 [(5, ⟨0x7fffffffffe, 0x7ffffffffff, 0x3ffffffffff⟩)])) lastResponse =
    some (some ⟨0, [true], []⟩) := by decide +kernel

/-- Z9: V = 2, mask 0b01. -/
theorem test_eq : seen (exec (.eq 1 2) (engine 2 3 [(1, [⟨0, 0, 0x20000000000⟩, ⟨0, 0, 0⟩]), (2, [⟨1, 0, 0⟩, ⟨1, 0, 0⟩])]))
    lastResponse = some (some ⟨0, [true, false], []⟩) := by decide +kernel

/-- R189 on the slots of D2 and D3: c0 = p − 1, c1 = 2^86. -/
theorem test_fp2dec : seen (exec (.fp2dec 4) (withPayload (engine1 [])
    ([0xfe] ++ List.replicate 14 0xff ++ [0x7f] ++ List.replicate 10 0 ++ [0x40] ++ List.replicate 5 0)))
    (fun t => (t.triple 4 0, t.triple 5 0)) = some (some minusOne, some ⟨0, 0, 1⟩) := by decide +kernel

/-- F1: the limbs of (1 + u)(1 − u) with ETA = p − 1 encode as 2 and 0. -/
theorem test_fp2enc : seen (exec (.fp2enc 4) (engine1 [(4, ⟨0x7ffffffffff, 0x7ffffffffff, 0x5ffffffffff⟩),
    (5, ⟨0x7fffffffffc, 0x7ffffffffff, 0x7ffffffffff⟩)])) lastResponse =
    some (some ⟨0, [false], [2] ++ List.replicate 31 0⟩) := by decide +kernel

/-- F3. -/
theorem test_fp2add : seen (exec (.fp2add 4 0 2) (engineFp2 3)) (fun t => (t.triple 4 0, t.triple 5 0)) =
    some (some ⟨0x789abcdf011, 0x79be00268ac, 0x8d159e26a⟩, some ⟨0xba987654311, 0xca86421fdb8, 0x23fb72ea61c⟩) := by
  decide +kernel

/-- F4. -/
theorem test_fp2sub : seen (exec (.fp2sub 4 0 2) (engineFp2 3)) (fun t => (t.triple 4 0, t.triple 5 0)) =
    some (some ⟨0x1003456789a3cd, 0x1003579bbdde24, 0x10000048d157e2⟩,
      some ⟨0xffba987653b31, 0xffca86421fbba, 0xffe3fb72ea41e⟩) := by decide +kernel

/-- F5 with ETA = 3, the destination pair being a source pair. -/
theorem test_fp2mul : seen (exec (.fp2mul 0 0 2) (engineFp2 3)) (fun t => (t.triple 0 0, t.triple 1 0)) =
    some (some ⟨0x7e71edf27f2, 0x5ce168c6226, 0x34c4004dac1⟩, some ⟨0xc5d25651d2, 0x58986f7a266, 0x53408cc7f20⟩) := by
  decide +kernel

/-- P4, the wrong way: a component from NEG without WRED. -/
theorem test_fp2mul_range : seen (exec (.fp2mul 4 0 2) (engine1 [(0, ⟨1, 0, 0⟩), (1, ⟨1, 0, 0⟩), (2, ⟨1, 0, 0⟩),
    (3, ⟨0xffffffffff7ff, 0xffffffffffe00, 0xffffffffffe00⟩)])) (laneAndFlags 4 0) = some (none, 3, [false], 3) := by
  decide +kernel

/-- F6 with ETA = p − 1. -/
theorem test_fp2sqr : seen (exec (.fp2sqr 4 0) (engineFp2 (2 ^ 127 - 2))) (fun t => (t.triple 4 0, t.triple 5 0)) =
    some (some ⟨0x36c3d9779e7, 0x3c096c56c64, 0x2726274a8ff⟩, some ⟨0x6364cc0807a, 0x4aa7e99acb1, 0x223e9cf90e9⟩) := by
  decide +kernel

/-- F7 with ETA = 3. -/
theorem test_fp2inv : seen (exec (.fp2inv 4 0) (engineFp2 3)) (fun t => (t.triple 4 0, t.triple 5 0)) =
    some (some ⟨0x547ce403430, 0x3d33867bc51, 0x109d4caa1f8⟩, some ⟨0x328dc5bf72b, 0x7aaad9f2275, 0x1f1a01383b1⟩) := by
  decide +kernel

/-- F8: both components ≡ 0. -/
theorem test_fp2inv_zero : seen (exec (.fp2inv 4 0) (engine1 [(0, ⟨0, 0, 0⟩), (1, bias)])) (laneAndFlags 4 0) =
    some (none, 2, [true], 0) := by decide +kernel

/-! ## The step, reset and the fault state -/

/-- X7: ENC of a register nothing has written raises UnwrittenRegister, as the first command after reset. -/
theorem test_step_unwritten : seen (step (State.reset.withFetchWord 32 0x14010000)) (laneAndFlags 1 0) =
    some (none, 6, [false], 6) := by decide +kernel

/-- X8: ZERO in the fault state is answered with the fault code and writes nothing. -/
theorem test_step_fault_state : seen (step ({ State.reset with fault := 6, status := 6 }.withFetchWord 32 0x10100000))
    (fun t => (laneAndFlags 1 0 t, lastResponse t)) = some ((none, 6, [false], 6), some ⟨6, [false], []⟩) := by decide +kernel

/-- X4: an odd pair wins over an unwritten source (R212). -/
theorem test_step_illegal_first : seen (step (State.reset.withFetchWord 32 0x2A412000)) (laneAndFlags 4 0) =
    some (none, 5, [false], 0) := by decide +kernel

/-- X12: native, not available, policy fail. -/
theorem test_reset_backend_unavailable :
    (State.resetWith { Config.standard with available := false, policy := .fail }).fault = 4 ∧
    (State.resetWith { Config.standard with available := false, policy := .fallback }).fault = 0 := by decide

/-- The word of a table row is run as the first command after reset, with a payload of zeros of its length. -/
theorem test_withFetchWord : seen (step (State.reset.withFetchWord 32 0x13100000)) (laneAndFlags 1 0) =
    some (some ⟨0, 0, 0⟩, 0, [false], 0) := by decide +kernel

/-! ## Assembler text (R64, R65) -/

theorem test_asm : instrAsm (.add 3 1 2) = "add f3, f1, f2" ∧ instrAsm (.iszero 5) = "iszero f5" ∧
    commandAsm (.ldi 1) [2, 0, 0, 0, 0, 0, 0, 0] = "ldi f1, #0200000000000000" := by decide +kernel

theorem test_pseudo : (Pseudo.fp2neg 4 6).expand = [.neg 4 6, .neg 5 7] := by decide

/-! ## Witnesses: for each statement with hypotheses, concrete states and operands that meet them together, at the
boundary of each clause -/

/-- The host's next moves. -/
def withHost (s : State) (moves : List HostMove) : State := { s with host := moves }

/-- Two lanes: F0 the largest MUL operand and 1, F1 zero and the largest, F2 zero, F3 zero; ETA = 3. -/
def engine2 : State := engine 2 3 [(0, [⟨2 ^ 51 - 1, 2 ^ 51 - 1, 2 ^ 51 - 1⟩, ⟨1, 0, 0⟩]),
  (1, [⟨0, 0, 0⟩, ⟨2 ^ 51 - 2, 2 ^ 51 - 1, 2 ^ 51 - 1⟩]), (2, [⟨0, 0, 0⟩, ⟨0, 0, 0⟩]), (3, [⟨0, 0, 0⟩, ⟨0, 0, 0⟩])]

/-- What F0 of `engine2` holds. -/
def held0 (l : Nat) : Triple := if l = 0 then ⟨2 ^ 51 - 1, 2 ^ 51 - 1, 2 ^ 51 - 1⟩ else ⟨1, 0, 0⟩
/-- What F1 of `engine2` holds. -/
def held1 (l : Nat) : Triple := if l = 0 then ⟨0, 0, 0⟩ else ⟨2 ^ 51 - 2, 2 ^ 51 - 1, 2 ^ 51 - 1⟩
/-- What F2 and F3 of `engine2` hold. -/
def held2 (_ : Nat) : Triple := ⟨0, 0, 0⟩

/-- F0, F1 and F2 of `engine2` as the statements ask for them. -/
theorem engine2_holds : engine2.Ready [] ∧ engine2.Holds 0 held0 ∧ engine2.Holds (partner 0) held1 ∧
    engine2.Holds 2 held2 ∧ engine2.Holds (partner 2) held2 := by decide +kernel

/-- The sixteen bytes of p − 1, the largest valid slot. -/
def slotMax : List Byte := [0xfe] ++ List.replicate 14 0xff ++ [0x7f]
/-- The sixteen bytes of p, the smallest invalid slot. -/
def slotP : List Byte := List.replicate 15 0xff ++ [0x7f]

theorem witness_DecodeAfterEncode : (Instr.fp2mul 14 0 2).wellFormed = true ∧ (Instr.mul 15 15 0).wellFormed = true := by decide

theorem witness_EncodeAfterDecode : decodeWord 0x1AFF0000#32 = .ok (.mul 15 15 0) := by decide

theorem witness_LegalWords : (⟨"NOP", 0xFFFFFFFF#32, 0x00000000#32⟩ : OpcodeRow) ∈ opcodeTable ∧
    OpcodeRow.covers ⟨"NOP", 0xFFFFFFFF#32, 0x00000000#32⟩ 0 = true ∧ decodeWord 0 = .ok .nop := by decide

theorem witness_StepRuns : (withHost State.reset [.command 0x10F00000#32 [7], .reset]).host =
    .command 0x10F00000#32 [7] :: [.reset] ∧ decodeWord 0x10F00000#32 = .ok (.zero 15) := by decide

theorem witness_EveryCommandIsOneStep : (withHost State.reset [.command 0xFFFFFFFF#32 []]).host = [.command 0xFFFFFFFF#32 []] ∧
    (withHost State.reset [.reset]).host = [.reset] ∧ State.reset.host = [] := by decide

/-- One word for each of R61 (a) to (d) (X1 to X4), and NOP with one byte of payload for (e). -/
theorem witness_IllegalCommand : (withHost State.reset [.command 0x1F000000#32 []]).fault = 0 ∧
    IllegalWord 0x1F000000#32 ∧ IllegalWord 0x15111001#32 ∧ IllegalWord 0x10210000#32 ∧ IllegalWord 0x2A412000#32 ∧
    decodeWord 0 = .ok .nop ∧ Instr.nop.slotBytes = 0 ∧ ([0] : List Byte) ≠ [] := by
  unfold IllegalWord
  refine ⟨?_, ?_, ?_, ?_, ?_, ?_, ?_, ?_⟩ <;> decide

theorem witness_OddPairTerm : (Instr.fp2dec 15).wellFormed = false ∧ (Instr.fp2mul 0 0 1).wellFormed = false ∧
    State.reset.fault = 0 := by decide

/-- The fault state with each of the three moves; the step under a reset leaves it. -/
theorem witness_FaultState : (withHost (State.reset.raise .rangeViolation) [.command 0#32 []]).fault ≠ 0 ∧
    ∃ t, step (withHost (State.reset.raise .rangeViolation) [.reset]) = .next t ∧ t.fault ≠ 3 := by
  refine ⟨by decide, _, rfl, by decide⟩

/-- The reset state with a host meets the invariant, and it steps. -/
theorem witness_EveryStepKeepsTheInvariant : (withHost State.reset [.command 0#32 []]).Inv ∧
    ∃ t, step (withHost State.reset [.command 0#32 []]) = .next t :=
  ⟨⟨by decide, by decide, rfl, .ok, rfl, rfl, by decide, by decide⟩, _, rfl⟩

/-- The same in the fault state of the last row of R232. -/
theorem witness_ResponseCarries :
    (withHost (State.resetWith { Config.standard with available := false, policy := .fail }) [.command 0#32 []]).Inv ∧
    ∃ t, step (withHost (State.resetWith { Config.standard with available := false, policy := .fail }) [.command 0#32 []]) =
      .next t :=
  ⟨⟨by decide, by decide, rfl, .backendUnavailable, rfl, rfl, by decide, by decide⟩, _, rfl⟩

/-- ENC of an unwritten register raises the fault 6 from 0; in the fault state NOP steps too. -/
theorem witness_FaultIsWrittenOnce : (∃ t, step (withHost State.reset [.command 0x14010000#32 []]) = .next t ∧ t.fault ≠ 0) ∧
    ∃ t, step (withHost (State.reset.raise .rangeViolation) [.command 0#32 []]) = .next t :=
  ⟨⟨_, rfl, by decide⟩, _, rfl⟩

/-- INV of a register with a zero lane, into a written register. -/
theorem witness_WrittenLanesStay : engine2.lane 2 1 ≠ none ∧
    ∃ t, step (withHost engine2 [.command 0x1C210000#32 []]) = .next t := ⟨by decide, _, rfl⟩

theorem witness_ConfigurationIsFixed : (∃ t, step (withHost engine2 [.command 0x10F00000#32 []]) = .next t) ∧
    (withHost engine2 [.command 0x10F00000#32 []]).host ≠ [] := ⟨⟨_, rfl⟩, by decide⟩

theorem witness_BackendHasNoEffect : ∃ t, step (withHost engine2 [.command 0x1A302000#32 []]) = .next t := ⟨_, rfl⟩

theorem witness_StatusAndMask : ∃ t, exec (.inv 4 1) engine2 = .next t := ⟨_, rfl⟩

/-- Two engines that differ in lane 0 of F1 and agree on lane 1 of every register; INV completes in both, with
NotInvertible in the first and OK in the second. -/
theorem witness_LanesDoNotInteract :
    let other := engine2.writeReg 1 [some (Triple.limbs ⟨5, 0, 0⟩), engine2.lane 1 1]
    other.cfg.lanes = engine2.cfg.lanes ∧ other.cfg.eta = engine2.cfg.eta ∧ 1 < engine2.cfg.lanes ∧ engine2.fault = 0 ∧ other.fault = 0 ∧
    (∀ r : Reg, other.lane r 1 = engine2.lane r 1) ∧ other.payload = engine2.payload ∧
    seen (exec (.inv 4 1) engine2) State.status = some 2 ∧
    seen (exec (.inv 4 1) other) State.status = some 0 := by decide +kernel

theorem witness_RepeatedCommand : (∀ r ∈ (Instr.inv 4 1).destinations, r ∉ (Instr.inv 4 1).sources) ∧ engine2.fault = 0 ∧
    ∃ t, exec (.inv 4 1) engine2 = .next t := ⟨by decide, by decide, _, rfl⟩

theorem witness_ResetState :
    (let c := { Config.standard with available := false, policy := .fail }
     c.backend = .native ∧ c.available = false ∧ c.policy = .fail) ∧
    ¬(Config.standard.backend = .native ∧ Config.standard.available = false ∧ Config.standard.policy = .fail) := by decide

theorem witness_AssertedReset : (withHost engine2 [.reset, .reset]).host = .reset :: [.reset] := by decide

/-- The second register of a source pair is unwritten. -/
theorem witness_UnwrittenSource : (Instr.fp2enc 4).wellFormed = true ∧ (engine1 [(4, ⟨1, 0, 0⟩)]).Ready [] ∧
    ∃ r ∈ (Instr.fp2enc 4).sources, ¬ (engine1 [(4, ⟨1, 0, 0⟩)]).Written r := by decide +kernel

/-- NEG at the limit of its condition and one above it. -/
theorem witness_BrokenRange : (Instr.neg 3 1).wellFormed = true ∧ (engine1 [(1, ⟨0xffffffffff800, 0, 0⟩)]).Ready [] ∧
    (engine1 [(1, ⟨0xffffffffff801, 0, 0⟩)]).Ready [] ∧
    (∀ r ∈ (Instr.neg 3 1).sources, (engine1 [(1, ⟨0xffffffffff800, 0, 0⟩)]).Written r) ∧
    (∀ r ∈ (Instr.neg 3 1).sources, (engine1 [(1, ⟨0xffffffffff801, 0, 0⟩)]).Written r) ∧
    ¬ (engine1 [(1, ⟨0xffffffffff801, 0, 0⟩)]).RangeHolds (.neg 3 1) ∧
    (engine1 [(1, ⟨0xffffffffff800, 0, 0⟩)]).RangeHolds (.neg 3 1) := by
  have h0 : (engine1 [(1, ⟨0xffffffffff800, 0, 0⟩)]).triple 1 0 = some ⟨0xffffffffff800, 0, 0⟩ := by decide +kernel
  have h1 : (engine1 [(1, ⟨0xffffffffff801, 0, 0⟩)]).triple 1 0 = some ⟨0xffffffffff801, 0, 0⟩ := by decide +kernel
  refine ⟨by decide, by decide, by decide, by decide +kernel, by decide +kernel, fun h => ?_, fun l hl x hx => ?_⟩
  · exact absurd (h 0 (by decide) _ h1).1 (by decide)
  · obtain rfl : l = 0 := Nat.lt_one_iff.mp hl
    rw [h0] at hx; cases hx; decide

/-- For LDI a payload one byte short; for DEC and FP2DEC the slot of p, there in the second half. -/
theorem witness_InvalidEncoding :
    (let s := withPayload State.reset (List.replicate 7 0)
     s.fault = 0 ∧ s.payload.length ≠ (Instr.ldi 1).slotBytes * s.cfg.lanes) ∧
    (let s := withPayload State.reset slotP
     s.fault = 0 ∧ 0 < (Instr.dec 1).slotBytes / 16 * s.cfg.lanes ∧
      2 ^ 127 - 1 ≤ leInt ((s.payload.drop (16 * 0)).take 16)) ∧
    (let s := withPayload State.reset (slotMax ++ slotP)
     s.fault = 0 ∧ (4 : Reg).val % 2 = 0 ∧ 1 < (Instr.fp2dec 4).slotBytes / 16 * s.cfg.lanes ∧
      2 ^ 127 - 1 ≤ leInt ((s.payload.drop (16 * 1)).take 16)) := by decide +kernel

/-- The premises of each clause, at their limits. -/
theorem witness_MacHalves : (0x7ffffffffffff : MacOperand).toNat < 2 ^ (43 + 8) ∧ (0x7ffffffffffff : MacOperand).toNat ≤ 2 ^ 51 - 1 ∧
    (0x7ffffffffffff : MacOperand).toNat = 2 ^ 51 - 1 ∧ (0xfffffffffffff : MacOperand).toNat = 2 ^ 52 - 1 := by decide

theorem witness_BiasedDifference : bias.x0 ≤ 0xffffffffff800 ∧ bias.x1 ≤ 0xffffffffffe00 ∧ bias.x2 ≤ 0xffffffffffe00 := by decide

/-- For weak and canonical reduction and the folding algorithm: the largest u64 triple, the largest reduced one, p − 1. -/
theorem witness_Reductions : Triple.below ⟨2 ^ 64 - 1, 2 ^ 64 - 1, 2 ^ 64 - 1⟩ (2 ^ 64) = true ∧
    Triple.below ⟨2 ^ 43 - 1, 2 ^ 43 - 1, 2 ^ 43 - 1⟩ (2 ^ 43) = true ∧
    Triple.below ⟨2 ^ 43 - 1, 2 ^ 43 - 1, 2 ^ 43 - 1⟩ (2 ^ 64) = true ∧ 2 ^ 127 - 2 < 2 ^ 127 - 1 := by decide

/-- For the accumulators and the product: the largest operand (M5). -/
theorem witness_Products : mulInRange ⟨2 ^ 51 - 1, 2 ^ 51 - 1, 2 ^ 51 - 1⟩ = true := by decide

/-- The largest reduced triple: added to itself (bit-excess 0), doubled at most 8 times, and in a sum of 256. -/
theorem witness_EightDoublings : Triple.below ⟨2 ^ 43 - 1, 2 ^ 43 - 1, 2 ^ 43 - 1⟩ (2 ^ (43 + 0)) = true ∧ 8 ≤ 8 ∧
    (∀ x ∈ List.replicate 256 (⟨2 ^ 43 - 1, 2 ^ 43 - 1, 2 ^ 43 - 1⟩ : Triple), x.below (2 ^ 43) = true) ∧
    (List.replicate 256 (⟨2 ^ 43 - 1, 2 ^ 43 - 1, 2 ^ 43 - 1⟩ : Triple)).length ≤ 256 := by
  refine ⟨by decide, le_rfl, fun x hx => ?_, List.length_replicate.le⟩
  rw [List.eq_of_mem_replicate hx]; decide

theorem witness_PowerBySquaring : 2 ^ 127 - 3 < 2 ^ 127 := by decide

/-- p itself has residue 0, and one does not. -/
theorem witness_Inverse : val ⟨0x7ffffffffff, 0x7ffffffffff, 0x1ffffffffff⟩ % (2 ^ 127 - 1) = 0 ∧
    val ⟨1, 0, 0⟩ % (2 ^ 127 - 1) ≠ 0 := by decide

theorem witness_Fp2Product : 2 ^ 127 - 2 < 2 ^ 127 - 1 ∧
    fp2MulInRange (⟨2 ^ 51 - 1, 0, 1⟩, ⟨0, 2 ^ 51 - 1, 2 ^ 51 - 2⟩) = true := by decide

/-- The configuration of the reset state is admissible. -/
theorem standard_admissible : Config.standard.Admissible :=
  ⟨by decide, by decide, by decide, Laws.minus_one_nonresidue⟩

theorem witness_Fp2Inverse : Config.standard.Admissible ∧ (val ⟨0, 0, 0⟩ % (2 ^ 127 - 1) = 0 ∧ val bias % (2 ^ 127 - 1) = 0) ∧
    ¬(val ⟨0, 0, 0⟩ % (2 ^ 127 - 1) = 0 ∧ val ⟨1, 0, 0⟩ % (2 ^ 127 - 1) = 0) :=
  ⟨standard_admissible, by decide, by decide⟩

theorem witness_Codec : slotMax.length = 16 ∧ validSlot slotMax = true ∧ validSlot slotP = false ∧ 15 < 16 := by decide +kernel

/-- For NOP, ZERO and ONE. -/
theorem witness_Ready : State.reset.Ready [] ∧ engine2.Ready [] := by decide

/-- For LDI: the largest u64. -/
theorem witness_Ldi : let s := withPayload State.reset (List.replicate 8 0xff)
    s.fault = 0 ∧ s.payload.length = 8 * s.cfg.lanes := by decide +kernel

/-- For DEC: the largest valid slot. -/
theorem witness_Dec : let s := withPayload State.reset slotMax
    s.fault = 0 ∧ s.payload.length = 16 * s.cfg.lanes ∧
    ∀ l, l < s.cfg.lanes → leInt ((s.payload.drop (16 * l)).take 16) < 2 ^ 127 - 1 := by decide +kernel

/-- For FP2DEC: the largest valid slot in both halves. -/
theorem witness_Fp2dec : let s := withPayload State.reset (slotMax ++ slotMax)
    (14 : Reg).val % 2 = 0 ∧ s.fault = 0 ∧ s.payload.length = 32 * s.cfg.lanes ∧
    ∀ k, k < 2 * s.cfg.lanes → leInt ((s.payload.drop (16 * k)).take 16) < 2 ^ 127 - 1 := by decide +kernel

/-- For ENC, FP2ENC, WRED, CANON, ISZERO, EQ and INV: F0 and F1 of two lanes, of which lane 0 of F1 is zero. -/
theorem witness_Sources : engine2.Ready [] ∧ engine2.Holds 0 held0 ∧ engine2.Holds (partner 0) held1 ∧ (0 : Reg).val % 2 = 0 ∧
    val (held1 0) % (2 ^ 127 - 1) = 0 ∧ val (held1 1) % (2 ^ 127 - 1) ≠ 0 ∧ 1 < engine2.cfg.lanes := by decide +kernel

/-- For ADD: a sum of exactly 2^64 − 1. -/
theorem witness_Add : let s := engine1 [(1, ⟨2 ^ 64 - 2, 0, 0⟩), (2, ⟨1, 2 ^ 64 - 1, 0⟩)]
    s.Ready [] ∧ s.Holds 1 (fun _ => ⟨2 ^ 64 - 2, 0, 0⟩) ∧ s.Holds 2 (fun _ => ⟨1, 2 ^ 64 - 1, 0⟩) ∧
    (2 ^ 64 - 2 + 1 ≤ 2 ^ 64 - 1 ∧ 0 + (2 ^ 64 - 1) ≤ 2 ^ 64 - 1 ∧ 0 + 0 ≤ 2 ^ 64 - 1) := by decide +kernel

/-- For SUB: a subtrahend that is the bias, and a difference of exactly 2^64 − 1. -/
theorem witness_Sub : let s := engine1 [(1, ⟨0xfff00000000007ff, 0, 0⟩), (2, ⟨0, 0xffffffffffe00, 0xffffffffffe00⟩)]
    s.Ready [] ∧ s.Holds 1 (fun _ => ⟨0xfff00000000007ff, 0, 0⟩) ∧
    s.Holds 2 (fun _ => ⟨0, 0xffffffffffe00, 0xffffffffffe00⟩) ∧
    (0 ≤ 2 ^ 52 - 2 ^ 11 ∧ 0xffffffffffe00 ≤ 2 ^ 52 - 2 ^ 9 ∧ 0xffffffffffe00 ≤ 2 ^ 52 - 2 ^ 9) ∧
    0xfff00000000007ff + (2 ^ 52 - 2 ^ 11) - 0 ≤ 2 ^ 64 - 1 ∧ 0 + (2 ^ 52 - 2 ^ 9) - 0xffffffffffe00 ≤ 2 ^ 64 - 1 := by
  decide +kernel

/-- For NEG: an operand that is the bias. -/
theorem witness_Neg : (engine1 [(1, bias)]).Ready [] ∧ (engine1 [(1, bias)]).Holds 1 (fun _ => bias) ∧
    bias.x0 ≤ 2 ^ 52 - 2 ^ 11 ∧ bias.x1 ≤ 2 ^ 52 - 2 ^ 9 ∧ bias.x2 ≤ 2 ^ 52 - 2 ^ 9 := by decide +kernel

/-- For MUL and SQR: the largest operands. -/
theorem witness_Mul : engine2.Ready [] ∧ engine2.Holds 0 held0 ∧ engine2.Holds 1 held1 ∧
    (∀ l, l < engine2.cfg.lanes → (held0 l).x0 ≤ 2 ^ 51 - 1 ∧ (held0 l).x1 ≤ 2 ^ 51 - 1 ∧ (held0 l).x2 ≤ 2 ^ 51 - 1) ∧
    (∀ l, l < engine2.cfg.lanes → (held1 l).x0 ≤ 2 ^ 51 - 1 ∧ (held1 l).x1 ≤ 2 ^ 51 - 1 ∧ (held1 l).x2 ≤ 2 ^ 51 - 1) := by
  decide +kernel

/-- What the pairs F0 and F2 of `engine2` hold, lane by lane. -/
theorem engine2_triples (l : Nat) (hl : l < 2) : engine2.triple 0 l = some (held0 l) ∧ engine2.triple 1 l = some (held1 l) ∧
    engine2.triple 2 l = some (held2 l) ∧ engine2.triple 3 l = some (held2 l) := by
  have h := engine2_holds
  exact ⟨h.2.1 l hl, h.2.2.1 l hl, h.2.2.2.1 l hl, h.2.2.2.2 l hl⟩

/-- The bounds of the conditions below, on both lanes; the sums of F0 and F1 reach MUL_LIMIT. -/
theorem engine2_bounds : ∀ l, l < 2 → ((held0 l).x0 + (held1 l).x0 ≤ 2 ^ 51 - 1 ∧ (held0 l).x1 + (held1 l).x1 ≤ 2 ^ 51 - 1 ∧
      (held0 l).x2 + (held1 l).x2 ≤ 2 ^ 51 - 1) := by decide

/-- For FP2ADD, FP2SUB, FP2MUL and FP2SQR. -/
theorem witness_Fp2Ranges : (engine2.Ready [] ∧ engine2.Holds 0 held0 ∧ engine2.Holds (partner 0) held1 ∧
    engine2.Holds 2 held2 ∧ engine2.Holds (partner 2) held2) ∧ engine2.RangeHolds (.fp2add 4 0 2) ∧ engine2.RangeHolds (.fp2sub 4 0 2) ∧
    engine2.RangeHolds (.fp2mul 4 0 2) ∧ engine2.RangeHolds (.fp2sqr 4 0) ∧ (4 : Reg).val % 2 = 0 ∧ (2 : Reg).val % 2 = 0 := by
  refine ⟨engine2_holds, ?_⟩
  have hp0 : partner 0 = 1 := by decide
  have hp2 : partner 2 = 3 := by decide
  have sum : ∀ l, l < engine2.cfg.lanes → ∀ x y, engine2.triple 0 l = some x → engine2.triple 1 l = some y →
      x.x0 + y.x0 ≤ 2 ^ 51 - 1 ∧ x.x1 + y.x1 ≤ 2 ^ 51 - 1 ∧ x.x2 + y.x2 ≤ 2 ^ 51 - 1 := by
    intro l hl x y hx hy
    obtain ⟨h0, h1, -, -⟩ := engine2_triples l hl
    rw [h0] at hx; rw [h1] at hy; cases hx; cases hy
    exact engine2_bounds l hl
  have sum' : ∀ l, l < engine2.cfg.lanes → ∀ x y, engine2.triple 2 l = some x → engine2.triple 3 l = some y →
      x.x0 + y.x0 ≤ 2 ^ 51 - 1 ∧ x.x1 + y.x1 ≤ 2 ^ 51 - 1 ∧ x.x2 + y.x2 ≤ 2 ^ 51 - 1 := by
    intro l hl x y hx hy
    obtain ⟨-, -, h2, h3⟩ := engine2_triples l hl
    rw [h2] at hx; rw [h3] at hy; cases hx; cases hy; simp only [held2]; omega
  simp only [State.RangeHolds, hp0, hp2]
  refine ⟨⟨fun l hl x y hx hy => ?_, fun l hl x y hx hy => ?_⟩, ⟨fun l hl x y hx hy => ?_, fun l hl x y hx hy => ?_⟩,
    ⟨sum, sum'⟩, sum, by decide⟩ <;> obtain ⟨h0, h1, h2, h3⟩ := engine2_triples l hl <;>
    have hb := engine2_bounds l hl
  · rw [h0] at hx; rw [h2] at hy; cases hx; cases hy; simp only [held2]; omega
  · rw [h1] at hx; rw [h3] at hy; cases hx; cases hy; simp only [held2]; omega
  · rw [h0] at hx; rw [h2] at hy; cases hx; cases hy; simp only [held2, bias]; omega
  · rw [h1] at hx; rw [h3] at hy; cases hx; cases hy; simp only [held2, bias]; omega

/-- FP2INV: the pair F2 has no inverse in either lane, the pair F0 has one in both. -/
theorem witness_Fp2inv : (engine2.Ready [] ∧ engine2.Holds 0 held0 ∧ engine2.Holds (partner 0) held1 ∧
    engine2.Holds 2 held2 ∧ engine2.Holds (partner 2) held2) ∧ (4 : Reg).val % 2 = 0 ∧ fp2Inv engine2.cfg.eta (held2 0, held2 0) = none ∧
    (fp2Inv engine2.cfg.eta (held0 1, held1 1)).isSome = true := ⟨engine2_holds, by decide +kernel⟩

/-- One command of each list: MUL, and INV with a good lane 1. -/
theorem witness_ResultsKeepTheirBounds : engine2.fault = 0 ∧
    (∃ t, exec (.mul 4 0 1) engine2 = .next t ∧ t.status = 0 ∧ t.lmask[1]? = some false ∧ (t.triple 4 1).isSome = true) ∧
    (∃ t, exec (.inv 4 1) engine2 = .next t ∧ t.status = 2 ∧ t.lmask[1]? = some false ∧ (t.triple 4 1).isSome = true) := by
  refine ⟨by decide, ⟨_, rfl, ?_⟩, ⟨_, rfl, ?_⟩⟩ <;> decide +kernel

theorem witness_NegationIsSubtraction : engine2.Holds 2 (fun _ => ⟨0, 0, 0⟩) := by decide +kernel

theorem witness_Fp2addIsTwoAdds : engine2.fault = 0 ∧ ∃ t, exec (.fp2add 0 0 2) engine2 = .next t ∧ t.status = 0 := by
  refine ⟨by decide, _, rfl, ?_⟩; decide +kernel

/-- The limits of the two cases: NEG and SUB with a lane whose limb 0 is exactly 2^51 − 2^11, and NEG of limbs one above
the limit of each. -/
theorem witness_BiasedResult :
    (let s := engine1 [(0, ⟨0, 0, 0⟩), (1, ⟨2 ^ 51 - 2 ^ 11, 2 ^ 51 - 1, 2 ^ 51 - 1⟩)]
     s.fault = 0 ∧ s.Holds 1 (fun _ => ⟨2 ^ 51 - 2 ^ 11, 2 ^ 51 - 1, 2 ^ 51 - 1⟩) ∧ 0 < s.cfg.lanes ∧
      (∃ t, exec (.neg 5 1) s = .next t ∧ t.status = 0) ∧ ∃ t, exec (.sub 5 0 1) s = .next t ∧ t.status = 0) ∧
    (let s := engine1 [(1, ⟨2 ^ 51 - 2 ^ 11 + 1, 2 ^ 51 - 2 ^ 9 + 1, 2 ^ 51 - 2 ^ 9 + 1⟩)]
     s.fault = 0 ∧ s.Holds 1 (fun _ => ⟨2 ^ 51 - 2 ^ 11 + 1, 2 ^ 51 - 2 ^ 9 + 1, 2 ^ 51 - 2 ^ 9 + 1⟩) ∧
      ∃ t, exec (.neg 5 1) s = .next t ∧ t.status = 0) := by
  refine ⟨⟨by decide, by decide +kernel, by decide, ⟨_, rfl, ?_⟩, ⟨_, rfl, ?_⟩⟩, by decide, by decide +kernel, _, rfl, ?_⟩ <;>
    decide +kernel

end Sys2Proof.Tests
end

section
/-! PROOFS of the family 10_state.md, the ends of a step: what the step lemmas of Sys2Proof/Laws say about one field of
the state at a time, and from that the statements about the invariant, the response, FAULT and the written flags. -/

namespace Sys2Proof.Proofs

open Sys2Proof.Machine Sys2Proof.Laws

/-! ### Reset -/

/-- The two rows of R232 that matter to STATUS and FAULT. -/
theorem resetCode_cases (c : Config) :
    ((c.backend = .native ∧ c.available = false ∧ c.policy = .fail) ∧ resetCode c = .backendUnavailable) ∨
    (¬(c.backend = .native ∧ c.available = false ∧ c.policy = .fail) ∧ resetCode c = .ok) := by
  obtain ⟨_, _, backend, available, policy⟩ := c
  cases backend with
  | emulated => exact .inr ⟨by simp, rfl⟩
  | native =>
    cases available with
    | true => exact .inr ⟨by simp, rfl⟩
    | false =>
      cases policy with
      | fallback => exact .inr ⟨by simp, rfl⟩
      | fail => exact .inl ⟨⟨rfl, rfl, rfl⟩, rfl⟩

/-- No lane holds a value after reset. -/
theorem resetWith_lane (c : Config) (r : Reg) (l : Nat) : (State.resetWith c).lane r l = none := by
  by_cases hl : l < c.lanes <;> simp [State.lane, hl]

/-- The reset state meets the invariant, in the fault state of R206 too. -/
theorem resetWith_inv (c : Config) : (State.resetWith c).Inv := by
  refine ⟨fun r => by simp, by simp, rfl, resetCode c, rfl, ?_⟩
  rw [resetWith_fault]
  rcases resetCode_cases c with ⟨-, e⟩ | ⟨-, e⟩ <;> rw [e]
  · exact ⟨rfl, fun _ _ => rfl, nofun⟩
  · exact ⟨rfl, fun _ _ => rfl, nofun⟩

/-- An asserted reset establishes the invariant, which looks neither at the host's moves nor at the responses. -/
theorem assertReset_inv (s : State) (rest : List HostMove) : (s.assertReset rest).Inv := resetWith_inv s.cfg

/-- Settles O11. -/
theorem resetEstablishesTheInvariant : Obligations.ResetEstablishesTheInvariant :=
  ⟨resetWith_inv, resetWith_inv Config.standard⟩

/-- Settles O20, by the table of R232. -/
theorem resetState : Obligations.ResetState := by
  refine fun c => ⟨resetWith_lane c, rfl, ?_⟩
  rw [resetWith_status, resetWith_fault]
  rcases resetCode_cases c with ⟨hc, e⟩ | ⟨hc, e⟩ <;> rw [e]
  · exact ⟨fun _ => ⟨rfl, rfl⟩, fun h => absurd hc h⟩
  · exact ⟨fun h => absurd h hc, fun _ => ⟨rfl, rfl⟩⟩

/-! ### The ways a step can end -/

/-- The ways a command can end, by kind: refused, a recoverable error, a fatal fault, completed. -/
theorem ends_cases {s t : State} {dst : List Reg} (h : Ends s t dst) :
    (s.fault ≠ 0 ∧ t = s.refuseInFault) ∨
    (s.fault = 0 ∧ ∃ c, (c = .illegalCommand ∨ c = .invalidEncoding) ∧ t = s.fail c) ∨
    (s.fault = 0 ∧ ∃ c, (c = .unwrittenRegister ∨ c = .rangeViolation) ∧ t = s.raise c) ∨
    (s.fault = 0 ∧ Completes s t dst) := by
  obtain h | ⟨hf, e | e | e | e | hc⟩ := h
  · exact .inl h
  · exact .inr (.inl ⟨hf, _, .inl rfl, e⟩)
  · exact .inr (.inl ⟨hf, _, .inr rfl, e⟩)
  · exact .inr (.inr (.inl ⟨hf, _, .inl rfl, e⟩))
  · exact .inr (.inr (.inl ⟨hf, _, .inr rfl, e⟩))
  · exact .inr (.inr (.inr ⟨hf, hc⟩))

/-- A step on a command of the host ends in one of the ways a command can end. -/
theorem step_command_inversion {s t : State} {w : Word} {bytes : List Byte} {rest : List HostMove}
    (hh : s.host = .command w bytes :: rest) (ht : step s = .next t) : ∃ dst, Ends (s.present bytes rest) t dst := by
  obtain ⟨u, dst, hu, he, -⟩ := step_command_ends s w bytes rest hh
  obtain rfl : u = t := by simpa [hu] using ht
  exact ⟨dst, he⟩

/-- Everything a step can do, by the host's next move. -/
theorem step_inversion {s t : State} (ht : step s = .next t) :
    (s.host = [] ∧ t = s) ∨ (∃ rest, s.host = .reset :: rest ∧ t = s.assertReset rest) ∨
    (∃ w bytes rest dst, s.host = .command w bytes :: rest ∧ Ends (s.present bytes rest) t dst) := by
  cases hh : s.host with
  | nil => exact .inl ⟨rfl, by simpa [step_idle s hh, eq_comm] using ht⟩
  | cons move rest =>
    cases move with
    | reset => exact .inr (.inl ⟨rest, rfl, by simpa [step_reset s rest hh, eq_comm] using ht⟩)
    | command w bytes =>
      obtain ⟨dst, he⟩ := step_command_inversion hh ht
      exact .inr (.inr ⟨w, bytes, rest, dst, rfl, he⟩)

/-! ### The invariant -/

/-- The end of a command establishes the invariant when code, mask and FAULT go together as R26 and R27 say. -/
theorem finish_inv (s : State) (c : Code) (m : List Bool) (q : List Byte)
    (hregs : ∀ r : Reg, s.regs[r.val].length = s.cfg.lanes) (hm : m.length = s.cfg.lanes)
    (hfault : s.fault = if c.fatal then c.byte else 0)
    (hzero : c ≠ .ok → c ≠ .notInvertible → m = s.zeroMask) (hset : c = .notInvertible → true ∈ m) :
    (s.finish c m q).Inv :=
  ⟨hregs, hm, rfl, c, rfl, hfault, hzero, hset⟩

/-- An error's mask is 0, so its code and FAULT alone decide. -/
theorem finish_zeroMask_inv (s : State) (c : Code) (hregs : ∀ r : Reg, s.regs[r.val].length = s.cfg.lanes)
    (hfault : s.fault = if c.fatal then c.byte else 0) (hc : c ≠ .notInvertible) : (s.finish c s.zeroMask []).Inv :=
  finish_inv s c _ [] hregs (zeroMask_length s) hfault (fun _ _ => rfl) fun h => absurd h hc

/-- A completed command leaves V lanes in every register, and a mask that suits its code. -/
theorem completes_inv {s t : State} {dst : List Reg} (hregs : ∀ r : Reg, s.regs[r.val].length = s.cfg.lanes)
    (hf : s.fault = 0) (h : Completes s t dst) : t.Inv := by
  obtain ⟨regs, c, m, q, rfl, hc, hm, hframe, hdst⟩ := h
  have hlen (r : Reg) : regs[r.val].length = s.cfg.lanes := by
    by_cases hr : r ∈ dst
    · exact (hdst r hr).1
    · rw [hframe r hr]; exact hregs r
  rcases hc with rfl | ⟨rfl, hmem⟩
  · exact finish_inv _ .ok m q hlen hm hf (fun h _ => absurd rfl h) nofun
  · exact finish_inv _ .notInvertible m q hlen hm hf (fun _ h => absurd rfl h) fun _ => hmem

/-- However a command ends, it leaves the invariant. -/
theorem ends_inv {s t : State} {bytes : List Byte} {rest : List HostMove} {dst : List Reg} (hs : s.Inv)
    (h : Ends (s.present bytes rest) t dst) : t.Inv := by
  obtain ⟨hregs, hmask, -, hcode⟩ := hs
  rcases ends_cases h with ⟨-, rfl⟩ | ⟨hf, c, hc, rfl⟩ | ⟨-, c, hc, rfl⟩ | ⟨hf, hc⟩
  · exact ⟨hregs, hmask, rfl, hcode⟩
  · obtain ⟨hfatal, hne⟩ : c.fatal = false ∧ c ≠ .notInvertible := by
      rcases hc with rfl | rfl <;> exact ⟨rfl, nofun⟩
    exact finish_zeroMask_inv (s.present bytes rest) c hregs (by rw [hfatal]; exact hf) hne
  · obtain ⟨hfatal, hne⟩ : c.fatal = true ∧ c ≠ .notInvertible := by
      rcases hc with rfl | rfl <;> exact ⟨rfl, nofun⟩
    exact finish_zeroMask_inv { s.present bytes rest with fault := c.byte } c hregs (by rw [hfatal]; rfl) hne
  · exact completes_inv (s := s.present bytes rest) hregs hf hc

/-- Settles O10, by the host's next move. -/
theorem everyStepKeepsTheInvariant : Obligations.EveryStepKeepsTheInvariant := by
  intro s t hs ht
  rcases step_inversion ht with ⟨-, rfl⟩ | ⟨rest, -, rfl⟩ | ⟨_, _, _, _, -, he⟩
  · exact hs
  · exact assertReset_inv s rest
  · exact ends_inv hs he

/-! ### The response -/

/-- In the fault state STATUS is FAULT and LMASK is 0, so that R211's answer is R25's and R26's too. -/
theorem inv_faultState {s : State} (hs : s.Inv) (hf : s.fault ≠ 0) : s.status = s.fault ∧ s.lmask = s.zeroMask := by
  obtain ⟨-, -, -, c, hstatus, hfault, hzero, -⟩ := hs
  have hfatal : c.fatal = true := by
    by_contra hn
    exact hf (by rw [hfault, if_neg hn])
  refine ⟨by rw [hstatus, hfault, if_pos hfatal], hzero ?_ ?_⟩ <;> rintro rfl <;> cases hfatal

/-- However a command ends, its response carries the new STATUS and LMASK. -/
theorem ends_response {s t : State} {bytes : List Byte} {rest : List HostMove} {dst : List Reg} (hs : s.Inv)
    (h : Ends (s.present bytes rest) t dst) : ∃ q, t.responses = s.responses ++ [⟨t.status, t.lmask, q⟩] := by
  rcases ends_cases h with ⟨hf, rfl⟩ | ⟨-, c, -, rfl⟩ | ⟨-, c, -, rfl⟩ | ⟨-, _, c, m, q, rfl, -⟩
  · obtain ⟨hstatus, hmask⟩ := inv_faultState hs hf
    exact ⟨[], by simp [hstatus, hmask]⟩
  · exact ⟨[], rfl⟩
  · exact ⟨[], rfl⟩
  · exact ⟨q, rfl⟩

/-- Settles O12. -/
theorem responseCarriesStatusAndMask : Obligations.ResponseCarriesStatusAndMask := by
  intro s t w bytes rest hs hh ht
  obtain ⟨dst, he⟩ := step_command_inversion hh ht
  exact ends_response hs he

/-! ### FAULT -/

/-- A command that finds FAULT at 0 leaves it there or writes 3 or 6 into FAULT and STATUS alike. -/
theorem ends_fault_of_running {s t : State} {dst : List Reg} (h : Ends s t dst) (hf : s.fault = 0) :
    (t.fault = 0 ∨ t.fault = 3 ∨ t.fault = 6) ∧ (t.fault ≠ 0 → t.status = t.fault) := by
  rcases ends_cases h with ⟨hn, -⟩ | ⟨-, c, -, rfl⟩ | ⟨-, c, hc, rfl⟩ | ⟨-, _, _, _, _, rfl, -⟩
  · exact absurd hf hn
  · exact ⟨.inl hf, fun hn => absurd hf hn⟩
  · refine ⟨.inr ?_, fun _ => rfl⟩
    rcases hc with rfl | rfl
    · exact .inr rfl
    · exact .inl rfl
  · exact ⟨.inl hf, fun hn => absurd hf hn⟩

/-- A command that finds FAULT written leaves it as it is. -/
theorem ends_fault_of_faulted {s t : State} {dst : List Reg} (h : Ends s t dst) (hf : s.fault ≠ 0) :
    t.fault = s.fault := by
  obtain ⟨-, rfl⟩ | ⟨h0, -⟩ := h
  · rfl
  · exact absurd h0 hf

/-- Settles O13. -/
theorem faultIsWrittenOnceUntilReset : Obligations.FaultIsWrittenOnceUntilReset := by
  intro s t w bytes rest hh ht
  obtain ⟨dst, he⟩ := step_command_inversion hh ht
  exact ⟨ends_fault_of_running (s := s.present bytes rest) he, ends_fault_of_faulted (s := s.present bytes rest) he⟩

/-! ### The written flags -/

/-- However a command ends, a written lane is written afterwards; only a completed command touches registers at all. -/
theorem ends_written {s t : State} {dst : List Reg} (h : Ends s t dst) (r : Reg) (l : Nat) (hl : l < s.cfg.lanes)
    (hw : s.lane r l ≠ none) : t.lane r l ≠ none := by
  rcases ends_cases h with ⟨-, rfl⟩ | ⟨-, c, -, rfl⟩ | ⟨-, c, -, rfl⟩ | ⟨-, regs, _, _, _, rfl, -, -, hframe, hdst⟩
  · exact hw
  · exact hw
  · exact hw
  · by_cases hr : r ∈ dst
    · exact (hdst r hr).2 l hl hw
    · rw [finish_lane, State.lane, hframe r hr]
      exact hw

/-- Settles O14. -/
theorem writtenLanesStayWrittenUntilReset : Obligations.WrittenLanesStayWrittenUntilReset := by
  intro s t w bytes rest hh ht r l hl hw
  obtain ⟨dst, he⟩ := step_command_inversion hh ht
  exact ends_written he r l hl hw

end Sys2Proof.Proofs
end

section
/-! PROOFS of the family 10_state.md, what no command reads: the backend parameters, STATUS, LMASK, the host's later
moves and the responses already given. Two runs of a command that differ in these alone have one and the same effect
(`exec_uniform`); the statements of noninterference follow from it for two choices of these fields. -/

namespace Sys2Proof.Proofs

open Sys2Proof.Machine Sys2Proof.Laws

/-! ### The part of the state that no command reads -/

/-- The contents of the fields that no command reads. -/
structure Unread where
  backend : Backend
  available : Bool
  policy : BackendPolicy
  status : BitVec 8
  lmask : List Bool
  host : List HostMove
  responses : List Response

/-- The state s with other contents of the fields that no command reads. -/
def Unread.on (n : Unread) (s : State) : State :=
  { s with
    cfg := { s.cfg with backend := n.backend, available := n.available, policy := n.policy }
    status := n.status
    lmask := n.lmask
    host := n.host
    responses := n.responses }

/-- The contents that these fields have in s. -/
def unreadOf (s : State) : Unread :=
  ⟨s.cfg.backend, s.cfg.available, s.cfg.policy, s.status, s.lmask, s.host, s.responses⟩

@[simp] theorem unreadOf_on (s : State) : (unreadOf s).on s = s := rfl

/-- The states k n have one and the same effect on s in which the unread fields hold n: R211's answer under every n,
or the same registers, FAULT, code, mask and output payload under every n. -/
def Uniform (s : State) (k : Unread → State) : Prop :=
  (∀ n, k n = (n.on s).refuseInFault) ∨
  ∃ (regs : Vector Lanes 16) (fault : BitVec 8) (c : Code) (m : List Bool) (q : List Byte),
    ∀ n, k n = State.finish { n.on s with regs := regs, fault := fault } c m q

/-! ### What a uniform effect gives -/

/-- Registers and FAULT come out the same, and the responses do when they were the same. -/
theorem uniform_observed {s : State} {k : Unread → State} (h : Uniform s k) (n n' : Unread) :
    (k n').regs = (k n).regs ∧ (k n').fault = (k n).fault ∧
    (n'.responses = n.responses → (k n').responses = (k n).responses) := by
  rcases h with h | ⟨_, _, _, _, _, h⟩ <;> rw [h n, h n']
  · exact ⟨rfl, rfl, fun e => congrArg (· ++ [_]) e⟩
  · exact ⟨rfl, rfl, fun e => congrArg (· ++ [_]) e⟩

/-- Further moves of the host stay at the end of its list, and nothing else depends on them. -/
theorem uniform_appendHost {s : State} {k : Unread → State} (h : Uniform s k) (n : Unread) (more : List HostMove) :
    k { n with host := n.host ++ more } = { k n with host := (k n).host ++ more } := by
  rcases h with h | ⟨_, _, _, _, _, h⟩ <;> rw [h, h n] <;> rfl

/-! ### The ways to end are uniform -/

/-- A value that a command computes is the same whatever the unread fields hold. -/
def Constant {α : Type} (s : State) (v : Unread → α) : Prop := ∀ n, v n = v (unreadOf s)

theorem finish_uniform {s : State} {c : Code} {m : Unread → List Bool} {q : List Byte} (hm : Constant s m) :
    Uniform s fun n => (n.on s).finish c (m n) q := by
  simp only [hm _]
  exact .inr ⟨s.regs, s.fault, c, _, q, fun _ => rfl⟩

theorem fail_uniform (s : State) (c : Code) : Uniform s fun n => (n.on s).fail c :=
  finish_uniform fun _ => rfl

theorem raise_uniform (s : State) (c : Code) : Uniform s fun n => (n.on s).raise c :=
  .inr ⟨s.regs, c.byte, c, s.zeroMask, [], fun _ => rfl⟩

theorem writeReg_uniform {s : State} {r : Reg} {v : Unread → Lanes} {c : Code} {m : Unread → List Bool}
    {q : List Byte} (hv : Constant s v) (hm : Constant s m) :
    Uniform s fun n => ((n.on s).writeReg r (v n)).finish c (m n) q := by
  simp only [hv _, hm _]
  exact .inr ⟨(s.writeReg r (v (unreadOf s))).regs, s.fault, c, _, q, fun _ => rfl⟩

theorem writePair_uniform {s : State} {r r' : Reg} {v v' : Unread → Lanes} {c : Unread → Code}
    {m : Unread → List Bool} {q : List Byte} (hv : Constant s v) (hv' : Constant s v') (hc : Constant s c)
    (hm : Constant s m) : Uniform s fun n => (((n.on s).writeReg r (v n)).writeReg r' (v' n)).finish (c n) (m n) q := by
  simp only [hv _, hv' _, hc _, hm _]
  exact .inr ⟨((s.writeReg r (v (unreadOf s))).writeReg r' (v' (unreadOf s))).regs, s.fault, _, _, q, fun _ => rfl⟩

theorem storeReg_uniform {s : State} {rd : Reg} {xs : Unread → List Triple} (hx : Constant s xs) :
    Uniform s fun n => (n.on s).storeReg rd (xs n) :=
  writeReg_uniform (fun n => by rw [hx n]) fun _ => rfl

theorem storePair_uniform {s : State} {rd : Reg} {xs : Unread → List Fp2} (hx : Constant s xs) :
    Uniform s fun n => (n.on s).storePair rd (xs n) :=
  writePair_uniform (fun n => by rw [hx n]) (fun n => by rw [hx n]) (fun _ => rfl) fun _ => rfl

/-! ### The steps of the skeleton keep uniformity -/

/-- A choice by a condition that looks at no unread field. -/
theorem ite_uniform {s : State} (p : Prop) [Decidable p] {k k' : Unread → State} (hk : Uniform s k)
    (hk' : Uniform s k') : Uniform s fun n => if p then k n else k' n := by
  by_cases hp : p
  · simpa only [if_pos hp] using hk
  · simpa only [if_neg hp] using hk'

theorem beginCommand_uniform {s : State} {legal : Bool} {k : Unread → State} (hk : Uniform s k) :
    Uniform s fun n => (n.on s).beginCommand legal (k n) :=
  ite_uniform (s.fault ≠ 0) (.inl fun _ => rfl) <|
    ite_uniform ((legal && s.payload.isEmpty) = true) hk (fail_uniform s .illegalCommand)

theorem beginPayload_uniform {s : State} {legal : Bool} {len : Unread → Nat} {k : Unread → List Byte → State}
    (hlen : Constant s len) (hk : Uniform s fun n => k n s.payload) :
    Uniform s fun n => (n.on s).beginPayload legal (len n) (k n) := by
  simp only [hlen _]
  exact ite_uniform (s.fault ≠ 0) (.inl fun _ => rfl) <|
    ite_uniform (legal = true)
      (ite_uniform (s.payload.length = len (unreadOf s)) hk (fail_uniform s .invalidEncoding))
      (fail_uniform s .illegalCommand)

theorem requireRange_uniform {s : State} {b : Bool} {k : Unread → State} (hk : Uniform s k) :
    Uniform s fun n => (n.on s).requireRange b (k n) :=
  ite_uniform (b = true) hk (raise_uniform s .rangeViolation)

theorem requireSlots_uniform {s : State} {b : Unread → Bool} {k : Unread → State} (hb : Constant s b)
    (hk : Uniform s k) : Uniform s fun n => (n.on s).requireSlots (b n) (k n) := by
  simp only [hb _]
  exact ite_uniform (b (unreadOf s) = true) hk (fail_uniform s .invalidEncoding)

/-- A source read answers the same lanes, for it looks at registers and V alone. -/
theorem readReg_on (n : Unread) (s : State) (r : Reg) : (n.on s).readReg r = s.readReg r := rfl

theorem source_uniform {s : State} {r : Reg} {k : Unread → List Triple → State}
    (hk : ∀ x, Uniform s fun n => k n x) : Uniform s fun n => (n.on s).source r (k n) := by
  simp only [State.source, readReg_on]
  cases s.readReg r with
  | none => exact raise_uniform s .unwrittenRegister
  | some x => exact hk x

theorem sourcePair_uniform {s : State} {r : Reg} {k : Unread → List Fp2 → State}
    (hk : ∀ c, Uniform s fun n => k n c) : Uniform s fun n => (n.on s).sourcePair r (k n) :=
  source_uniform fun _ => source_uniform fun _ => hk _

/-! ### Every command is uniform -/

/-- A command's answer in s, as a function of the unread fields, has one and the same effect. -/
theorem exec_uniform (i : Instr) (s : State) : ∃ k, (∀ n : Unread, exec i (n.on s) = .next (k n)) ∧ Uniform s k := by
  cases i with
  | nop => exact ⟨_, fun _ => rfl, beginCommand_uniform (finish_uniform fun _ => rfl)⟩
  | zero rd => exact ⟨_, fun _ => rfl, beginCommand_uniform (storeReg_uniform fun _ => rfl)⟩
  | one rd => exact ⟨_, fun _ => rfl, beginCommand_uniform (storeReg_uniform fun _ => rfl)⟩
  | ldi rd => exact ⟨_, fun _ => rfl, beginPayload_uniform (fun _ => rfl) (storeReg_uniform fun _ => rfl)⟩
  | dec rd =>
    exact ⟨_, fun _ => rfl, beginPayload_uniform (fun _ => rfl)
      (requireSlots_uniform (fun _ => rfl) (storeReg_uniform fun _ => rfl))⟩
  | enc ra => exact ⟨_, fun _ => rfl, beginCommand_uniform (source_uniform fun _ => finish_uniform fun _ => rfl)⟩
  | add rd ra rb =>
    exact ⟨_, fun _ => rfl, beginCommand_uniform (source_uniform fun _ => source_uniform fun _ =>
      requireRange_uniform (storeReg_uniform fun _ => rfl))⟩
  | sub rd ra rb =>
    exact ⟨_, fun _ => rfl, beginCommand_uniform (source_uniform fun _ => source_uniform fun _ =>
      requireRange_uniform (storeReg_uniform fun _ => rfl))⟩
  | neg rd ra =>
    exact ⟨_, fun _ => rfl, beginCommand_uniform (source_uniform fun _ =>
      requireRange_uniform (storeReg_uniform fun _ => rfl))⟩
  | wred rd ra => exact ⟨_, fun _ => rfl, beginCommand_uniform (source_uniform fun _ => storeReg_uniform fun _ => rfl)⟩
  | canon rd ra => exact ⟨_, fun _ => rfl, beginCommand_uniform (source_uniform fun _ => storeReg_uniform fun _ => rfl)⟩
  | mul rd ra rb =>
    exact ⟨_, fun _ => rfl, beginCommand_uniform (source_uniform fun _ => source_uniform fun _ =>
      requireRange_uniform (storeReg_uniform fun _ => rfl))⟩
  | sqr rd ra =>
    exact ⟨_, fun _ => rfl, beginCommand_uniform (source_uniform fun _ =>
      requireRange_uniform (storeReg_uniform fun _ => rfl))⟩
  | inv rd ra =>
    exact ⟨_, fun _ => rfl, beginCommand_uniform (source_uniform fun _ => writeReg_uniform (fun _ => rfl) fun _ => rfl)⟩
  | iszero ra => exact ⟨_, fun _ => rfl, beginCommand_uniform (source_uniform fun _ => finish_uniform fun _ => rfl)⟩
  | eq ra rb =>
    exact ⟨_, fun _ => rfl, beginCommand_uniform (source_uniform fun _ => source_uniform fun _ =>
      finish_uniform fun _ => rfl)⟩
  | fp2dec rd =>
    exact ⟨_, fun _ => rfl, beginPayload_uniform (fun _ => rfl)
      (requireSlots_uniform (fun _ => rfl) (storePair_uniform fun _ => rfl))⟩
  | fp2enc ra => exact ⟨_, fun _ => rfl, beginCommand_uniform (sourcePair_uniform fun _ => finish_uniform fun _ => rfl)⟩
  | fp2add rd ra rb =>
    exact ⟨_, fun _ => rfl, beginCommand_uniform (sourcePair_uniform fun _ => sourcePair_uniform fun _ =>
      requireRange_uniform (storePair_uniform fun _ => rfl))⟩
  | fp2sub rd ra rb =>
    exact ⟨_, fun _ => rfl, beginCommand_uniform (sourcePair_uniform fun _ => sourcePair_uniform fun _ =>
      requireRange_uniform (storePair_uniform fun _ => rfl))⟩
  | fp2mul rd ra rb =>
    exact ⟨_, fun _ => rfl, beginCommand_uniform (sourcePair_uniform fun _ => sourcePair_uniform fun _ =>
      requireRange_uniform (storePair_uniform fun _ => rfl))⟩
  | fp2sqr rd ra =>
    exact ⟨_, fun _ => rfl, beginCommand_uniform (sourcePair_uniform fun _ =>
      requireRange_uniform (storePair_uniform fun _ => rfl))⟩
  | fp2inv rd ra =>
    exact ⟨_, fun _ => rfl, beginCommand_uniform (sourcePair_uniform fun _ =>
      writePair_uniform (fun _ => rfl) (fun _ => rfl) (fun _ => rfl) fun _ => rfl)⟩

/-- A step that carries out the command (w, bytes) in s, the words that decode to no command included. -/
theorem step_command_uniform (s : State) (w : Word) (bytes : List Byte) :
    ∃ k, (∀ n : Unread, step { n.on s with host := .command w bytes :: n.host } = .next (k n)) ∧
      Uniform (s.present bytes []) k := by
  cases hd : decodeWord w with
  | ok i =>
    obtain ⟨k, hk, hu⟩ := exec_uniform i (s.present bytes [])
    exact ⟨k, fun n => by simp only [step, State.fetch, hd]; exact hk n, hu⟩
  | error e =>
    refine ⟨_, fun n => ?_, beginCommand_uniform (legal := false) (fail_uniform _ .illegalCommand)⟩
    simp only [step, State.fetch, hd]
    rfl

/-! ### Noninterference -/

/-- Settles O17: the effect of the command is uniform in STATUS and LMASK. -/
theorem statusAndMaskAreNeverRead : Obligations.StatusAndMaskAreNeverRead := by
  intro i s t status mask ht
  obtain ⟨k, hk, hu⟩ := exec_uniform i s
  obtain rfl : k (unreadOf s) = t := by simpa [ht, eq_comm] using hk (unreadOf s)
  obtain ⟨hregs, hfault, hresponses⟩ := uniform_observed hu (unreadOf s)
    { unreadOf s with status := status, lmask := mask }
  exact ⟨_, hk { unreadOf s with status := status, lmask := mask }, hregs, hfault, hresponses rfl⟩

/-- No step changes the configuration (R32), not even a reset (R231). -/
theorem step_keeps_cfg {s t : State} (ht : step s = .next t) : t.cfg = s.cfg := by
  rcases step_inversion ht with ⟨-, rfl⟩ | ⟨rest, -, rfl⟩ | ⟨w, bytes, rest, dst, -, he⟩
  · rfl
  · rfl
  · rcases ends_cases he with ⟨-, rfl⟩ | ⟨-, c, -, rfl⟩ | ⟨-, c, -, rfl⟩ | ⟨-, _, _, _, _, rfl, -⟩ <;> rfl

/-- Moves added after the first one only wait: the step is the same but for the longer list. -/
theorem step_appendHost {s t : State} (ht : step s = .next t) (more : List HostMove) (hne : s.host ≠ []) :
    step { s with host := s.host ++ more } = .next { t with host := t.host ++ more } := by
  cases hh : s.host with
  | nil => exact absurd hh hne
  | cons move rest =>
    cases move with
    | reset =>
      obtain rfl : s.assertReset rest = t := by simpa [step_reset s rest hh] using ht
      exact step_reset _ (rest ++ more) rfl
    | command w bytes =>
      obtain ⟨k, hk, hu⟩ := step_command_uniform s w bytes
      have hs : step s = .next (k { unreadOf s with host := rest }) := by
        have h := hk { unreadOf s with host := rest }
        rwa [← hh] at h
      obtain rfl : k { unreadOf s with host := rest } = t := by simpa [hs] using ht
      rw [← uniform_appendHost hu]
      exact hk { unreadOf s with host := rest ++ more }

/-- Settles O15. -/
theorem configurationIsFixedAndFutureMovesUnseen : Obligations.ConfigurationIsFixedAndFutureMovesUnseen :=
  fun _ _ ht => ⟨step_keeps_cfg ht, fun more hne => step_appendHost ht more hne⟩

end Sys2Proof.Proofs
end

section
/-! PROOFS of the family 20_memory.md, a command issued again (R46): of the registers a command reads only its sources,
and what it stores a second time is what its destinations already hold. -/

namespace Sys2Proof.Proofs

open Sys2Proof.Machine Sys2Proof.Laws

/-! ### Registers that already hold what is written -/

/-- Writing what the register holds changes nothing. -/
theorem writeReg_of_holding {s : State} {r : Reg} {v : Lanes} (h : s.regs[r.val] = v) : s.writeReg r v = s := by
  subst h
  simp [State.writeReg]

/-- A register of V lanes is the list of its lanes. -/
theorem lanes_eq_register {s : State} {r : Reg} (h : s.regs[r.val].length = s.cfg.lanes) :
    s.lanes r = s.regs[r.val] := by
  refine List.ext_getElem (by simp [h]) fun l hl _ => ?_
  have hl' : l < s.regs[r.val].length := by simpa [h] using hl
  simp [State.lanes, State.lane, List.getElem?_eq_getElem hl']

/-- The lanes with a result hold it already, and the failing ones are kept again. -/
theorem keepFailing_idem (rs : List (Option Triple)) (old : Lanes) :
    keepFailing rs (keepFailing rs old) = keepFailing rs old := by
  induction rs generalizing old with
  | nil => rfl
  | cons r rs ih =>
    cases old with
    | nil => rfl
    | cons o old =>
      simp only [keepFailing, List.zipWith_cons_cons, List.cons.injEq] at ih ⊢
      exact ⟨by cases r <;> simp, ih old⟩

/-! ### The second issue of a command -/

/-- The state s with the registers, STATUS, LMASK and responses of t: where the first issue of a command in s led to t
without a fatal fault, the state in which the command is issued again. -/
def reissue (s t : State) : State :=
  { s with regs := t.regs, status := t.status, lmask := t.lmask, responses := t.responses }

/-- The second issue, ending in u, leaves what the first one, from s to t, left, and gives its response again. -/
def SameAgain (s t u : State) : Prop :=
  u.regs = t.regs ∧ u.status = t.status ∧ u.lmask = t.lmask ∧ u.fault = t.fault ∧
  ∃ response, t.responses = s.responses ++ [response] ∧ u.responses = t.responses ++ [response]

/-- If the first issue led from s to t by ending in k, then the second one, ending in k', is the same again. -/
def Repeats (s t k k' : State) : Prop := k = t → SameAgain s t k'

/-- A register left by a per-lane command is what the same results make of it again. -/
theorem keepFailing_reissue {s t : State} {r : Reg} {rs : List (Option Triple)} (hrs : rs.length = s.cfg.lanes)
    (ht : t.regs[r.val] = keepFailing rs (s.lanes r)) : t.regs[r.val] = keepFailing rs ((reissue s t).lanes r) := by
  have hlanes : (reissue s t).lanes r = t.regs[r.val] := lanes_eq_register (by simp [reissue, ht, hrs])
  rw [hlanes, ht, keepFailing_idem]

/-! ### The ways to end -/

theorem refuseInFault_repeats (s t : State) : Repeats s t s.refuseInFault (reissue s t).refuseInFault := by
  rintro rfl
  exact ⟨rfl, rfl, rfl, rfl, _, rfl, rfl⟩

theorem finish_repeats (s t : State) (c : Code) (m : List Bool) (q : List Byte) :
    Repeats s t (s.finish c m q) ((reissue s t).finish c m q) := by
  rintro rfl
  exact ⟨rfl, rfl, rfl, rfl, _, rfl, rfl⟩

theorem fail_repeats (s t : State) (c : Code) : Repeats s t (s.fail c) ((reissue s t).fail c) :=
  finish_repeats s t c s.zeroMask []

theorem raise_repeats (s t : State) (c : Code) : Repeats s t (s.raise c) ((reissue s t).raise c) := by
  rintro rfl
  exact ⟨rfl, rfl, rfl, rfl, _, rfl, rfl⟩

/-- One register written: the second issue writes what t holds there. -/
theorem writeReg_repeats {s t : State} {r : Reg} {v v' : Lanes} {c : Code} {m : List Bool} {q : List Byte}
    (hv : t.regs[r.val] = v → t.regs[r.val] = v') :
    Repeats s t ((s.writeReg r v).finish c m q) (((reissue s t).writeReg r v').finish c m q) := by
  intro e
  have hheld : t.regs[r.val] = v := by rw [← e]; exact regs_writeReg_same s r v
  rw [writeReg_of_holding (s := reissue s t) (hv hheld)]
  subst e
  exact ⟨rfl, rfl, rfl, rfl, _, rfl, rfl⟩

/-- A pair of registers written: the second issue writes what t holds there. -/
theorem writePair_repeats {s t : State} {r : Reg} {v v' w w' : Lanes} {c : Code} {m : List Bool} {q : List Byte}
    (hv : t.regs[r.val] = v → t.regs[r.val] = v')
    (hw : t.regs[(partner r).val] = w → t.regs[(partner r).val] = w') :
    Repeats s t (((s.writeReg r v).writeReg (partner r) w).finish c m q)
      ((((reissue s t).writeReg r v').writeReg (partner r) w').finish c m q) := by
  intro e
  have hfirst : t.regs[r.val] = v := by
    rw [← e]
    exact (regs_writeReg_other _ _ _ w (partner_ne r).symm).trans (regs_writeReg_same s r v)
  have hsecond : t.regs[(partner r).val] = w := by rw [← e]; exact regs_writeReg_same _ (partner r) w
  rw [writeReg_of_holding (s := reissue s t) (hv hfirst),
    writeReg_of_holding (s := reissue s t) (hw hsecond)]
  subst e
  exact ⟨rfl, rfl, rfl, rfl, _, rfl, rfl⟩

theorem storeReg_repeats (s t : State) (rd : Reg) (xs : List Triple) :
    Repeats s t (s.storeReg rd xs) ((reissue s t).storeReg rd xs) :=
  writeReg_repeats fun h => h

theorem storePair_repeats (s t : State) (rd : Reg) (xs : List Fp2) :
    Repeats s t (s.storePair rd xs) ((reissue s t).storePair rd xs) :=
  writePair_repeats (fun h => h) fun h => h

/-! ### The steps of the skeleton -/

/-- A choice by a condition that looks at nothing the first issue changed. -/
theorem ite_repeats {s t : State} (p : Prop) [Decidable p] {k k' l l' : State} (hk : Repeats s t k k')
    (hl : Repeats s t l l') : Repeats s t (if p then k else l) (if p then k' else l') := by
  by_cases hp : p
  · simpa only [if_pos hp] using hk
  · simpa only [if_neg hp] using hl

theorem beginCommand_repeats {s t : State} {legal : Bool} {k k' : State} (hk : Repeats s t k k') :
    Repeats s t (s.beginCommand legal k) ((reissue s t).beginCommand legal k') :=
  ite_repeats (s.fault ≠ 0) (refuseInFault_repeats s t) <|
    ite_repeats ((legal && s.payload.isEmpty) = true) hk (fail_repeats s t .illegalCommand)

theorem beginPayload_repeats {s t : State} {legal : Bool} {n : Nat} {k k' : List Byte → State}
    (hk : Repeats s t (k s.payload) (k' s.payload)) :
    Repeats s t (s.beginPayload legal n k) ((reissue s t).beginPayload legal n k') :=
  ite_repeats (s.fault ≠ 0) (refuseInFault_repeats s t) <|
    ite_repeats (legal = true)
      (ite_repeats (s.payload.length = n) hk (fail_repeats s t .invalidEncoding))
      (fail_repeats s t .illegalCommand)

theorem requireRange_repeats {s t : State} {b : Bool} {k k' : State} (hk : Repeats s t k k') :
    Repeats s t (s.requireRange b k) ((reissue s t).requireRange b k') :=
  ite_repeats (b = true) hk (raise_repeats s t .rangeViolation)

theorem requireSlots_repeats {s t : State} {b : Bool} {k k' : State} (hk : Repeats s t k k') :
    Repeats s t (s.requireSlots b k) ((reissue s t).requireSlots b k') :=
  ite_repeats (b = true) hk (fail_repeats s t .invalidEncoding)

/-- A register that the first issue did not change is read again as it was. -/
theorem readReg_reissue {s t : State} {r : Reg} (h : t.regs[r.val] = s.regs[r.val]) :
    (reissue s t).readReg r = s.readReg r := by
  have htriple (l : Nat) : (reissue s t).triple r l = s.triple r l := by simp [State.triple, State.lane, reissue, h]
  simp only [State.readReg, funext htriple]
  rfl

theorem source_repeats {s t : State} {r : Reg} {k k' : List Triple → State} (h : t.regs[r.val] = s.regs[r.val])
    (hk : ∀ x, x.length = s.cfg.lanes → Repeats s t (k x) (k' x)) :
    Repeats s t (s.source r k) ((reissue s t).source r k') := by
  rw [State.source, State.source, readReg_reissue h]
  cases hx : s.readReg r with
  | none => exact raise_repeats s t .unwrittenRegister
  | some x => exact hk x (readReg_length s r x hx)

theorem sourcePair_repeats {s t : State} {r : Reg} {k k' : List Fp2 → State} (h : t.regs[r.val] = s.regs[r.val])
    (h' : t.regs[(partner r).val] = s.regs[(partner r).val])
    (hk : ∀ c, c.length = s.cfg.lanes → Repeats s t (k c) (k' c)) :
    Repeats s t (s.sourcePair r k) ((reissue s t).sourcePair r k') :=
  source_repeats h fun _ h0 => source_repeats h' fun _ h1 => hk _ (by simp [h0, h1])

/-! ### Every command -/

/-- A command whose first issue in s, ending in t, left its sources as they were does the same again. -/
theorem exec_repeats (i : Instr) (s t : State) (h : ∀ r ∈ i.sources, t.regs[r.val] = s.regs[r.val]) :
    ∃ k k', exec i s = .next k ∧ exec i (reissue s t) = .next k' ∧ Repeats s t k k' := by
  cases i with
  | nop => exact ⟨_, _, rfl, rfl, beginCommand_repeats (finish_repeats s t _ _ _)⟩
  | zero rd => exact ⟨_, _, rfl, rfl, beginCommand_repeats (storeReg_repeats s t _ _)⟩
  | one rd => exact ⟨_, _, rfl, rfl, beginCommand_repeats (storeReg_repeats s t _ _)⟩
  | ldi rd => exact ⟨_, _, rfl, rfl, beginPayload_repeats (storeReg_repeats s t _ _)⟩
  | dec rd => exact ⟨_, _, rfl, rfl, beginPayload_repeats (requireSlots_repeats (storeReg_repeats s t _ _))⟩
  | fp2dec rd => exact ⟨_, _, rfl, rfl, beginPayload_repeats (requireSlots_repeats (storePair_repeats s t _ _))⟩
  | enc ra | iszero ra =>
    simp only [Instr.sources, List.forall_mem_cons] at h
    obtain ⟨ha, -⟩ := h
    exact ⟨_, _, rfl, rfl, beginCommand_repeats (source_repeats ha fun _ _ => finish_repeats s t _ _ _)⟩
  | fp2enc ra =>
    simp only [Instr.sources, List.forall_mem_cons] at h
    obtain ⟨ha, ha', -⟩ := h
    exact ⟨_, _, rfl, rfl, beginCommand_repeats (sourcePair_repeats ha ha' fun _ _ => finish_repeats s t _ _ _)⟩
  | eq ra rb =>
    simp only [Instr.sources, List.forall_mem_cons] at h
    obtain ⟨ha, hb, -⟩ := h
    exact ⟨_, _, rfl, rfl, beginCommand_repeats (source_repeats ha fun _ _ => source_repeats hb fun _ _ =>
      finish_repeats s t _ _ _)⟩
  | wred rd ra | canon rd ra =>
    simp only [Instr.sources, List.forall_mem_cons] at h
    obtain ⟨ha, -⟩ := h
    exact ⟨_, _, rfl, rfl, beginCommand_repeats (source_repeats ha fun _ _ => storeReg_repeats s t _ _)⟩
  | neg rd ra | sqr rd ra =>
    simp only [Instr.sources, List.forall_mem_cons] at h
    obtain ⟨ha, -⟩ := h
    exact ⟨_, _, rfl, rfl, beginCommand_repeats (source_repeats ha fun _ _ =>
      requireRange_repeats (storeReg_repeats s t _ _))⟩
  | add rd ra rb | sub rd ra rb | mul rd ra rb =>
    simp only [Instr.sources, List.forall_mem_cons] at h
    obtain ⟨ha, hb, -⟩ := h
    exact ⟨_, _, rfl, rfl, beginCommand_repeats (source_repeats ha fun _ _ => source_repeats hb fun _ _ =>
      requireRange_repeats (storeReg_repeats s t _ _))⟩
  | fp2sqr rd ra =>
    simp only [Instr.sources, List.forall_mem_cons] at h
    obtain ⟨ha, ha', -⟩ := h
    exact ⟨_, _, rfl, rfl, beginCommand_repeats (sourcePair_repeats ha ha' fun _ _ =>
      requireRange_repeats (storePair_repeats s t _ _))⟩
  | fp2add rd ra rb | fp2sub rd ra rb | fp2mul rd ra rb =>
    simp only [Instr.sources, List.forall_mem_cons] at h
    obtain ⟨ha, ha', hb, hb', -⟩ := h
    exact ⟨_, _, rfl, rfl, beginCommand_repeats (sourcePair_repeats ha ha' fun _ _ => sourcePair_repeats hb hb' fun _ _ =>
      requireRange_repeats (storePair_repeats s t _ _))⟩
  | inv rd ra =>
    simp only [Instr.sources, List.forall_mem_cons] at h
    obtain ⟨ha, -⟩ := h
    exact ⟨_, _, rfl, rfl, beginCommand_repeats (source_repeats ha fun x hx =>
      writeReg_repeats (keepFailing_reissue (by simp [hx])))⟩
  | fp2inv rd ra =>
    simp only [Instr.sources, List.forall_mem_cons] at h
    obtain ⟨ha, ha', -⟩ := h
    exact ⟨_, _, rfl, rfl, beginCommand_repeats (sourcePair_repeats ha ha' fun c hc =>
      writePair_repeats (keepFailing_reissue (by simp [hc]))
        (keepFailing_reissue (by simp [hc])))⟩

/-- However a command ends, it changes no register but its destinations. -/
theorem ends_frame {s t : State} {dst : List Reg} (h : Ends s t dst) (r : Reg) (hr : r ∉ dst) :
    t.regs[r.val] = s.regs[r.val] := by
  rcases ends_cases h with ⟨-, rfl⟩ | ⟨-, c, -, rfl⟩ | ⟨-, c, -, rfl⟩ | ⟨-, _, _, _, _, rfl, -, -, hframe, -⟩
  · rfl
  · rfl
  · rfl
  · exact hframe r hr

/-- After a fatal fault the command is refused, with the response that the fault gave (R210, R211). -/
theorem exec_after_raise (i : Instr) (s : State) (c : Code) (hc : c.byte ≠ 0) :
    ∃ u, exec i { s.raise c with payload := s.payload } = .next u ∧ SameAgain s (s.raise c) u := by
  obtain ⟨u, hu, ⟨-, rfl⟩ | ⟨hf, -⟩⟩ := exec_cases i { s.raise c with payload := s.payload }
  · exact ⟨_, hu, rfl, rfl, rfl, rfl, _, rfl, rfl⟩
  · exact absurd hf hc

/-- Settles O19: after a fatal fault by R211, otherwise because the sources are what they were. -/
theorem repeatedCommandChangesNothingMore : Obligations.RepeatedCommandChangesNothingMore := by
  intro i s t hdistinct hf ht
  obtain ⟨t', ht', he⟩ := exec_cases i s
  obtain rfl : t' = t := by simpa [ht', eq_comm] using ht
  have hsources (r : Reg) (hr : r ∈ i.sources) : t'.regs[r.val] = s.regs[r.val] :=
    ends_frame he r fun hd => hdistinct r hd hr
  obtain ⟨k, u, hk, hu, hrepeats⟩ := exec_repeats i s t' hsources
  obtain rfl : k = t' := by simpa [hk] using ht'
  have hagain : ∃ u, exec i { k with payload := s.payload } = .next u ∧ SameAgain s k u := by
    rcases ends_cases he with ⟨hn, -⟩ | ⟨-, c, -, rfl⟩ | ⟨-, c, hc, rfl⟩ | ⟨-, _, _, _, _, rfl, -⟩
    · exact absurd hf hn
    · exact ⟨u, hu, hrepeats rfl⟩
    · exact exec_after_raise i s c (by rcases hc with rfl | rfl <;> decide)
    · exact ⟨u, hu, hrepeats rfl⟩
  obtain ⟨u, hu, hregs, hstatus, hmask, hfault, response, hfirst, hsecond⟩ := hagain
  exact ⟨u, response, hu, hregs, hstatus, hmask, hfault, hfirst, hsecond⟩

end Sys2Proof.Proofs
end

section
/-! PROOFS of the family 20_memory.md, lanes (R50): two engines that agree on lane l, and that both complete a command,
agree on lane l afterwards. The list operations that the commands are made of keep agreement in place l, and each step
of the skeleton passes it on. -/

namespace Sys2Proof.Proofs

open Sys2Proof.Machine Sys2Proof.Laws

/-! ### Two lists that agree in place l -/

/-- The two lists have the same entry in place l, or both have none. -/
def SameAt {α : Type} (l : Nat) (x y : List α) : Prop := y[l]? = x[l]?

theorem SameAt.refl {α : Type} (l : Nat) (x : List α) : SameAt l x x := rfl

theorem SameAt.map {α β : Type} {l : Nat} {x y : List α} (h : SameAt l x y) (f : α → β) :
    SameAt l (x.map f) (y.map f) := by
  rw [SameAt, List.getElem?_map, List.getElem?_map, h]

theorem SameAt.zipWith {α β γ : Type} {l : Nat} {x y : List α} {x' y' : List β} (h : SameAt l x y)
    (h' : SameAt l x' y') (f : α → β → γ) : SameAt l (List.zipWith f x x') (List.zipWith f y y') := by
  rw [SameAt, List.getElem?_zipWith, List.getElem?_zipWith, h, h']

theorem SameAt.zip {α β : Type} {l : Nat} {x y : List α} {x' y' : List β} (h : SameAt l x y) (h' : SameAt l x' y') :
    SameAt l (x.zip x') (y.zip y') :=
  h.zipWith h' Prod.mk

theorem SameAt.keepFailing {l : Nat} {rs rs' : List (Option Triple)} {old old' : Lanes} (h : SameAt l rs rs')
    (h' : SameAt l old old') : SameAt l (keepFailing rs old) (keepFailing rs' old') :=
  h.zipWith h' _

/-- The n bytes of lane l in a payload of n bytes a lane (R44). -/
def slotOf (n l : Nat) (bytes : List Byte) : List Byte := (bytes.drop (n * l)).take n

/-- The slot of lane l in a payload made of the n bytes of each lane. -/
theorem slotOf_flatMap {α : Type} {n : Nat} {f : α → List Byte} (hf : ∀ a, (f a).length = n) (x : List α) (l : Nat) :
    slotOf n l (x.flatMap f) = (x[l]?.map f).getD [] := by
  induction x generalizing l with
  | nil => simp [slotOf]
  | cons a x ih =>
    cases l with
    | zero => simp [slotOf, ← hf a]
    | succ l =>
      have hdrop : (f a ++ x.flatMap f).drop (n * (l + 1)) = (x.flatMap f).drop (n * l) := by
        rw [Nat.mul_succ, Nat.add_comm, ← hf a, List.drop_length_add_append]
      simpa [slotOf, hdrop] using ih l

/-- Payloads encoded lane by lane from lists that agree in place l agree in slot l. -/
theorem SameAt.slotOf_flatMap {α : Type} {l n : Nat} {x y : List α} (h : SameAt l x y) {f : α → List Byte}
    (hf : ∀ a, (f a).length = n) : slotOf n l (y.flatMap f) = slotOf n l (x.flatMap f) := by
  rw [Proofs.slotOf_flatMap hf, Proofs.slotOf_flatMap hf, h]

@[simp] theorem leBytes_length (k n : Nat) : (leBytes k n).length = k := by
  induction k generalizing n with
  | zero => rfl
  | succ k ih => simp [leBytes, ih]

theorem encodeFe_length (x : Triple) : (encodeFe x).length = 16 := leBytes_length 16 _

theorem encodeFp2_length (c : Fp2) : (encodeFp2 c).length = 32 := by simp [encodeFp2, encodeFe_length]

/-! ### A command that completed passed every step -/

/-- The command completed, with OK or NotInvertible (R50). -/
def Completed (t : State) : Prop := t.status = 0 ∨ t.status = 2

theorem fail_not_completed (s : State) {c : Code} (hc : c = .illegalCommand ∨ c = .invalidEncoding) :
    ¬ Completed (s.fail c) := by
  rw [Completed, fail_status]
  rcases hc with rfl | rfl <;> decide

theorem raise_not_completed (s : State) {c : Code} (hc : c = .unwrittenRegister ∨ c = .rangeViolation) :
    ¬ Completed (s.raise c) := by
  rw [Completed, raise_status]
  rcases hc with rfl | rfl <;> decide

theorem beginCommand_of_completed {s : State} (hf : s.fault = 0) {legal : Bool} {k : State}
    (h : Completed (s.beginCommand legal k)) : s.beginCommand legal k = k := by
  rcases beginCommand_cases s legal k with ⟨hn, -⟩ | ⟨-, -, e⟩ | ⟨-, -, -, e⟩
  · exact absurd hf hn
  · exact absurd (e ▸ h) (fail_not_completed s (.inl rfl))
  · exact e

theorem beginPayload_of_completed {s : State} (hf : s.fault = 0) {legal : Bool} {n : Nat} {k : List Byte → State}
    (h : Completed (s.beginPayload legal n k)) : s.beginPayload legal n k = k s.payload := by
  rcases beginPayload_cases s legal n k with ⟨hn, -⟩ | ⟨-, -, e⟩ | ⟨-, -, -, e⟩ | ⟨-, -, -, e⟩
  · exact absurd hf hn
  · exact absurd (e ▸ h) (fail_not_completed s (.inl rfl))
  · exact absurd (e ▸ h) (fail_not_completed s (.inr rfl))
  · exact e

theorem source_of_completed {s : State} {r : Reg} {k : List Triple → State} (h : Completed (s.source r k)) :
    ∃ x, s.readReg r = some x ∧ s.source r k = k x := by
  rcases source_cases s r k with ⟨-, e⟩ | hx
  · exact absurd (e ▸ h) (raise_not_completed s (.inl rfl))
  · exact hx

theorem requireRange_of_completed {s : State} {b : Bool} {k : State} (h : Completed (s.requireRange b k)) :
    s.requireRange b k = k := by
  rcases requireRange_cases s b k with ⟨-, e⟩ | ⟨-, e⟩
  · exact absurd (e ▸ h) (raise_not_completed s (.inr rfl))
  · exact e

theorem requireSlots_of_completed {s : State} {b : Bool} {k : State} (h : Completed (s.requireSlots b k)) :
    s.requireSlots b k = k := by
  rcases requireSlots_cases s b k with ⟨-, e⟩ | ⟨-, e⟩
  · exact absurd (e ▸ h) (fail_not_completed s (.inr rfl))
  · exact e

/-! ### Two engines that agree on lane l -/

/-- The two engines run under the same V and ETA and agree on lane l of every register. -/
structure SameLane (l : Nat) (s₁ s₂ : State) : Prop where
  lanes : s₂.cfg.lanes = s₁.cfg.lanes
  eta : s₂.cfg.eta = s₁.cfg.eta
  inside : l < s₁.cfg.lanes
  running₁ : s₁.fault = 0
  running₂ : s₂.fault = 0
  lane : ∀ r : Reg, s₂.lane r l = s₁.lane r l

/-- If both engines complete, from s₁ to t₁ and from s₂ to t₂, they agree afterwards on lane l of every register, on bit
l of LMASK and on slot l, of n bytes, of the answered payload. -/
def LaneAgrees (l n : Nat) (s₁ s₂ t₁ t₂ : State) : Prop :=
  Completed t₁ → Completed t₂ →
    (∀ r : Reg, t₂.lane r l = t₁.lane r l) ∧ t₂.lmask[l]? = t₁.lmask[l]? ∧
    ∃ q₁ q₂, t₁.responses = s₁.responses ++ [⟨t₁.status, t₁.lmask, q₁⟩] ∧
      t₂.responses = s₂.responses ++ [⟨t₂.status, t₂.lmask, q₂⟩] ∧ slotOf n l q₂ = slotOf n l q₁

/-- What a completed command leaves is all that counts. -/
theorem LaneAgrees.of_completed {l n : Nat} {s₁ s₂ t₁ t₂ u₁ u₂ : State} (hu : LaneAgrees l n s₁ s₂ u₁ u₂)
    (e₁ : Completed t₁ → t₁ = u₁) (e₂ : Completed t₂ → t₂ = u₂) : LaneAgrees l n s₁ s₂ t₁ t₂ := by
  intro h₁ h₂
  obtain rfl := e₁ h₁
  obtain rfl := e₂ h₂
  exact hu h₁ h₂

section
variable {l n : Nat} {s₁ s₂ : State} (h : SameLane l s₁ s₂)
include h

/-! ### What agrees on lane l -/

theorem SameLane.triple (r : Reg) : s₂.triple r l = s₁.triple r l := by rw [State.triple, State.triple, h.lane]

theorem SameLane.zeroMask : SameAt l s₁.zeroMask s₂.zeroMask := by
  rw [State.zeroMask, State.zeroMask, h.lanes]
  exact .refl l _

theorem SameLane.everyLane (x : Triple) : SameAt l (s₁.everyLane x) (s₂.everyLane x) := by
  rw [State.everyLane, State.everyLane, h.lanes]
  exact .refl l _

theorem SameLane.oldLanes (r : Reg) : SameAt l (s₁.lanes r) (s₂.lanes r) := by
  rw [SameAt, lanes_getElem s₁ r l h.inside, lanes_getElem s₂ r l (h.lanes ▸ h.inside), h.lane]

/-- Input payloads that agree in slot l are cut into lists that agree in place l. -/
theorem SameLane.slots {size : Nat} {b₁ b₂ : List Byte} (hb : slotOf size l b₂ = slotOf size l b₁) :
    SameAt l (slots size s₁.cfg.lanes b₁) (slots size s₂.cfg.lanes b₂) := by
  have hget (b : List Byte) : (Machine.slots size s₁.cfg.lanes b)[l]? = some (slotOf size l b) := by
    rw [slots_eq, List.getElem?_map, List.getElem?_range h.inside, Option.map_some]
    rfl
  rw [SameAt, h.lanes, hget, hget, hb]

theorem SameLane.readReg {r : Reg} {x y : List Triple} (hx : s₁.readReg r = some x) (hy : s₂.readReg r = some y) :
    SameAt l x y := by
  rw [SameAt, ← readReg_getElem s₁ r x hx l h.inside, ← readReg_getElem s₂ r y hy l (h.lanes ▸ h.inside), h.triple]

/-- A register written with lists that agree in place l. -/
theorem SameLane.writeReg (r : Reg) {v w : Lanes} (hv : SameAt l v w) :
    SameLane l (s₁.writeReg r v) (s₂.writeReg r w) where
  lanes := h.lanes
  eta := h.eta
  inside := h.inside
  running₁ := h.running₁
  running₂ := h.running₂
  lane r' := by
    by_cases hr : r' = r
    · subst hr
      rw [lane_writeReg_same, lane_writeReg_same, hv]
    · rw [lane_writeReg_other _ _ _ _ _ hr, lane_writeReg_other _ _ _ _ _ hr, h.lane]

/-! ### The ways to end -/

theorem SameLane.finish {c₁ c₂ : Code} {m₁ m₂ : List Bool} {q₁ q₂ : List Byte} (hm : SameAt l m₁ m₂)
    (hq : slotOf n l q₂ = slotOf n l q₁) : LaneAgrees l n s₁ s₂ (s₁.finish c₁ m₁ q₁) (s₂.finish c₂ m₂ q₂) :=
  fun _ _ => ⟨h.lane, hm, q₁, q₂, rfl, rfl, hq⟩

theorem SameLane.storeReg (rd : Reg) {x y : List Triple} (hx : SameAt l x y) :
    LaneAgrees l n s₁ s₂ (s₁.storeReg rd x) (s₂.storeReg rd y) :=
  (h.writeReg rd (hx.map _)).finish h.zeroMask rfl

theorem SameLane.storePair (rd : Reg) {x y : List Fp2} (hx : SameAt l x y) :
    LaneAgrees l n s₁ s₂ (s₁.storePair rd x) (s₂.storePair rd y) :=
  ((h.writeReg rd ((hx.map _).map _)).writeReg (partner rd) ((hx.map _).map _)).finish h.zeroMask rfl

/-! ### The steps of the skeleton -/

theorem SameLane.beginCommand {legal : Bool} {k₁ k₂ : State} (hk : LaneAgrees l n s₁ s₂ k₁ k₂) :
    LaneAgrees l n s₁ s₂ (s₁.beginCommand legal k₁) (s₂.beginCommand legal k₂) :=
  hk.of_completed (beginCommand_of_completed h.running₁) (beginCommand_of_completed h.running₂)

theorem SameLane.beginPayload {legal : Bool} {n₁ n₂ : Nat} {k₁ k₂ : List Byte → State}
    (hk : LaneAgrees l n s₁ s₂ (k₁ s₁.payload) (k₂ s₂.payload)) :
    LaneAgrees l n s₁ s₂ (s₁.beginPayload legal n₁ k₁) (s₂.beginPayload legal n₂ k₂) :=
  hk.of_completed (beginPayload_of_completed h.running₁) (beginPayload_of_completed h.running₂)

theorem SameLane.source {r : Reg} {k₁ k₂ : List Triple → State}
    (hk : ∀ {x y}, SameAt l x y → LaneAgrees l n s₁ s₂ (k₁ x) (k₂ y)) :
    LaneAgrees l n s₁ s₂ (s₁.source r k₁) (s₂.source r k₂) := by
  intro h₁ h₂
  obtain ⟨x, hx, e₁⟩ := source_of_completed h₁
  obtain ⟨y, hy, e₂⟩ := source_of_completed h₂
  rw [e₁] at h₁ ⊢
  rw [e₂] at h₂ ⊢
  exact hk (h.readReg hx hy) h₁ h₂

theorem SameLane.sourcePair {r : Reg} {k₁ k₂ : List Fp2 → State}
    (hk : ∀ {x y}, SameAt l x y → LaneAgrees l n s₁ s₂ (k₁ x) (k₂ y)) :
    LaneAgrees l n s₁ s₂ (s₁.sourcePair r k₁) (s₂.sourcePair r k₂) :=
  h.source fun hx => h.source fun hy => hk (hx.zip hy)

omit h

theorem LaneAgrees.requireRange {b₁ b₂ : Bool} {k₁ k₂ : State} (hk : LaneAgrees l n s₁ s₂ k₁ k₂) :
    LaneAgrees l n s₁ s₂ (s₁.requireRange b₁ k₁) (s₂.requireRange b₂ k₂) :=
  hk.of_completed requireRange_of_completed requireRange_of_completed

theorem LaneAgrees.requireSlots {b₁ b₂ : Bool} {k₁ k₂ : State} (hk : LaneAgrees l n s₁ s₂ k₁ k₂) :
    LaneAgrees l n s₁ s₂ (s₁.requireSlots b₁ k₁) (s₂.requireSlots b₂ k₂) :=
  hk.of_completed requireSlots_of_completed requireSlots_of_completed

end

/-! ### Every command -/

/-- The bytes of one lane's slot in the command's output payload (R44): 0 for a command that answers no payload. -/
def outputSlotBytes : Instr → Nat
  | .enc _ => 16
  | .fp2enc _ => 32
  | _ => 0

/-- Two engines that agree on lane l and on slot l of the payload agree there after any command that both complete. -/
theorem exec_laneAgrees (i : Instr) {l : Nat} {s₁ s₂ : State} (h : SameLane l s₁ s₂)
    (hp : slotOf i.slotBytes l s₂.payload = slotOf i.slotBytes l s₁.payload) :
    ∃ t₁ t₂, exec i s₁ = .next t₁ ∧ exec i s₂ = .next t₂ ∧ LaneAgrees l (outputSlotBytes i) s₁ s₂ t₁ t₂ := by
  cases i with
  | nop => exact ⟨_, _, rfl, rfl, h.beginCommand (h.finish h.zeroMask rfl)⟩
  | zero rd | one rd => exact ⟨_, _, rfl, rfl, h.beginCommand (h.storeReg rd (h.everyLane _))⟩
  | ldi rd => exact ⟨_, _, rfl, rfl, h.beginPayload (h.storeReg rd (((h.slots hp).map _).map _))⟩
  | dec rd => exact ⟨_, _, rfl, rfl, h.beginPayload (h.storeReg rd ((h.slots hp).map _)).requireSlots⟩
  | fp2dec rd => exact ⟨_, _, rfl, rfl, h.beginPayload (h.storePair rd ((h.slots hp).map _)).requireSlots⟩
  | enc ra =>
    exact ⟨_, _, rfl, rfl, h.beginCommand (h.source fun hx => h.finish h.zeroMask (hx.slotOf_flatMap encodeFe_length))⟩
  | fp2enc ra =>
    exact ⟨_, _, rfl, rfl, h.beginCommand (h.sourcePair fun hx =>
      h.finish h.zeroMask (hx.slotOf_flatMap encodeFp2_length))⟩
  | add rd ra rb | sub rd ra rb | mul rd ra rb =>
    exact ⟨_, _, rfl, rfl, h.beginCommand (h.source fun hx => h.source fun hy =>
      (h.storeReg rd (hx.zipWith hy _)).requireRange)⟩
  | neg rd ra | sqr rd ra =>
    exact ⟨_, _, rfl, rfl, h.beginCommand (h.source fun hx => (h.storeReg rd (hx.map _)).requireRange)⟩
  | wred rd ra | canon rd ra =>
    exact ⟨_, _, rfl, rfl, h.beginCommand (h.source fun hx => h.storeReg rd (hx.map _))⟩
  | inv rd ra =>
    exact ⟨_, _, rfl, rfl, h.beginCommand (h.source fun hx =>
      (h.writeReg rd ((hx.map feInv).keepFailing (h.oldLanes rd))).finish ((hx.map feInv).map _) rfl)⟩
  | iszero ra => exact ⟨_, _, rfl, rfl, h.beginCommand (h.source fun hx => h.finish (hx.map _) rfl)⟩
  | eq ra rb =>
    exact ⟨_, _, rfl, rfl, h.beginCommand (h.source fun hx => h.source fun hy => h.finish (hx.zipWith hy _) rfl)⟩
  | fp2add rd ra rb | fp2sub rd ra rb =>
    exact ⟨_, _, rfl, rfl, h.beginCommand (h.sourcePair fun hx => h.sourcePair fun hy =>
      (h.storePair rd (hx.zipWith hy _)).requireRange)⟩
  | fp2mul rd ra rb =>
    refine ⟨_, _, rfl, rfl, h.beginCommand (h.sourcePair fun hx => h.sourcePair fun hy => ?_)⟩
    rw [h.eta]
    exact (h.storePair rd (hx.zipWith hy _)).requireRange
  | fp2sqr rd ra =>
    refine ⟨_, _, rfl, rfl, h.beginCommand (h.sourcePair fun hx => ?_)⟩
    rw [h.eta]
    exact (h.storePair rd (hx.map _)).requireRange
  | fp2inv rd ra =>
    refine ⟨_, _, rfl, rfl, h.beginCommand (h.sourcePair fun hx => ?_)⟩
    rw [h.eta]
    have hresults := hx.map (fp2Inv s₁.cfg.eta)
    have hfirst := (hresults.map (Option.map Prod.fst)).keepFailing (h.oldLanes rd)
    have hsecond := (hresults.map (Option.map Prod.snd)).keepFailing (h.oldLanes (partner rd))
    exact ((h.writeReg rd hfirst).writeReg (partner rd) hsecond).finish (hresults.map _) rfl

/-- The sizes of R44 for the two commands that answer a payload. -/
theorem outputSlotBytes_of_mnemonic {i : Instr} {n : Nat}
    (hn : (i.mnemonic = "ENC" ∧ n = 16) ∨ (i.mnemonic = "FP2ENC" ∧ n = 32)) : outputSlotBytes i = n := by
  cases i <;> simp_all [Instr.mnemonic, outputSlotBytes]

/-- Settles O18. -/
theorem lanesDoNotInteract : Obligations.LanesDoNotInteract := by
  intro i s₁ s₂ t₁ t₂ l hlanes heta hl hf₁ hf₂ hlane hslot ht₁ ht₂ hc₁ hc₂
  obtain ⟨u₁, u₂, hu₁, hu₂, hagrees⟩ := exec_laneAgrees i ⟨hlanes, heta, hl, hf₁, hf₂, hlane⟩ hslot
  obtain rfl : u₁ = t₁ := by simpa [hu₁] using ht₁
  obtain rfl : u₂ = t₂ := by simpa [hu₂] using ht₂
  obtain ⟨hregs, hmask, q₁, q₂, hq₁, hq₂, hq⟩ := hagrees hc₁ hc₂
  refine ⟨hregs, hmask, q₁, q₂, hq₁, hq₂, fun n hn => ?_⟩
  rw [outputSlotBytes_of_mnemonic hn] at hq
  exact hq

end Sys2Proof.Proofs
end

section
/-! PROOFS of the family 30_encoding.md, decoding and encoding. A command is given by four fields (its opcode and three
register numbers, 0 where unused), and a legal word is exactly the word of a well-formed command
(`decodeWord_eq_ok_iff`): both round trips follow. -/

namespace Sys2Proof.Proofs

open Sys2Proof.Machine Sys2Proof.Laws

/-! ### The fields of a command -/

/-- The register number in the field `rd`; 0 where the command does not use it (R57). -/
def rdOf : Instr → Reg
  | .nop | .enc _ | .iszero _ | .eq _ _ | .fp2enc _ => 0
  | .zero rd | .one rd | .ldi rd | .dec rd | .fp2dec rd => rd
  | .neg rd _ | .wred rd _ | .canon rd _ | .sqr rd _ | .inv rd _ | .fp2sqr rd _ | .fp2inv rd _ => rd
  | .add rd _ _ | .sub rd _ _ | .mul rd _ _ | .fp2add rd _ _ | .fp2sub rd _ _ | .fp2mul rd _ _ => rd

/-- The register number in the field `ra`; 0 where the command does not use it (R57). -/
def raOf : Instr → Reg
  | .nop | .zero _ | .one _ | .ldi _ | .dec _ | .fp2dec _ => 0
  | .enc ra | .iszero ra | .eq ra _ | .fp2enc ra => ra
  | .neg _ ra | .wred _ ra | .canon _ ra | .sqr _ ra | .inv _ ra | .fp2sqr _ ra | .fp2inv _ ra => ra
  | .add _ ra _ | .sub _ ra _ | .mul _ ra _ | .fp2add _ ra _ | .fp2sub _ ra _ | .fp2mul _ ra _ => ra

/-- The register number in the field `rb`; 0 where the command does not use it (R57). -/
def rbOf : Instr → Reg
  | .nop | .zero _ | .one _ | .ldi _ | .dec _ | .fp2dec _ | .enc _ | .iszero _ | .fp2enc _ => 0
  | .neg _ _ | .wred _ _ | .canon _ _ | .sqr _ _ | .inv _ _ | .fp2sqr _ _ | .fp2inv _ _ => 0
  | .eq _ rb => rb
  | .add _ _ rb | .sub _ _ rb | .mul _ _ rb | .fp2add _ _ rb | .fp2sub _ _ rb | .fp2mul _ _ rb => rb

/-- The command i has these four fields. -/
def HasFields (i : Instr) (op : Nat) (rd ra rb : Reg) : Prop :=
  opcodeOf i = op ∧ rdOf i = rd ∧ raOf i = ra ∧ rbOf i = rb

theorem opcodeOf_lt (i : Instr) : opcodeOf i < 256 := by cases i <;> simp [opcodeOf]

/-- The encoder puts the four fields of the command into the one format of R56. -/
theorem encode_eq_encodeFields (i : Instr) : encode i = encodeFields (opcodeOf i) (rdOf i) (raOf i) (rbOf i) := by
  cases i <;> rfl

/-- The word of a command has the command's fields, and zeros in bits 11:0. -/
theorem encode_fields (i : Instr) :
    zeroField (encode i) = 0 ∧ HasFields i (opField (encode i)) (rdField (encode i)) (raField (encode i)) (rbField (encode i)) := by
  have hop := opcodeOf_lt i
  rw [encode_eq_encodeFields]
  exact ⟨zeroField_encodeFields _ hop _ _ _, (opField_encodeFields _ hop _ _ _).symm, (rdField_encodeFields _ hop _ _ _).symm,
    (raField_encodeFields _ hop _ _ _).symm, (rbField_encodeFields _ hop _ _ _).symm⟩

/-- A word with zeros in bits 11:0 is the word of the command that has its fields. -/
theorem encode_of_hasFields {i : Instr} {w : Word} (hz : zeroField w = 0)
    (hi : HasFields i (opField w) (rdField w) (raField w) (rbField w)) : encode i = w := by
  obtain ⟨hop, hrd, hra, hrb⟩ := hi
  rw [encode_eq_encodeFields, hop, hrd, hra, hrb, encodeFields_of_fields w hz]

/-! ### Operand shapes -/

section
variable {op : Nat} {rd ra rb : Reg} {i : Instr}

theorem shapeNone_hasFields {c : Instr} (hc : HasFields c op 0 0 0) (h : shapeNone rd ra rb c = .ok i) :
    HasFields i op rd ra rb := by
  unfold shapeNone at h
  split at h <;> cases h
  next hz => obtain ⟨rfl, rfl, rfl⟩ := hz; exact hc

theorem shapeD_hasFields {mk : Reg → Instr} (hc : HasFields (mk rd) op rd 0 0) (h : shapeD rd ra rb mk = .ok i) :
    HasFields i op rd ra rb := by
  unfold shapeD at h
  split at h <;> cases h
  next hz => obtain ⟨rfl, rfl⟩ := hz; exact hc

theorem shapeA_hasFields {mk : Reg → Instr} (hc : HasFields (mk ra) op 0 ra 0) (h : shapeA rd ra rb mk = .ok i) :
    HasFields i op rd ra rb := by
  unfold shapeA at h
  split at h <;> cases h
  next hz => obtain ⟨rfl, rfl⟩ := hz; exact hc

theorem shapeDA_hasFields {mk : Reg → Reg → Instr} (hc : HasFields (mk rd ra) op rd ra 0)
    (h : shapeDA rd ra rb mk = .ok i) : HasFields i op rd ra rb := by
  unfold shapeDA at h
  split at h <;> cases h
  next hz => subst hz; exact hc

theorem shapeAB_hasFields {mk : Reg → Reg → Instr} (hc : HasFields (mk ra rb) op 0 ra rb)
    (h : shapeAB rd ra rb mk = .ok i) : HasFields i op rd ra rb := by
  unfold shapeAB at h
  split at h <;> cases h
  next hz => subst hz; exact hc

theorem shapeDAB_hasFields {mk : Reg → Reg → Reg → Instr} (hc : HasFields (mk rd ra rb) op rd ra rb)
    (h : shapeDAB rd ra rb mk = .ok i) : HasFields i op rd ra rb := by
  cases h; exact hc

end

/-! ### The decoder and the encoder -/

/-- The decoder finds the command of the four fields. -/
theorem decodeFields_of_hasFields (i : Instr) : decodeFields (opcodeOf i) (rdOf i) (raOf i) (rbOf i) = .ok i := by
  cases i <;> rfl

/-- The command the decoder finds has the four fields it was given, unused ones included. -/
theorem hasFields_of_decodeFields {op : Nat} {rd ra rb : Reg} {i : Instr} (h : decodeFields op rd ra rb = .ok i) :
    HasFields i op rd ra rb := by
  have e {c : Instr} : HasFields c (opcodeOf c) (rdOf c) (raOf c) (rbOf c) := ⟨rfl, rfl, rfl, rfl⟩
  unfold decodeFields at h
  split at h
  · exact shapeNone_hasFields e h
  · exact shapeD_hasFields e h
  · exact shapeD_hasFields e h
  · exact shapeD_hasFields e h
  · exact shapeD_hasFields e h
  · exact shapeA_hasFields e h
  · exact shapeDAB_hasFields e h
  · exact shapeDAB_hasFields e h
  · exact shapeDA_hasFields e h
  · exact shapeDA_hasFields e h
  · exact shapeDA_hasFields e h
  · exact shapeDAB_hasFields e h
  · exact shapeDA_hasFields e h
  · exact shapeDA_hasFields e h
  · exact shapeA_hasFields e h
  · exact shapeAB_hasFields e h
  · exact shapeD_hasFields e h
  · exact shapeA_hasFields e h
  · exact shapeDAB_hasFields e h
  · exact shapeDAB_hasFields e h
  · exact shapeDAB_hasFields e h
  · exact shapeDA_hasFields e h
  · exact shapeDA_hasFields e h
  · cases h

/-- R59 lets a command through exactly when it is well-formed. -/
theorem requirePairs_eq_ok_iff {c i : Instr} : requirePairs c = .ok i ↔ c = i ∧ i.wellFormed = true := by
  unfold requirePairs
  by_cases hc : c.wellFormed = true
  · rw [if_pos hc, Except.ok.injEq]
    exact ⟨fun e => ⟨e, e ▸ hc⟩, And.left⟩
  · rw [if_neg hc]
    exact ⟨nofun, fun ⟨e, hi⟩ => absurd (e ▸ hi) hc⟩

/-- The legal words are the words of the well-formed commands, and each decodes to its command alone. -/
theorem decodeWord_eq_ok_iff {w : Word} {i : Instr} : decodeWord w = .ok i ↔ i.wellFormed = true ∧ encode i = w := by
  constructor
  · intro h
    unfold decodeWord at h
    split at h
    · cases h
    next hz =>
      cases hd : decodeFields (opField w) (rdField w) (raField w) (rbField w) with
      | error _ => rw [hd] at h; cases h
      | ok c =>
        rw [hd] at h
        obtain ⟨rfl, hwf⟩ := requirePairs_eq_ok_iff.mp h
        exact ⟨hwf, encode_of_hasFields (not_not.mp hz) (hasFields_of_decodeFields hd)⟩
  · rintro ⟨hwf, rfl⟩
    rw [encode_eq_encodeFields, decodeWord_encodeFields _ (opcodeOf_lt i), decodeFields_of_hasFields]
    exact requirePairs_eq_ok_iff.mpr ⟨rfl, hwf⟩

/-! ### Serialised words -/

/-- The bytes of a word are its four slices, byte 0 first (R53). -/
theorem wordBytes_eq_slices (w : Word) :
    wordBytes w = [w.extractLsb' 0 8, w.extractLsb' 8 8, w.extractLsb' 16 8, w.extractLsb' 24 8] := by
  have slice (hi lo : Nat) (h : hi - lo + 1 = 8) : BitVec.ofNat 8 (bits w hi lo) = w.extractLsb' lo 8 := by
    apply BitVec.eq_of_toNat_eq
    simp [bits, h, Nat.shiftRight_eq_div_pow]
  simp only [wordBytes, slice 7 0 rfl, slice 15 8 rfl, slice 23 16 rfl, slice 31 24 rfl]

/-- The four slices of a word make up the word (R53). -/
theorem wordOfBytes_slices (w : Word) :
    wordOfBytes (w.extractLsb' 0 8) (w.extractLsb' 8 8) (w.extractLsb' 16 8) (w.extractLsb' 24 8) = w := by
  apply BitVec.eq_of_toNat_eq
  have hw := w.isLt
  simp only [wordOfBytes, BitVec.toNat_ofNat, BitVec.extractLsb'_toNat, Nat.shiftRight_eq_div_pow]
  omega

theorem decodeBytes_slices (w : Word) :
    decodeBytes [w.extractLsb' 0 8, w.extractLsb' 8 8, w.extractLsb' 16 8, w.extractLsb' 24 8] = decodeWord w := by
  rw [decodeBytes, wordOfBytes_slices]

/-- Settles O1. -/
theorem decodeAfterEncodeGivesTheCommand : Obligations.DecodeAfterEncodeGivesTheCommand := by
  refine ⟨fun i hi => ?_, fun w => ⟨wordBytes_eq_slices w, decodeBytes_slices w⟩⟩
  have hd : decodeWord (encode i) = .ok i := decodeWord_eq_ok_iff.mpr ⟨hi, rfl⟩
  exact ⟨hd, by rw [wordBytes_eq_slices, decodeBytes_slices, hd]⟩

/-- Settles O2. -/
theorem encodeAfterDecodeGivesTheWord : Obligations.EncodeAfterDecodeGivesTheWord :=
  fun _ _ => decodeWord_eq_ok_iff.mp

end Sys2Proof.Proofs
end

section
/-! PROOFS of the family 30_encoding.md, the opcode table. Match and mask of a row are read field by field
(`and_matchAndMask_iff`), and so are the clauses of R61 (`illegalWord_iff_not_fits`); both come down to whether a word fits
an entry of the opcode map. -/

namespace Sys2Proof.Proofs

open Sys2Proof.Machine Sys2Proof.Laws

/-! ### Masks, field by field (R66) -/

theorem bits_and (w m : Word) (hi lo : Nat) : bits (w &&& m) hi lo = bits w hi lo &&& bits m hi lo := by
  simp only [bits, BitVec.toNat_and, Nat.and_div_two_pow, Nat.and_mod_two_pow]

/-- The five fields of R56 make up a word. -/
theorem toNat_eq_fields (w : Word) : w.toNat =
    opField w * 2 ^ 24 + bits w 23 20 * 2 ^ 20 + bits w 19 16 * 2 ^ 16 + bits w 15 12 * 2 ^ 12 + zeroField w := by
  have hw := w.isLt
  simp only [zeroField, opField, bits]
  omega

/-- Two words are equal exactly when their five fields are. -/
theorem word_eq_iff_fields (v w : Word) :
    v = w ↔ zeroField v = zeroField w ∧ opField v = opField w ∧ bits v 23 20 = bits w 23 20 ∧
      bits v 19 16 = bits w 19 16 ∧ bits v 15 12 = bits w 15 12 := by
  refine ⟨fun e => by simp [e], fun ⟨hz, hop, hd, ha, hb⟩ => BitVec.eq_of_toNat_eq ?_⟩
  rw [toNat_eq_fields v, toNat_eq_fields w, hz, hop, hd, ha, hb]

theorem rdField_val (w : Word) : (rdField w).val = bits w 23 20 := Nat.mod_eq_of_lt (Nat.mod_lt _ (by decide))
theorem raField_val (w : Word) : (raField w).val = bits w 19 16 := Nat.mod_eq_of_lt (Nat.mod_lt _ (by decide))
theorem rbField_val (w : Word) : (rbField w).val = bits w 15 12 := Nat.mod_eq_of_lt (Nat.mod_lt _ (by decide))

/-- The mask that fixes the opcode, bits 11:0 and the given bits of the register fields. -/
def maskWord (d a b : Nat) : Word := BitVec.ofNat 32 (0xFF000FFF + d * 2 ^ 20 + a * 2 ^ 16 + b * 2 ^ 12)

/-- The match that asks for the opcode and zeros. -/
def opcodeWord (op : Nat) : Word := BitVec.ofNat 32 (op * 2 ^ 24)

theorem maskWord_fields {d a b : Nat} (hd : d < 16) (ha : a < 16) (hb : b < 16) :
    zeroField (maskWord d a b) = 2 ^ 12 - 1 ∧ opField (maskWord d a b) = 2 ^ 8 - 1 ∧ bits (maskWord d a b) 23 20 = d ∧
      bits (maskWord d a b) 19 16 = a ∧ bits (maskWord d a b) 15 12 = b := by
  simp only [maskWord, zeroField, opField, bits, BitVec.toNat_ofNat]
  omega

theorem opcodeWord_fields {op : Nat} (h : op < 256) :
    zeroField (opcodeWord op) = 0 ∧ opField (opcodeWord op) = op ∧ bits (opcodeWord op) 23 20 = 0 ∧
      bits (opcodeWord op) 19 16 = 0 ∧ bits (opcodeWord op) 15 12 = 0 := by
  simp only [opcodeWord, zeroField, opField, bits, BitVec.toNat_ofNat]
  omega

theorem zeroField_and_mask (w : Word) : zeroField w &&& 2 ^ 12 - 1 = zeroField w :=
  Nat.and_two_pow_sub_one_of_lt_two_pow (Nat.mod_lt _ (by decide))

theorem opField_and_mask (w : Word) : opField w &&& 2 ^ 8 - 1 = opField w :=
  Nat.and_two_pow_sub_one_of_lt_two_pow (Nat.mod_lt _ (by decide))

/-- What it means that (w AND mask) = match, field by field. -/
theorem and_maskWord_eq_iff (w : Word) {op d a b : Nat} (hop : op < 256) (hd : d < 16) (ha : a < 16) (hb : b < 16) :
    w &&& maskWord d a b = opcodeWord op ↔ zeroField w = 0 ∧ opField w = op ∧ (rdField w).val &&& d = 0 ∧
      (raField w).val &&& a = 0 ∧ (rbField w).val &&& b = 0 := by
  obtain ⟨mz, mop, md, ma, mb⟩ := maskWord_fields hd ha hb
  obtain ⟨pz, pop, pd, pa, pb⟩ := opcodeWord_fields hop
  have hz : zeroField (w &&& maskWord d a b) = zeroField w := by
    rw [zeroField, bits_and]; exact (congrArg _ mz).trans (zeroField_and_mask w)
  have ho : opField (w &&& maskWord d a b) = opField w := by
    rw [opField, bits_and]; exact (congrArg _ mop).trans (opField_and_mask w)
  rw [word_eq_iff_fields, hz, ho, bits_and, bits_and, bits_and, md, ma, mb, pz, pop, pd, pa, pb, rdField_val, raField_val,
    rbField_val]

/-! ### The opcode map, field by field (R60, R66) -/

/-- The bits of a register field that a row fixes: all of an unused one, bit 0 of one that names a pair. -/
def fixedBits (op : Nat) (used : Bool) : Nat := if used = false then 0xF else if 0x23 ≤ op then 1 else 0

/-- The register field may hold r: 0 where unused, an even number in an Fp2 command (R57, R59). -/
def Allows (op : Nat) (used : Bool) (r : Reg) : Prop := (used = false → r = 0) ∧ (0x23 ≤ op → r.val % 2 = 0)

/-- The word is the word of the opcode map's entry, field by field. -/
def Fits (w : Word) (e : Nat × Bool × Bool × Bool) : Prop :=
  zeroField w = 0 ∧ opField w = e.1 ∧ Allows e.1 e.2.1 (rdField w) ∧ Allows e.1 e.2.2.1 (raField w) ∧
    Allows e.1 e.2.2.2 (rbField w)

/-- Match and mask of the opcode map's entry (R66). -/
def matchAndMask (e : Nat × Bool × Bool × Bool) : Word × Word :=
  (opcodeWord e.1, maskWord (fixedBits e.1 e.2.1) (fixedBits e.1 e.2.2.1) (fixedBits e.1 e.2.2.2))

theorem fixedBits_lt (op : Nat) (used : Bool) : fixedBits op used < 16 := by
  unfold fixedBits
  split_ifs <;> decide

theorem and_fixedBits_eq_zero_iff (op : Nat) (used : Bool) (r : Reg) : r.val &&& fixedBits op used = 0 ↔ Allows op used r := by
  unfold fixedBits Allows
  cases used with
  | false =>
    have hr : r.val &&& 0xF = r.val := Nat.and_two_pow_sub_one_of_lt_two_pow (n := 4) r.isLt
    rw [if_pos rfl, hr]
    exact ⟨fun h => ⟨fun _ => Fin.ext h, fun _ => by rw [h]⟩, fun h => congrArg Fin.val (h.1 rfl)⟩
  | true =>
    by_cases hop : 0x23 ≤ op <;> simp [hop]

theorem opcodeMap_opcode_lt : ∀ e ∈ opcodeMap, e.1 < 256 := by decide

theorem opcodeMap_opcode_injective : ∀ e ∈ opcodeMap, ∀ e' ∈ opcodeMap, e.1 = e'.1 → e = e' := by decide

/-- An entry's match and mask pick out the words that fit it. -/
theorem and_matchAndMask_iff (w : Word) {e : Nat × Bool × Bool × Bool} (he : e ∈ opcodeMap) :
    w &&& (matchAndMask e).2 = (matchAndMask e).1 ↔ Fits w e := by
  unfold matchAndMask
  rw [and_maskWord_eq_iff w (opcodeMap_opcode_lt e he) (fixedBits_lt _ _) (fixedBits_lt _ _) (fixedBits_lt _ _)]
  simp only [and_fixedBits_eq_zero_iff, Fits]

/-! ### The opcode map and the commands -/

/-- Whether the command uses rd, ra, rb (R60). -/
def usedFields : Instr → Bool × Bool × Bool
  | .nop => (false, false, false)
  | .zero _ | .one _ | .ldi _ | .dec _ | .fp2dec _ => (true, false, false)
  | .enc _ | .iszero _ | .fp2enc _ => (false, true, false)
  | .neg _ _ | .wred _ _ | .canon _ _ | .sqr _ _ | .inv _ _ | .fp2sqr _ _ | .fp2inv _ _ => (true, true, false)
  | .eq _ _ => (false, true, true)
  | .add _ _ _ | .sub _ _ _ | .mul _ _ _ | .fp2add _ _ _ | .fp2sub _ _ _ | .fp2mul _ _ _ => (true, true, true)

/-- The opcode map has an entry for every command. -/
theorem opcodeOf_usedFields_mem (i : Instr) : (opcodeOf i, usedFields i) ∈ opcodeMap := by
  cases i <;> exact List.contains_iff_mem.mp rfl

/-- The fields a command does not use are 0 (R57). -/
theorem unusedFields_eq_zero (i : Instr) : ((usedFields i).1 = false → rdOf i = 0) ∧
    ((usedFields i).2.1 = false → raOf i = 0) ∧ ((usedFields i).2.2 = false → rbOf i = 0) := by
  cases i <;> simp [usedFields, rdOf, raOf, rbOf]

/-- An entry and three register numbers, 0 where unused, are the fields of a command. -/
theorem exists_hasFields : ∀ e ∈ opcodeMap, ∀ rd ra rb : Reg, (e.2.1 = false → rd = 0) → (e.2.2.1 = false → ra = 0) →
    (e.2.2.2 = false → rb = 0) → ∃ i, HasFields i e.1 rd ra rb := by
  simp only [opcodeMap, List.forall_mem_cons]
  exact
   ⟨fun _ _ _ d a b => ⟨.nop, rfl, (d trivial).symm, (a trivial).symm, (b trivial).symm⟩,
    fun rd _ _ _ a b => ⟨.zero rd, rfl, rfl, (a trivial).symm, (b trivial).symm⟩,
    fun rd _ _ _ a b => ⟨.one rd, rfl, rfl, (a trivial).symm, (b trivial).symm⟩,
    fun rd _ _ _ a b => ⟨.ldi rd, rfl, rfl, (a trivial).symm, (b trivial).symm⟩,
    fun rd _ _ _ a b => ⟨.dec rd, rfl, rfl, (a trivial).symm, (b trivial).symm⟩,
    fun _ ra _ d _ b => ⟨.enc ra, rfl, (d trivial).symm, rfl, (b trivial).symm⟩,
    fun rd ra rb _ _ _ => ⟨.add rd ra rb, rfl, rfl, rfl, rfl⟩,
    fun rd ra rb _ _ _ => ⟨.sub rd ra rb, rfl, rfl, rfl, rfl⟩,
    fun rd ra _ _ _ b => ⟨.neg rd ra, rfl, rfl, rfl, (b trivial).symm⟩,
    fun rd ra _ _ _ b => ⟨.wred rd ra, rfl, rfl, rfl, (b trivial).symm⟩,
    fun rd ra _ _ _ b => ⟨.canon rd ra, rfl, rfl, rfl, (b trivial).symm⟩,
    fun rd ra rb _ _ _ => ⟨.mul rd ra rb, rfl, rfl, rfl, rfl⟩,
    fun rd ra _ _ _ b => ⟨.sqr rd ra, rfl, rfl, rfl, (b trivial).symm⟩,
    fun rd ra _ _ _ b => ⟨.inv rd ra, rfl, rfl, rfl, (b trivial).symm⟩,
    fun _ ra _ d _ b => ⟨.iszero ra, rfl, (d trivial).symm, rfl, (b trivial).symm⟩,
    fun _ ra rb d _ _ => ⟨.eq ra rb, rfl, (d trivial).symm, rfl, rfl⟩,
    fun rd _ _ _ a b => ⟨.fp2dec rd, rfl, rfl, (a trivial).symm, (b trivial).symm⟩,
    fun _ ra _ d _ b => ⟨.fp2enc ra, rfl, (d trivial).symm, rfl, (b trivial).symm⟩,
    fun rd ra rb _ _ _ => ⟨.fp2add rd ra rb, rfl, rfl, rfl, rfl⟩,
    fun rd ra rb _ _ _ => ⟨.fp2sub rd ra rb, rfl, rfl, rfl, rfl⟩,
    fun rd ra rb _ _ _ => ⟨.fp2mul rd ra rb, rfl, rfl, rfl, rfl⟩,
    fun rd ra _ _ _ b => ⟨.fp2sqr rd ra, rfl, rfl, rfl, (b trivial).symm⟩,
    fun rd ra _ _ _ b => ⟨.fp2inv rd ra, rfl, rfl, rfl, (b trivial).symm⟩, nofun⟩

/-- R59 by the fields: an Fp2 command, whose opcode is 0x23 or more, has even numbers in all of them. -/
theorem wellFormed_iff_even (i : Instr) : i.wellFormed = true ↔
    (0x23 ≤ opcodeOf i → (rdOf i).val % 2 = 0 ∧ (raOf i).val % 2 = 0 ∧ (rbOf i).val % 2 = 0) := by
  cases i <;> simp [Instr.wellFormed, evenReg, opcodeOf, rdOf, raOf, rbOf, and_assoc]

/-- A word is legal exactly when it fits an entry of the opcode map. -/
theorem legal_iff_fits (w : Word) : (∃ i, decodeWord w = .ok i) ↔ ∃ e ∈ opcodeMap, Fits w e := by
  constructor
  · rintro ⟨i, hd⟩
    obtain ⟨hwf, rfl⟩ := decodeWord_eq_ok_iff.mp hd
    obtain ⟨hz, hop, hrd, hra, hrb⟩ := encode_fields i
    obtain ⟨ud, ua, ub⟩ := unusedFields_eq_zero i
    have even := (wellFormed_iff_even i).mp hwf
    refine ⟨(opcodeOf i, usedFields i), opcodeOf_usedFields_mem i, hz, hop.symm, ?_⟩
    rw [← hrd, ← hra, ← hrb]
    exact ⟨⟨ud, fun h => (even h).1⟩, ⟨ua, fun h => (even h).2.1⟩, ⟨ub, fun h => (even h).2.2⟩⟩
  · rintro ⟨e, he, hz, hop, ⟨ud, vd⟩, ⟨ua, va⟩, ⟨ub, vb⟩⟩
    obtain ⟨i, hi⟩ := exists_hasFields e he _ _ _ ud ua ub
    rw [← hop] at hi
    refine ⟨i, decodeWord_eq_ok_iff.mpr ⟨(wellFormed_iff_even i).mpr fun h => ?_, encode_of_hasFields hz hi⟩⟩
    obtain ⟨iop, ird, ira, irb⟩ := hi
    rw [ird, ira, irb]
    rw [iop, hop] at h
    exact ⟨vd h, va h, vb h⟩

/-- A clause of R61 (a) to (d) holds of a word exactly when the word fits no entry; that no opcode stands in two entries
decides which entry the clauses (c) and (d) speak of. -/
theorem illegalWord_iff_not_fits (w : Word) : IllegalWord w ↔ ¬ ∃ e ∈ opcodeMap, Fits w e := by
  constructor
  · rintro h ⟨e, he, hz, hop, ⟨ud, vd⟩, ⟨ua, va⟩, ⟨ub, vb⟩⟩
    rcases h with h | h | ⟨e', he', hop', h⟩
    · exact h hz
    · exact h e he hop
    · obtain rfl := opcodeMap_opcode_injective e he e' he' (hop.symm.trans hop')
      rcases h with ⟨hu, hr⟩ | ⟨hu, hr⟩ | ⟨hu, hr⟩ | ⟨hge, hodd⟩
      · exact hr (ud hu)
      · exact hr (ua hu)
      · exact hr (ub hu)
      · rw [vd hge, va hge, vb hge] at hodd
        simp at hodd
  · intro h
    by_contra hl
    simp only [IllegalWord, not_or, not_not, not_forall, not_exists, not_and] at hl
    obtain ⟨hz, ⟨e, he, hop⟩, hrow⟩ := hl
    obtain ⟨ud, ua, ub, hodd⟩ := hrow e he hop
    have even (hge : 0x23 ≤ e.1) :
        (rdField w).val % 2 = 0 ∧ (raField w).val % 2 = 0 ∧ (rbField w).val % 2 = 0 := by
      have := hodd hge
      omega
    exact h ⟨e, he, hz, hop, ⟨ud, fun hge => (even hge).1⟩, ⟨ua, fun hge => (even hge).2.1⟩,
      ⟨ub, fun hge => (even hge).2.2⟩⟩

/-- A word decodes to no command exactly when a clause of R61 (a) to (d) holds of it. -/
theorem illegal_iff_illegalWord (w : Word) : (∃ e, decodeWord w = .error e) ↔ IllegalWord w := by
  rw [illegalWord_iff_not_fits, ← legal_iff_fits]
  cases decodeWord w <;> simp

/-! ### The opcode table -/

/-- The table's matches and masks are those of the opcode map. -/
theorem opcodeTable_eq_map : opcodeTable.map (fun row => (row.pattern, row.mask)) = opcodeMap.map matchAndMask := by decide

/-- A row is known by the opcode in its match. -/
theorem opcodeTable_opcode_injective :
    ∀ row ∈ opcodeTable, ∀ row' ∈ opcodeTable, opField row.pattern = opField row'.pattern → row = row' := by decide

theorem covers_iff (row : OpcodeRow) (w : Word) : row.covers w = true ↔ w &&& row.mask = row.pattern := by
  simp [OpcodeRow.covers]

/-- A row covers the words that fit its entry of the opcode map. -/
theorem exists_entry_of_row {row : OpcodeRow} (hrow : row ∈ opcodeTable) :
    ∃ e ∈ opcodeMap, row.pattern = opcodeWord e.1 ∧ ∀ w, row.covers w = true ↔ Fits w e := by
  have hmem : (row.pattern, row.mask) ∈ opcodeMap.map matchAndMask :=
    opcodeTable_eq_map ▸ List.mem_map_of_mem (f := fun row => (row.pattern, row.mask)) hrow
  obtain ⟨e, he, heq⟩ := List.mem_map.mp hmem
  refine ⟨e, he, (congrArg Prod.fst heq).symm, fun w => ?_⟩
  rw [covers_iff, ← and_matchAndMask_iff w he, heq]

/-- Every entry of the opcode map has a row. -/
theorem exists_row_of_entry {e : Nat × Bool × Bool × Bool} (he : e ∈ opcodeMap) :
    ∃ row ∈ opcodeTable, ∀ w, row.covers w = true ↔ Fits w e := by
  have hmem : matchAndMask e ∈ opcodeTable.map fun row => (row.pattern, row.mask) :=
    opcodeTable_eq_map ▸ List.mem_map_of_mem he
  obtain ⟨row, hrow, heq⟩ := List.mem_map.mp hmem
  refine ⟨row, hrow, fun w => ?_⟩
  rw [covers_iff, ← and_matchAndMask_iff w he, ← heq]

/-- A row that covers the word has the word's opcode in its match. -/
theorem opField_pattern_of_covers {row : OpcodeRow} (hrow : row ∈ opcodeTable) {w : Word} (h : row.covers w = true) :
    opField row.pattern = opField w := by
  obtain ⟨e, he, hp, hc⟩ := exists_entry_of_row hrow
  obtain ⟨-, hop, -⟩ := (hc w).mp h
  obtain ⟨-, hop', -⟩ := opcodeWord_fields (opcodeMap_opcode_lt e he)
  rw [hp, hop', hop]

/-- A word is legal exactly when a row covers it (R66). -/
theorem legal_iff_covered (w : Word) : (∃ i, decodeWord w = .ok i) ↔ ∃ row ∈ opcodeTable, row.covers w = true := by
  rw [legal_iff_fits]
  constructor
  · rintro ⟨e, he, hw⟩
    obtain ⟨row, hrow, hc⟩ := exists_row_of_entry he
    exact ⟨row, hrow, (hc w).mpr hw⟩
  · rintro ⟨row, hrow, hw⟩
    obtain ⟨e, he, -, hc⟩ := exists_entry_of_row hrow
    exact ⟨e, he, (hc w).mp hw⟩

/-- A word is covered by one row at most (R66). -/
theorem covering_row_unique {row row' : OpcodeRow} (hrow : row ∈ opcodeTable) (hrow' : row' ∈ opcodeTable) {w : Word}
    (h : row.covers w = true) (h' : row'.covers w = true) : row = row' :=
  opcodeTable_opcode_injective row hrow row' hrow'
    ((opField_pattern_of_covers hrow h).trans (opField_pattern_of_covers hrow' h').symm)

/-- The table, in the order of the opcode map, lists the command's mnemonic with its opcode. -/
theorem exists_row_of_mnemonic (i : Instr) :
    ∃ row ∈ opcodeTable, row.mnemonic = i.mnemonic ∧ opField row.pattern = opcodeOf i := by
  have hplace : (opcodeTable.map fun row => (row.mnemonic, opField row.pattern))[opcodeMap.findIdx (·.1 == opcodeOf i)]? =
      some (i.mnemonic, opcodeOf i) := by
    cases i <;> rfl
  obtain ⟨row, hrow, heq⟩ := List.mem_map.mp (List.mem_of_getElem? hplace)
  obtain ⟨hname, hop⟩ := Prod.mk.inj heq
  exact ⟨row, hrow, hname, hop⟩

/-- The row that covers a legal word has the mnemonic of its command. -/
theorem covering_row_mnemonic {w : Word} {i : Instr} (hd : decodeWord w = .ok i) :
    ∃ row ∈ opcodeTable, row.covers w = true ∧ row.mnemonic = i.mnemonic := by
  obtain ⟨row, hrow, hw⟩ := (legal_iff_covered w).mp ⟨i, hd⟩
  obtain ⟨row', hrow', hname, hop'⟩ := exists_row_of_mnemonic i
  obtain ⟨-, rfl⟩ := decodeWord_eq_ok_iff.mp hd
  obtain ⟨-, hop, -⟩ := encode_fields i
  obtain rfl := opcodeTable_opcode_injective row hrow row' hrow'
    ((opField_pattern_of_covers hrow hw).trans (hop.symm.trans hop'.symm))
  exact ⟨row, hrow, hw, hname⟩

/-! ### The registers of a decoded command -/

/-- The destination of a command is the register of its field `rd`, or the pair that begins there. -/
theorem destinations_cases (i : Instr) :
    i.destinations = [] ∨ i.destinations = [rdOf i] ∨ i.destinations = [rdOf i, partner (rdOf i)] := by
  cases i <;> simp [Instr.destinations, rdOf]

/-- The first source of a command is in its field `ra`, the second in its field `rb`. -/
theorem sources_cases (i : Instr) :
    i.sources = [] ∨ i.sources = [raOf i] ∨ i.sources = [raOf i, rbOf i] ∨ i.sources = [raOf i, partner (raOf i)] ∨
      i.sources = [raOf i, partner (raOf i), rbOf i, partner (rbOf i)] := by
  cases i <;> simp [Instr.sources, raOf, rbOf]

/-- Settles O3. -/
theorem legalWordsMatchExactlyOneTableRow : Obligations.LegalWordsMatchExactlyOneTableRow := by
  refine ⟨opcodeTable_eq_map, fun w => ⟨illegal_iff_illegalWord w, legal_iff_covered w,
    fun _ hrow _ hrow' => covering_row_unique hrow hrow', fun i hd => ⟨covering_row_mnemonic hd, ?_⟩⟩⟩
  obtain ⟨-, rfl⟩ := decodeWord_eq_ok_iff.mp hd
  obtain ⟨-, -, hrd, hra, hrb⟩ := encode_fields i
  rw [← hrd, ← hra, ← hrb]
  exact ⟨destinations_cases i, sources_cases i⟩

end Sys2Proof.Proofs
end

section
/-! PROOFS of the family 30_encoding.md, the step on a command word: it runs the decoded command, and it rejects
an illegal one. -/

namespace Sys2Proof.Proofs

open Sys2Proof.Machine Sys2Proof.Laws

/-! ### A step on a word -/

/-- The step on a word that decodes runs the command (R67). -/
theorem step_of_legal {s : State} {w : Word} {bytes : List Byte} {rest : List HostMove} {i : Instr}
    (hh : s.host = .command w bytes :: rest) (hd : decodeWord w = .ok i) : step s = exec i (s.present bytes rest) := by
  simp [step, State.fetch, hh, hd]

/-- The step on a word that does not decode refuses it (R67). -/
theorem step_of_illegal {s : State} {w : Word} {bytes : List Byte} {rest : List HostMove} {e : Illegal}
    (hh : s.host = .command w bytes :: rest) (hd : decodeWord w = .error e) :
    step s = .next (s.present bytes rest).rejectIllegal := by
  simp [step, State.fetch, hh, hd]

/-- Settles O5. -/
theorem stepRunsTheDecodedCommand : Obligations.StepRunsTheDecodedCommand :=
  fun _ _ _ _ _ hh hd => ⟨step_of_legal hh hd, rfl⟩

/-! ### Illegal commands -/

/-- Every command begins with the check of its registers (R59), and with the check that its payload is absent, or of
the right length, as R43 says. -/
theorem exec_begins (i : Instr) (s : State) :
    (i.slotBytes = 0 ∧ ∃ k, exec i s = .next (s.beginCommand i.wellFormed k)) ∨
    (i.slotBytes ≠ 0 ∧ ∃ k, exec i s = .next (s.beginPayload i.wellFormed (i.slotBytes * s.cfg.lanes) k)) := by
  cases i
  case ldi => exact .inr ⟨nofun, _, rfl⟩
  case dec => exact .inr ⟨nofun, _, rfl⟩
  case fp2dec => exact .inr ⟨nofun, _, rfl⟩
  all_goals exact .inl ⟨rfl, _, rfl⟩

theorem beginCommand_illegal {s : State} (hf : s.fault = 0) {legal : Bool} (h : legal = false ∨ s.payload ≠ []) (k : State) :
    s.beginCommand legal k = s.fail .illegalCommand := by
  rcases beginCommand_cases s legal k with ⟨hn, -⟩ | ⟨-, -, e⟩ | ⟨-, hl, hp, -⟩
  · exact absurd hf hn
  · exact e
  · rcases h with h | h
    · rw [hl] at h; cases h
    · exact absurd hp h

theorem beginPayload_illegal {s : State} (hf : s.fault = 0) (n : Nat) (k : List Byte → State) :
    s.beginPayload false n k = s.fail .illegalCommand := by
  rcases beginPayload_cases s false n k with ⟨hn, -⟩ | ⟨-, -, e⟩ | ⟨-, hl, -⟩ | ⟨-, hl, -⟩
  · exact absurd hf hn
  · exact e
  · cases hl
  · cases hl

/-- A command that names an odd pair (R61 d), or that comes with a payload it does not take (R61 e), is an illegal command. -/
theorem exec_illegal {i : Instr} {s : State} (hf : s.fault = 0)
    (h : i.wellFormed = false ∨ (i.slotBytes = 0 ∧ s.payload ≠ [])) : exec i s = .next (s.fail .illegalCommand) := by
  rcases exec_begins i s with ⟨-, k, e⟩ | ⟨hn, k, e⟩
  · rw [e, beginCommand_illegal hf (h.imp_right And.right)]
  · rcases h with hw | ⟨hz, -⟩
    · rw [e, hw, beginPayload_illegal hf]
    · exact absurd hz hn

/-- Settles O7. -/
theorem illegalCommandIsRejected : Obligations.IllegalCommandIsRejected := by
  intro s w bytes rest hh hf h
  refine ⟨(s.present bytes rest).fail .illegalCommand, ?_, fail_rejects _ _ hf⟩
  rcases h with hw | ⟨i, hd, hz, hb⟩
  · obtain ⟨e, hd⟩ := (illegal_iff_illegalWord w).mpr hw
    rw [step_of_illegal hh hd]
    exact congrArg _ (beginCommand_illegal (s := s.present bytes rest) hf (.inl rfl) _)
  · rw [step_of_legal hh hd]
    exact exec_illegal hf (.inr ⟨hz, hb⟩)

/-- Settles O8. -/
theorem oddPairTermIsIllegalCommand : Obligations.OddPairTermIsIllegalCommand :=
  fun _ s hw hf => ⟨s.fail .illegalCommand, exec_illegal hf (.inl hw), fail_rejects s _ hf⟩

end Sys2Proof.Proofs
end

section
/-! PROOFS of the family 40_mac_primitive.md: the two halves of the MAC product and their bounds, the emulation of R85
by 26-bit halves, and that no command sees which backend is there. -/

namespace Sys2Proof.Proofs

open Sys2Proof.Machine Sys2Proof.Laws

/-! ### The halves of the product (R80, R81) -/

/-- "So a·b = mac_lo(a, b) + 2^52 · mac_hi(a, b) exactly." (R80) -/
theorem macLo_add_macHi (a b : MacOperand) : macLo a b + 2 ^ 52 * macHi a b = a.toNat * b.toNat :=
  Nat.mod_add_div _ _

theorem macLo_le (a b : MacOperand) : macLo a b ≤ 2 ^ 52 - 1 :=
  Nat.le_sub_one_of_lt (Nat.mod_lt _ (by decide))

/-- The high half grows with the operands. -/
theorem macHi_le_of_le {a b : MacOperand} {m n : Nat} (ha : a.toNat ≤ m) (hb : b.toNat ≤ n) :
    macHi a b ≤ m * n / 2 ^ 52 :=
  Nat.div_le_div_right (Nat.mul_le_mul ha hb)

theorem macHi_le (a b : MacOperand) : macHi a b ≤ 2 ^ 52 - 2 :=
  calc macHi a b ≤ (2 ^ 52 - 1) * (2 ^ 52 - 1) / 2 ^ 52 :=
        macHi_le_of_le (Nat.le_sub_one_of_lt a.isLt) (Nat.le_sub_one_of_lt b.isLt)
    _ = 2 ^ 52 - 2 := by decide

/-- Each bit of excess in both operands costs two bits of the high half (R81). -/
theorem macHi_lt_of_lt {a b : MacOperand} {e : Nat} (ha : a.toNat < 2 ^ (43 + e)) (hb : b.toNat < 2 ^ (43 + e)) :
    macHi a b < 2 ^ (34 + 2 * e) := by
  refine Nat.div_lt_of_lt_mul ?_
  calc a.toNat * b.toNat < 2 ^ (43 + e) * 2 ^ (43 + e) := Nat.mul_lt_mul'' ha hb
    _ = 2 ^ 52 * 2 ^ (34 + 2 * e) := by rw [← pow_add, ← pow_add]; congr 1; omega

/-- Under MUL_LIMIT the high half has 50 bits (R81). -/
theorem macHi_le_of_le_mulLimit {a b : MacOperand} (ha : a.toNat ≤ mulLimit) (hb : b.toNat ≤ mulLimit) :
    macHi a b ≤ 2 ^ 50 - 1 :=
  calc macHi a b ≤ mulLimit * mulLimit / 2 ^ 52 := macHi_le_of_le ha hb
    _ = 2 ^ 50 - 1 := by decide

/-- Settles O25: the bounds above; the two extreme products are computed. -/
theorem macHalvesAreExactAndBounded : Obligations.MacHalvesAreExactAndBounded := by
  intro a b
  refine ⟨⟨rfl, rfl⟩, (macLo_add_macHi a b).symm, macLo_le a b, macHi_le a b, fun _ => macHi_lt_of_lt,
    macHi_le_of_le_mulLimit, fun ha hb => ?_, fun ha hb => ?_⟩
  · rw [macLo, macHi, ha, hb]; decide
  · rw [macLo, macHi, ha, hb]; decide

/-! ### The emulation by 26-bit halves (R85) -/

/-- mid of R85, the sum of the two crosswise products of halves. -/
def crossSum (a b : Nat) : Nat := a / 2 ^ 26 * (b % 2 ^ 26) + a % 2 ^ 26 * (b / 2 ^ 26)

/-- ls of R85: what the halves contribute below the high half, its own carry included. -/
def lowSum (a b : Nat) : Nat := a % 2 ^ 26 * (b % 2 ^ 26) + crossSum a b % 2 ^ 26 * 2 ^ 26

/-- What the halves contribute to hi of R85 besides the carry of ls. -/
def highSum (a b : Nat) : Nat := a / 2 ^ 26 * (b / 2 ^ 26) + crossSum a b / 2 ^ 26

theorem macEmulated_eq_sums (a b : MacOperand) : macEmulated a b =
    (lowSum a.toNat b.toNat % 2 ^ 52, highSum a.toNat b.toNat + lowSum a.toNat b.toNat / 2 ^ 52) := rfl

/-- Schoolbook multiplication in base 2^26, its middle digit split at 2^26. -/
theorem lowSum_add_highSum (a b : Nat) : lowSum a b + 2 ^ 52 * highSum a b = a * b := by
  have hmid := Nat.div_add_mod (crossSum a b) (2 ^ 26)
  calc lowSum a b + 2 ^ 52 * highSum a b
      = a % 2 ^ 26 * (b % 2 ^ 26) + 2 ^ 26 * (2 ^ 26 * (crossSum a b / 2 ^ 26) + crossSum a b % 2 ^ 26) +
          2 ^ 52 * (a / 2 ^ 26 * (b / 2 ^ 26)) := by rw [lowSum, highSum]; ring
    _ = (2 ^ 26 * (a / 2 ^ 26) + a % 2 ^ 26) * (2 ^ 26 * (b / 2 ^ 26) + b % 2 ^ 26) := by rw [hmid, crossSum]; ring
    _ = a * b := by rw [Nat.div_add_mod, Nat.div_add_mod]

/-- Settles O26: the sums of R85 are the product with its multiples of 2^52 set apart, so its residue is that of ls
and its quotient takes the carry of ls. -/
theorem emulatedMacMeetsTheContract : Obligations.EmulatedMacMeetsTheContract := by
  intro a b
  rw [macEmulated_eq_sums, macLo, macHi, ← lowSum_add_highSum, Nat.add_mul_mod_self_left,
    Nat.add_mul_div_left _ _ (by decide), Nat.add_comm (highSum _ _)]

/-! ### The backend parameters (R84) -/

/-- The state s under other backend parameters. -/
def underBackend (b : Backend) (available : Bool) (policy : BackendPolicy) (s : State) : State :=
  { s with cfg := { s.cfg with backend := b, available := available, policy := policy } }

/-- A uniform effect leaves the backend parameters as they are, and nothing else depends on them. -/
theorem uniform_underBackend {s : State} {k : Unread → State} (h : Uniform s k) (n : Unread) (b : Backend)
    (available : Bool) (policy : BackendPolicy) :
    k { n with backend := b, available := available, policy := policy } = underBackend b available policy (k n) := by
  rcases h with h | ⟨_, _, _, _, _, h⟩ <;> rw [h, h n] <;> rfl

/-- Settles O16: the effect of a command, legal or not, is uniform in the backend parameters. -/
theorem backendHasNoEffectOnCommands : Obligations.BackendHasNoEffectOnCommands := by
  intro s t w bytes rest b available policy hh ht
  obtain ⟨k, hk, hu⟩ := step_command_uniform s w bytes
  have hs : step s = .next (k { unreadOf s with host := rest }) := by rw [← hk, ← hh]; rfl
  have hs' : step (underBackend b available policy s) =
      .next (k { unreadOf s with backend := b, available := available, policy := policy, host := rest }) := by
    rw [← hk, underBackend, ← hh]; rfl
  obtain rfl : k { unreadOf s with host := rest } = t := by simpa [hs] using ht
  exact hs'.trans (congrArg _ (uniform_underBackend hu { unreadOf s with host := rest } b available policy))

end Sys2Proof.Proofs
end

section
/-! PROOFS of the family 41_limb_arithmetic.md, the pure functions on triples: the biased difference and its value, the
carry pass and what it does to value and limbs, canonical triples, and the folding algorithm. -/

namespace Sys2Proof.Proofs

open Sys2Proof.Machine Sys2Proof.Laws

/-! ### The biased difference (R91 to R93) -/

/-- The difference of the values plus 2^11·p, without a subtraction that could be cut off at 0. -/
theorem val_feSub_add_val {x y : Triple} (hy : limbsLe y bias = true) :
    val (feSub x y) + val y = val x + 2 ^ 11 * modulus := by
  obtain ⟨h0, h1, h2⟩ := (limbsLe_iff y bias).mp hy
  simp only [bias] at h0 h1 h2
  simp only [val, feSub, bias, modulus]
  omega

/-- Settles O27: the value over the integers is that of the lemma above, and 2^11·p vanishes mod p. -/
theorem biasedDifferenceHasTheRightValue : Obligations.BiasedDifferenceHasTheRightValue := by
  refine ⟨by decide, fun x y h0 h1 h2 => ?_⟩
  have hy : limbsLe y bias = true := (limbsLe_iff y bias).mpr ⟨h0, h1, h2⟩
  have hsub : ∀ z, (val (feSub z y) : Int) = val z - val y + 2 ^ 11 * (2 ^ 127 - 1) := fun z => by
    have h := val_feSub_add_val (x := z) hy
    simp only [modulus] at h
    omega
  refine ⟨rfl, hsub x, ?_, rfl, ?_⟩
  · rw [hsub x]; exact Int.add_mul_emod_self_right _ _ _
  · have hzero : val ⟨0, 0, 0⟩ = 0 := rfl
    rw [feNeg, hsub, hzero]; omega

/-! ### The carry pass (R94) -/

/-- c2 of R94, the carry out of limb 2, of weight 2^129. -/
def carryOut (x : Triple) : Nat := (x.x2 + (x.x1 + x.x0 / 2 ^ 43) / 2 ^ 43) / 2 ^ 43

theorem pass43_eq (x : Triple) : pass43 x =
    ⟨x.x0 % 2 ^ 43 + 4 * carryOut x, (x.x1 + x.x0 / 2 ^ 43) % 2 ^ 43,
      (x.x2 + (x.x1 + x.x0 / 2 ^ 43) / 2 ^ 43) % 2 ^ 43⟩ :=
  rfl

/-- The carry out is folded back from weight 2^129 to weight 4, which costs 2^129 − 4 = 4p each. -/
theorem val_pass43_add (x : Triple) : val (pass43 x) + modulus * (4 * carryOut x) = val x := by
  simp only [pass43_eq, val, carryOut, modulus]
  omega

theorem residue_pass43 (x : Triple) : residue (pass43 x) = residue x := by
  rw [residue, residue, ← val_pass43_add x, Nat.add_mul_mod_self_left]

/-- After one pass over u64 limbs, limb 0 has a small excess and the others have none. -/
theorem pass43_bounds {x : Triple} (hx : x.below (2 ^ 64) = true) :
    (pass43 x).x0 ≤ 2 ^ 43 - 1 + 2 ^ 23 ∧ (pass43 x).x1 < 2 ^ 43 ∧ (pass43 x).x2 < 2 ^ 43 := by
  obtain ⟨h0, h1, h2⟩ := (below_iff x _).mp hx
  simp only [pass43_eq, carryOut]
  omega

/-- A pass over such a triple leaves no excess: a carry out takes a carry through all three limbs, and then limb 0 is
small. -/
theorem pass43_below {x : Triple} (h0 : x.x0 ≤ 2 ^ 43 - 1 + 2 ^ 23) (h1 : x.x1 < 2 ^ 43) (h2 : x.x2 < 2 ^ 43) :
    (pass43 x).below (2 ^ 43) = true := by
  simp only [below_iff, pass43_eq, carryOut]
  omega

/-- Where no limb has an excess there is no carry. -/
theorem pass43_of_below {x : Triple} (hx : x.below (2 ^ 43) = true) : pass43 x = x := by
  obtain ⟨h0, h1, h2⟩ := (below_iff x _).mp hx
  simp only [pass43_eq, carryOut, Nat.div_eq_of_lt, Nat.mod_eq_of_lt, Nat.add_zero, Nat.mul_zero, h0, h1, h2]

/-! ### Weak reduction (R95, R96) -/

theorem residue_wred (x : Triple) : residue (wred x) = residue x :=
  (residue_pass43 _).trans (residue_pass43 x)

theorem wred_below {x : Triple} (hx : x.below (2 ^ 64) = true) : (wred x).below (2 ^ 43) = true := by
  obtain ⟨h0, h1, h2⟩ := pass43_bounds hx
  exact pass43_below h0 h1 h2

theorem wred_of_below {x : Triple} (hx : x.below (2 ^ 43) = true) : wred x = x := by
  rw [wred, pass43_of_below hx, pass43_of_below hx]

theorem val_lt_of_below {x : Triple} (hx : x.below (2 ^ 43) = true) : val x < 2 ^ 129 := by
  obtain ⟨h0, h1, h2⟩ := (below_iff x _).mp hx
  rw [val]
  omega

/-! ### Canonical triples (R97) -/

/-- The digits of n in base 2^43 add up to n, for the last limb is not cut off. -/
@[simp] theorem val_digits (n : Nat) : val (digits n) = n := by
  simp only [val, digits]
  omega

theorem digits_injective : Function.Injective digits := Function.LeftInverse.injective val_digits

theorem digits_bounds {n : Nat} (hn : n < modulus) :
    (digits n).x0 < 2 ^ 43 ∧ (digits n).x1 < 2 ^ 43 ∧ (digits n).x2 < 2 ^ 41 := by
  simp only [modulus] at hn
  simp only [digits]
  omega

theorem digits_below {n : Nat} (hn : n < modulus) : (digits n).below (2 ^ 43) = true := by
  obtain ⟨h0, h1, h2⟩ := digits_bounds hn
  exact (below_iff _ _).mpr ⟨h0, h1, h2.trans (by decide)⟩

/-- Settles O28: the carry pass keeps the residue, two passes leave no excess, and a third has nothing to carry. -/
theorem weakReductionMeetsItsPostcondition : Obligations.WeakReductionMeetsItsPostcondition := by
  intro x hx
  exact ⟨rfl, wred_below hx, residue_wred x, val_lt_of_below (wred_below hx), by decide, wred_of_below,
    wred_of_below (wred_below hx), fun n hn => wred_of_below (digits_below hn)⟩

/-- Settles O29: val is a left inverse of digits. -/
theorem canonicalTriplesAreUnique : Obligations.CanonicalTriplesAreUnique := by
  refine ⟨fun n hn => ⟨rfl, val_digits n, digits_bounds hn⟩, fun n m _ _ => ?_, by decide⟩
  rw [val_digits, val_digits, digits_injective.eq_iff]

/-! ### Canonical reduction (R98) -/

theorem residue_lt (x : Triple) : residue x < modulus := Nat.mod_lt _ (by decide)

theorem canon_eq_iff (x y : Triple) : canon x = canon y ↔ residue x = residue y := digits_injective.eq_iff

theorem residue_digits {n : Nat} (hn : n < modulus) : residue (digits n) = n := by
  rw [residue, val_digits, Nat.mod_eq_of_lt hn]

theorem canon_digits {n : Nat} (hn : n < modulus) : canon (digits n) = digits n := by
  rw [canon, residue_digits hn]

/-- Settles O30: canonical reduction looks at the residue alone, which a weak reduction keeps. -/
theorem canonicalReductionMeetsItsEquation : Obligations.CanonicalReductionMeetsItsEquation := by
  intro x _
  exact ⟨rfl, canon_digits (residue_lt x), (canon_eq_iff _ _).mpr (residue_wred x), fun n hn => canon_digits hn⟩

/-! ### The folding algorithm (R99) -/

/-- f of R99: 2^127 is 1 mod p. -/
theorem fold_mod_modulus (v : Nat) : (v % 2 ^ 127 + v / 2 ^ 127) % modulus = v % modulus := by
  have hv : v % 2 ^ 127 + v / 2 ^ 127 + modulus * (v / 2 ^ 127) = v := by
    simp only [modulus]
    omega
  calc (v % 2 ^ 127 + v / 2 ^ 127) % modulus
      = (v % 2 ^ 127 + v / 2 ^ 127 + modulus * (v / 2 ^ 127)) % modulus := (Nat.add_mul_mod_self_left _ _ _).symm
    _ = v % modulus := by rw [hv]

/-- "f ≤ (2^127 − 1) + 3 = p + 3" (R99). -/
theorem fold_le {v : Nat} (hv : v < 2 ^ 129) : v % 2 ^ 127 + v / 2 ^ 127 ≤ modulus + 3 := by
  simp only [modulus]
  omega

/-- One conditional subtraction reduces what is below 2p. -/
theorem ite_sub_modulus {f : Nat} (hf : f < 2 * modulus) : (if modulus ≤ f then f - modulus else f) = f % modulus := by
  split
  next h =>
    have hlt : f - modulus < modulus := by omega
    rw [Nat.mod_eq_sub_mod h, Nat.mod_eq_of_lt hlt]
  next h => exact (Nat.mod_eq_of_lt (Nat.lt_of_not_le h)).symm

/-- Settles O31: folding and the subtraction give the residue of the weakly reduced triple. -/
theorem foldingAlgorithmComputesCanon : Obligations.FoldingAlgorithmComputesCanon := by
  intro x hx
  have hv : val (wred x) < 2 ^ 129 := val_lt_of_below (wred_below hx)
  calc canonByFolding x = digits ((val (wred x) % 2 ^ 127 + val (wred x) / 2 ^ 127) % modulus) :=
        congrArg digits (ite_sub_modulus ((fold_le hv).trans_lt (by decide)))
    _ = digits (residue (wred x)) := congrArg digits (fold_mod_modulus _)
    _ = canon x := congrArg digits (residue_wred x)

end Sys2Proof.Proofs
end

section
/-! PROOFS of the family 41_limb_arithmetic.md, the commands: what ADD, SUB, NEG, WRED, CANON, ISZERO and EQ write and
answer when they complete, and that NEG is SUB from zero. -/

namespace Sys2Proof.Proofs

open Sys2Proof.Machine Sys2Proof.Laws

/-! ### A command with a register destination -/

section
variable {s : State} {ra rb : Reg} {x y : Nat → Triple}

/-- A one-operand command without range condition. -/
theorem execUnary_eq_storeReg (hr : s.Ready []) (hx : s.Holds ra x) (F : Triple → Triple) (rd : Reg) :
    (s.beginCommand true <| s.source ra fun xs => s.storeReg rd (xs.map F)) =
      s.storeReg rd ((List.range s.cfg.lanes).map fun l => F (x l)) := by
  rw [beginCommand_ready s hr, source_of_holds s ra x hx, List.map_map]; rfl

/-- A one-operand command whose range condition holds in every lane. -/
theorem execRangedUnary_eq_storeReg (hr : s.Ready []) (hx : s.Holds ra x) {p : Triple → Bool}
    (hp : ∀ l, l < s.cfg.lanes → p (x l) = true) (F : Triple → Triple) (rd : Reg) :
    (s.beginCommand true <| s.source ra fun xs => s.requireRange (everyLaneHolds p xs) <| s.storeReg rd (xs.map F)) =
      s.storeReg rd ((List.range s.cfg.lanes).map fun l => F (x l)) := by
  rw [beginCommand_ready s hr, source_of_holds s ra x hx, (everyLaneHolds_range p x _).mpr hp, List.map_map]; rfl

/-- A two-operand command whose range condition holds in every lane. -/
theorem execRangedBinary_eq_storeReg (hr : s.Ready []) (hx : s.Holds ra x) (hy : s.Holds rb y)
    {p : Triple → Triple → Bool} (hp : ∀ l, l < s.cfg.lanes → p (x l) (y l) = true)
    (F : Triple → Triple → Triple) (rd : Reg) :
    (s.beginCommand true <| s.source ra fun xs => s.source rb fun ys =>
      s.requireRange (everyLaneHolds2 p xs ys) <| s.storeReg rd (List.zipWith F xs ys)) =
      s.storeReg rd ((List.range s.cfg.lanes).map fun l => F (x l) (y l)) := by
  rw [beginCommand_ready s hr, source_of_holds s ra x hx, source_of_holds s rb y hy,
    (everyLaneHolds2_range p x y _).mpr hp, zipWith_range]; rfl

/-- A command that stores f completes with f in its destination, when the limbs fit 64 bits. -/
theorem completes_with_stored {f : Nat → Triple} {rd : Reg} {t : State} (hr : s.Ready [])
    (ht : t = s.storeReg rd ((List.range s.cfg.lanes).map f))
    (hf : ∀ l, l < s.cfg.lanes → (f l).x0 < 2 ^ 64 ∧ (f l).x1 < 2 ^ 64 ∧ (f l).x2 < 2 ^ 64) :
    s.CompletedWith t [rd] .ok s.zeroMask [] ∧ t.Holds rd f := by
  subst ht
  exact ⟨storeReg_completedWith s hr.1 rd _, storeReg_holds s rd f hf⟩

end

/-- What a register holds has limbs of 64 bits (R21). -/
theorem below_of_holds {s : State} {r : Reg} {x : Nat → Triple} (hx : s.Holds r x) {l : Nat} (hl : l < s.cfg.lanes) :
    (x l).below (2 ^ 64) = true :=
  (below_iff _ _).mpr (triple_below s r l _ (hx l hl))

/-- The upper half of the range conditions: what is at most 2^64 − 1 fits a register lane. -/
theorem fits_of_limbsLe {x : Triple} (hx : limbsLe x ⟨limbMax, limbMax, limbMax⟩ = true) :
    x.x0 < 2 ^ 64 ∧ x.x1 < 2 ^ 64 ∧ x.x2 < 2 ^ 64 := by
  obtain ⟨h0, h1, h2⟩ := (limbsLe_iff x _).mp hx
  exact ⟨Nat.lt_of_le_pred (by decide) h0, Nat.lt_of_le_pred (by decide) h1, Nat.lt_of_le_pred (by decide) h2⟩

/-- A triple without excess fits a register lane. -/
theorem fits_of_below {x : Triple} (hx : x.below (2 ^ 43) = true) : x.x0 < 2 ^ 64 ∧ x.x1 < 2 ^ 64 ∧ x.x2 < 2 ^ 64 := by
  obtain ⟨h0, h1, h2⟩ := (below_iff x _).mp hx
  exact ⟨h0.trans (by decide), h1.trans (by decide), h2.trans (by decide)⟩

/-- Settles O46: the range condition is what makes the sums fit. -/
theorem addWritesTheLimbSums : Obligations.AddWritesTheLimbSums := by
  intro s rd ra rb x y hr hx hy hrange
  refine ⟨_, rfl, completes_with_stored hr
    (execRangedBinary_eq_storeReg hr hx hy (fun l hl => ?_) feAdd rd) fun l hl => ?_⟩
  · exact (addInRange_iff _ _).mpr (hrange l hl)
  · exact fits_of_limbsLe ((limbsLe_iff _ _).mpr (hrange l hl))

/-- Settles O47: the range condition is what makes the biased differences fit. -/
theorem subWritesTheBiasedDifferences : Obligations.SubWritesTheBiasedDifferences := by
  intro s rd ra rb x y hr hx hy hrange
  refine ⟨_, rfl, completes_with_stored hr
    (execRangedBinary_eq_storeReg hr hx hy (fun l hl => ?_) feSub rd) fun l hl => ?_⟩
  · exact (subInRange_iff _ _).mpr (hrange l hl)
  · exact fits_of_limbsLe ((limbsLe_iff _ _).mpr (hrange l hl).2)

/-! ### Negation -/

theorem feNeg_eq (x : Triple) : feNeg x = ⟨2 ^ 52 - 2 ^ 11 - x.x0, 2 ^ 52 - 2 ^ 9 - x.x1, 2 ^ 52 - 2 ^ 9 - x.x2⟩ := by
  simp only [feNeg, feSub, bias, Nat.zero_add]

/-- A negation is at most the bias, so it always fits. -/
theorem feNeg_limbsLe (x : Triple) : limbsLe (feNeg x) ⟨limbMax, limbMax, limbMax⟩ = true := by
  simp only [limbsLe_iff, feNeg_eq, limbMax]
  omega

/-- Settles O48: no negation of a legal operand is too large. -/
theorem negWritesTheBiasedNegations : Obligations.NegWritesTheBiasedNegations := by
  intro s rd ra x hr hx hrange
  simp only [← feNeg_eq]
  refine ⟨_, rfl, completes_with_stored hr (execRangedUnary_eq_storeReg hr hx (fun l hl => ?_) feNeg rd) fun l _ => ?_⟩
  · exact (negInRange_iff _).mpr (hrange l hl)
  · exact fits_of_limbsLe (feNeg_limbsLe (x l))

/-- The check of SUB from zero is the check of NEG. -/
theorem subInRange_zero (x : Triple) : subInRange ⟨0, 0, 0⟩ x = negInRange x :=
  (congrArg (limbsLe x bias && ·) (feNeg_limbsLe x)).trans (Bool.and_true _)

theorem everyLaneHolds2_subInRange_zeros (x : List Triple) :
    everyLaneHolds2 subInRange (x.map fun _ => ⟨0, 0, 0⟩) x = everyLaneHolds negInRange x := by
  simp only [everyLaneHolds2, everyLaneHolds, ← List.map_prod_right_eq_zip, List.all_map, Function.comp_def,
    subInRange_zero]

theorem zipWith_feSub_zeros (x : List Triple) : List.zipWith feSub (x.map fun _ => ⟨0, 0, 0⟩) x = x.map feNeg := by
  rw [List.zipWith_map_left, List.zipWith_self]; rfl

/-- Two continuations of a source read that agree on what it answers. -/
theorem source_congr {s : State} {r : Reg} {k k' : List Triple → State}
    (h : ∀ x, s.readReg r = some x → k x = k' x) : s.source r k = s.source r k' := by
  rcases source_cases s r k with ⟨hn, e⟩ | ⟨x, hx, e⟩
  · rw [e, State.source, hn]
  · rw [e, h x hx, State.source, hx]

/-- Settles O58: lane by lane, SUB from zero has the check and the result of NEG; and a source of zeros is written, so
its read adds no fault. -/
theorem negationIsSubtractionFromZero : Obligations.NegationIsSubtractionFromZero := by
  intro s rd ra fz hz
  refine congrArg (fun k => Host.Outcome.next (s.beginCommand true k)) (?_ : s.source ra _ = s.source fz _)
  rw [source_of_holds s fz _ hz]
  refine source_congr fun x hx => ?_
  have hzeros : (List.range s.cfg.lanes).map (fun _ => (⟨0, 0, 0⟩ : Triple)) = x.map fun _ => ⟨0, 0, 0⟩ := by
    rw [List.map_const', List.map_const', List.length_range, readReg_length s ra x hx]
  rw [hzeros, everyLaneHolds2_subInRange_zeros, zipWith_feSub_zeros]

/-! ### Reduction -/

/-- Settles O49: weakly reduced and canonical limbs fit a lane. -/
theorem wredAndCanonReduceEveryLane : Obligations.WredAndCanonReduceEveryLane := by
  intro s rd ra x hr hx
  refine ⟨⟨_, rfl, completes_with_stored hr (execUnary_eq_storeReg hr hx wred rd) fun l hl => ?_⟩,
    ⟨_, rfl, completes_with_stored hr (execUnary_eq_storeReg hr hx canon rd) fun l _ => ?_⟩⟩
  · exact fits_of_below (wred_below (below_of_holds hx hl))
  · exact fits_of_below (digits_below (residue_lt (x l)))

/-! ### Comparison -/

/-- A command without destination changes no register and gives its answer. -/
theorem completes_with_answer {s t : State} (hf : s.fault = 0) {c : Code} {m : List Bool} {q : List Byte}
    (ht : t = s.finish c m q) : s.CompletedWith t [] c m q := by
  subst ht
  exact ⟨⟨rfl, rfl, rfl, fun _ _ => rfl⟩, hf, rfl, rfl, rfl⟩

theorem zeroLanes_range (x : Nat → Triple) (n : Nat) :
    zeroLanes ((List.range n).map x) = (List.range n).map fun l => decide (residue (x l) = 0) := by
  rw [zeroLanes, List.map_map]; rfl

/-- EQ compares canonical triples, which is to compare residues. -/
theorem equalLanes_range (x y : Nat → Triple) (n : Nat) :
    equalLanes ((List.range n).map x) ((List.range n).map y) =
      (List.range n).map fun l => decide (residue (x l) = residue (y l)) := by
  simp only [equalLanes, zipWith_range, beq_eq_decide, canon_eq_iff]

/-- Settles O50: the masks lane by lane; no register is written. -/
theorem iszeroAndEqAnswerTheMask : Obligations.IszeroAndEqAnswerTheMask := by
  intro s ra rb x y hr hx
  refine ⟨⟨_, rfl, completes_with_answer hr.1 ?_⟩, fun hy => ⟨_, rfl, completes_with_answer hr.1 ?_⟩⟩
  · rw [beginCommand_ready s hr, source_of_holds s ra x hx, zeroLanes_range]; rfl
  · rw [beginCommand_ready s hr, source_of_holds s ra x hx, source_of_holds s rb y hy, equalLanes_range]; rfl

end Sys2Proof.Proofs
end

section
/-! PROOFS of the family 42_multiplication.md, the pure functions: the accumulators and their bounds, the product of the
values they stand for, the exponentiation, and the inverse mod p. -/

namespace Sys2Proof.Proofs

open Sys2Proof.Machine Sys2Proof.Laws

/-! ### The MAC on limbs (R120, R86) -/

/-- No limb that the range condition lets through is cut to a MAC operand. -/
theorem macOperand_toNat {a : Nat} (ha : a ≤ mulLimit) : (macOperand a).toNat = a :=
  Nat.mod_eq_of_lt (ha.trans_lt (by decide))

section
variable {a b : Nat}

theorem lo_eq_mod (ha : a ≤ mulLimit) (hb : b ≤ mulLimit) : lo a b = a * b % 2 ^ 52 := by
  rw [lo, macLo, macOperand_toNat ha, macOperand_toNat hb]

theorem hi_eq_div (ha : a ≤ mulLimit) (hb : b ≤ mulLimit) : hi a b = a * b / 2 ^ 52 := by
  rw [hi, macHi, macOperand_toNat ha, macOperand_toNat hb]

theorem lo_add_hi (ha : a ≤ mulLimit) (hb : b ≤ mulLimit) : lo a b + 2 ^ 52 * hi a b = a * b := by
  rw [lo_eq_mod ha hb, hi_eq_div ha hb, Nat.mod_add_div]

theorem lo_le (a b : Nat) : lo a b ≤ 2 ^ 52 - 1 := macLo_le _ _

theorem hi_le (ha : a ≤ mulLimit) (hb : b ≤ mulLimit) : hi a b ≤ 2 ^ 50 - 1 :=
  macHi_le_of_le_mulLimit ((macOperand_toNat ha).trans_le ha) ((macOperand_toNat hb).trans_le hb)

end

/-! ### The accumulators (R120 to R123) -/

section
variable {x y : Triple}

/-- R120: on operands that are not cut, the halves are residue and quotient of the product. -/
theorem mulZ_eq (hx : mulInRange x = true) (hy : mulInRange y = true) :
    let l (a b : Nat) := a * b % 2 ^ 52
    let h (a b : Nat) := a * b / 2 ^ 52
    mulZ x y =
      ⟨l x.x0 y.x0 + 4 * l x.x2 y.x1 + 4 * l x.x1 y.x2 + 2 ^ 11 * h x.x2 y.x0 + 2 ^ 11 * h x.x1 y.x1 + 2 ^ 11 * h x.x0 y.x2,
       l x.x1 y.x0 + l x.x0 y.x1 + 4 * l x.x2 y.x2 + 2 ^ 9 * h x.x0 y.x0 + 2 ^ 11 * h x.x2 y.x1 + 2 ^ 11 * h x.x1 y.x2,
       l x.x2 y.x0 + l x.x1 y.x1 + l x.x0 y.x2 + 2 ^ 9 * h x.x1 y.x0 + 2 ^ 9 * h x.x0 y.x1 + 2 ^ 11 * h x.x2 y.x2⟩ := by
  obtain ⟨x0, x1, x2⟩ := (limbsLe_iff x _).mp hx
  obtain ⟨y0, y1, y2⟩ := (limbsLe_iff y _).mp hy
  simp only [mulZ, lo_eq_mod, hi_eq_div, x0, x1, x2, y0, y1, y2]

/-- R121: nine low halves and three high ones in limb 0, and so on, each at its largest. -/
theorem mulZ_bounds (hx : mulInRange x = true) (hy : mulInRange y = true) :
    (mulZ x y).x0 ≤ 9 * (2 ^ 52 - 1) + 3 * 2 ^ 11 * (2 ^ 50 - 1) ∧
    (mulZ x y).x1 ≤ 6 * (2 ^ 52 - 1) + (2 ^ 9 + 2 * 2 ^ 11) * (2 ^ 50 - 1) ∧
    (mulZ x y).x2 ≤ 3 * (2 ^ 52 - 1) + (2 * 2 ^ 9 + 2 ^ 11) * (2 ^ 50 - 1) := by
  obtain ⟨x0, x1, x2⟩ := (limbsLe_iff x _).mp hx
  obtain ⟨y0, y1, y2⟩ := (limbsLe_iff y _).mp hy
  simp only [mulZ]
  refine ⟨?_, ?_, ?_⟩
  · linarith only [lo_le x.x0 y.x0, lo_le x.x2 y.x1, lo_le x.x1 y.x2, hi_le x2 y0, hi_le x1 y1, hi_le x0 y2]
  · linarith only [lo_le x.x1 y.x0, lo_le x.x0 y.x1, lo_le x.x2 y.x2, hi_le x0 y0, hi_le x2 y1, hi_le x1 y2]
  · linarith only [lo_le x.x2 y.x0, lo_le x.x1 y.x1, lo_le x.x0 y.x2, hi_le x1 y0, hi_le x0 y1, hi_le x2 y2]

/-- The bounds of R121 leave the top bit of a 64-bit accumulator free. -/
theorem mulZ_below (hx : mulInRange x = true) (hy : mulInRange y = true) : (mulZ x y).below (2 ^ 63) = true := by
  obtain ⟨h0, h1, h2⟩ := mulZ_bounds hx hy
  exact (below_iff _ _).mpr ⟨h0.trans_lt (by decide), h1.trans_lt (by decide), h2.trans_lt (by decide)⟩

/-- Settles O33: an accumulator is a sum of halves, each of which is known and bounded; the largest is computed. -/
theorem accumulatorsAreTheirSumsAndDoNotOverflow : Obligations.AccumulatorsAreTheirSumsAndDoNotOverflow := by
  refine ⟨fun x y hx hy => ⟨mulZ_eq hx hy, ?_⟩, by decide⟩
  obtain ⟨h0, h1, h2⟩ := mulZ_bounds hx hy
  exact ⟨h0, h1, h2, mulZ_below hx hy⟩

/-- What the product of the values has at weight 2^129 and above, in units of 2^129: the halves that R120 folds back. -/
def foldedBack (x y : Triple) : Nat :=
  lo x.x2 y.x1 + lo x.x1 y.x2 + 2 ^ 9 * (hi x.x2 y.x0 + hi x.x1 y.x1 + hi x.x0 y.x2) +
    2 ^ 43 * (lo x.x2 y.x2 + 2 ^ 9 * (hi x.x2 y.x1 + hi x.x1 y.x2)) + 2 ^ 86 * (2 ^ 9 * hi x.x2 y.x2)

/-- The nine products of the limbs at their weights, each in its two halves: folding back replaces 2^129 by 4. -/
theorem val_mulZ_add_foldedBack (hx : mulInRange x = true) (hy : mulInRange y = true) :
    val (mulZ x y) + 2 ^ 129 * foldedBack x y = val x * val y + 4 * foldedBack x y := by
  obtain ⟨x0, x1, x2⟩ := (limbsLe_iff x _).mp hx
  obtain ⟨y0, y1, y2⟩ := (limbsLe_iff y _).mp hy
  simp only [val, mulZ, foldedBack]
  linear_combination lo_add_hi x0 y0 + 2 ^ 43 * (lo_add_hi x1 y0 + lo_add_hi x0 y1) +
    2 ^ 86 * (lo_add_hi x2 y0 + lo_add_hi x1 y1 + lo_add_hi x0 y2) +
    2 ^ 129 * (lo_add_hi x2 y1 + lo_add_hi x1 y2) + 2 ^ 172 * lo_add_hi x2 y2

/-- Each unit folded back costs 2^129 − 4 = 4p, and nothing else is lost. -/
theorem val_mulZ_add (hx : mulInRange x = true) (hy : mulInRange y = true) :
    val (mulZ x y) + modulus * (4 * foldedBack x y) = val x * val y := by
  have h := val_mulZ_add_foldedBack hx hy
  simp only [modulus]
  omega

theorem residue_mulZ (hx : mulInRange x = true) (hy : mulInRange y = true) :
    residue (mulZ x y) = val x * val y % modulus := by
  rw [residue, ← val_mulZ_add hx hy, Nat.add_mul_mod_self_left]

theorem residue_feMul (hx : mulInRange x = true) (hy : mulInRange y = true) :
    residue (feMul x y) = val x * val y % modulus :=
  (residue_wred _).trans (residue_mulZ hx hy)

theorem feMul_below (hx : mulInRange x = true) (hy : mulInRange y = true) : (feMul x y).below (2 ^ 43) = true := by
  obtain ⟨h0, h1, h2⟩ := (below_iff _ _).mp (mulZ_below hx hy)
  exact wred_below ((below_iff _ _).mpr ⟨h0.trans (by decide), h1.trans (by decide), h2.trans (by decide)⟩)

end

/-- Settles O34: the accumulators have the residue of the product, and a weak reduction keeps it. -/
theorem productIsCorrectModP : Obligations.ProductIsCorrectModP :=
  fun _ _ hx hy => ⟨residue_mulZ hx hy, residue_feMul hx hy, rfl, feMul_below hx hy⟩

/-! ### The power (R126) -/

theorem powMod_succ (m b fuel e : Nat) :
    powMod m b (fuel + 1) e = powMod m b fuel (e / 2) * powMod m b fuel (e / 2) * b ^ (e % 2) % m := rfl

/-- Settles O35, by induction on the number of bits: e is twice its half plus its last bit. -/
theorem powerBySquaringIsThePower : Obligations.PowerBySquaringIsThePower := by
  intro m b fuel
  induction fuel with
  | zero =>
    intro e he
    obtain rfl : e = 0 := by simpa using he
    rfl
  | succ fuel ih =>
    intro e he
    have hhalf : e / 2 < 2 ^ fuel := by omega
    have hsplit : e / 2 + e / 2 + e % 2 = e := by omega
    calc powMod m b (fuel + 1) e
        = b ^ (e / 2) % m * (b ^ (e / 2) % m) * b ^ (e % 2) % m := by rw [powMod_succ, ih _ hhalf]
      _ = b ^ (e / 2) * b ^ (e / 2) * b ^ (e % 2) % m :=
        ((Nat.mod_modEq _ m).mul (Nat.mod_modEq _ m)).mul_right _
      _ = b ^ e % m := by rw [← pow_add, ← pow_add, hsplit]

theorem modInverse_eq_pow (n : Nat) : modInverse n = n ^ (modulus - 2) % modulus :=
  powerBySquaringIsThePower modulus n 127 (modulus - 2) (by decide)

/-! ### The inverse (R126) -/

theorem modInverse_lt (n : Nat) : modInverse n < modulus := by
  rw [modInverse_eq_pow]
  exact Nat.mod_lt _ (by decide)

/-- Fermat's little theorem, with one factor set apart. -/
theorem mul_modInverse {n : Nat} (hn : n % modulus ≠ 0) : n * modInverse n % modulus = 1 := by
  have hcop : n.Coprime modulus :=
    ((Nat.Prime.coprime_iff_not_dvd modulus_prime).mpr fun h => hn (Nat.mod_eq_zero_of_dvd h)).symm
  have hexp : modulus - 2 + 1 = modulus - 1 := by decide
  calc n * modInverse n % modulus
      = n ^ (modulus - 1) % modulus := by rw [modInverse_eq_pow, Nat.mul_mod_mod, ← pow_succ', hexp]
    _ = 1 % modulus := by rw [← Nat.totient_prime modulus_prime]; exact Nat.ModEq.pow_totient hcop
    _ = 1 := by decide

/-- Two inverses of n are equal: multiply either by n times the other. -/
theorem inverse_unique {n m m' : Nat} (hm : m < modulus) (hm' : m' < modulus) (h : n * m % modulus = 1)
    (h' : n * m' % modulus = 1) : m' = m := by
  have h1 : n * m ≡ 1 [MOD modulus] := h
  have h1' : n * m' ≡ 1 [MOD modulus] := h'
  have hmod : m' ≡ m [MOD modulus] :=
    calc m' = m' * 1 := (Nat.mul_one m').symm
      _ ≡ m' * (n * m) [MOD modulus] := (h1.mul_left m').symm
      _ = n * m' * m := by ring
      _ ≡ 1 * m [MOD modulus] := h1'.mul_right m
      _ = m := Nat.one_mul m
  exact hmod.eq_of_lt_of_lt hm' hm

theorem feInv_of_residue_eq_zero {x : Triple} (hx : residue x = 0) : feInv x = none := if_pos hx

theorem feInv_of_residue_ne_zero {x : Triple} (hx : residue x ≠ 0) : feInv x = some (digits (modInverse (residue x))) :=
  if_neg hx

theorem residue_mul_modInverse {x : Triple} (hx : residue x ≠ 0) : residue x * modInverse (residue x) % modulus = 1 :=
  mul_modInverse ((Nat.mod_eq_of_lt (residue_lt x)).trans_ne hx)

/-- Settles O36: what the model computes is an inverse, and there is no other; it is not 0, because n·0 is 0. -/
theorem inverseIsTheUniqueInverse : Obligations.InverseIsTheUniqueInverse := by
  refine fun x => ⟨feInv_of_residue_eq_zero, fun hx => ?_⟩
  have hmul := residue_mul_modInverse hx
  have hpos : modInverse (residue x) ≠ 0 := fun h => by
    rw [h, Nat.mul_zero, Nat.zero_mod] at hmul
    cases hmul
  exact ⟨_, Nat.one_le_iff_ne_zero.mpr hpos, modInverse_lt _, hmul, feInv_of_residue_ne_zero hx,
    fun m' _ hm' h' => inverse_unique (modInverse_lt _) hm' hmul h'⟩

end Sys2Proof.Proofs
end

section
/-! PROOFS of the family 42_multiplication.md, the commands: that SQR and FP2SQR are products of an operand with itself,
what MUL and SQR write, and what INV writes, keeps and reports lane by lane. -/

namespace Sys2Proof.Proofs

open Sys2Proof.Machine Sys2Proof.Laws

/-! ### Squaring is self-multiplication (R128, R167) -/

/-- A register that is read twice gives the same triples, or the same fault. -/
theorem source_source_self (s : State) (r : Reg) (k : List Triple → List Triple → State) :
    (s.source r fun x => s.source r fun y => k x y) = s.source r fun x => k x x :=
  source_congr fun x hx => by rw [State.source, hx]

/-- A pair that is read twice gives the same elements, or the same fault. -/
theorem sourcePair_sourcePair_self (s : State) (r : Reg) (k : List Fp2 → List Fp2 → State) :
    (s.sourcePair r fun c => s.sourcePair r fun d => k c d) = s.sourcePair r fun c => k c c := by
  refine source_congr fun c0 h0 => source_congr fun c1 h1 => ?_
  simp only [State.sourcePair, State.source, h0, h1]

/-- Settles O57: the second read of the operand finds what the first one found, and passes the same check. -/
theorem squaringIsSelfMultiplication : Obligations.SquaringIsSelfMultiplication := by
  refine fun s rd ra => ⟨congrArg Host.Outcome.next ?_, congrArg Host.Outcome.next ?_⟩
  · rw [source_source_self]
    simp only [Bool.and_self, List.zipWith_self]
  · rw [sourcePair_sourcePair_self]
    simp only [Bool.and_self, Bool.and_assoc, List.zipWith_self]
    rfl

/-! ### MUL and SQR (R127, R128) -/

/-- MUL where both operands keep the multiplier's limit in every lane. -/
theorem execMul_eq_storeReg {s : State} {ra rb : Reg} {x y : Nat → Triple} (hr : s.Ready []) (hx : s.Holds ra x)
    (hy : s.Holds rb y) (hxr : ∀ l, l < s.cfg.lanes → mulInRange (x l) = true)
    (hyr : ∀ l, l < s.cfg.lanes → mulInRange (y l) = true) (rd : Reg) :
    execMul rd ra rb s = .next (s.storeReg rd ((List.range s.cfg.lanes).map fun l => feMul (x l) (y l))) := by
  rw [execMul, beginCommand_ready s hr, source_of_holds s ra x hx, source_of_holds s rb y hy,
    (everyLaneHolds_range mulInRange x _).mpr hxr, (everyLaneHolds_range mulInRange y _).mpr hyr, zipWith_range]
  rfl

/-- MUL completes with the reduced products in its destination. -/
theorem exec_mul_completes {s : State} {ra rb : Reg} {x y : Nat → Triple} (hr : s.Ready []) (hx : s.Holds ra x)
    (hy : s.Holds rb y) (hxr : ∀ l, l < s.cfg.lanes → mulInRange (x l) = true)
    (hyr : ∀ l, l < s.cfg.lanes → mulInRange (y l) = true) (rd : Reg) :
    ∃ t, exec (.mul rd ra rb) s = .next t ∧ s.CompletedWith t [rd] .ok s.zeroMask [] ∧
      t.Holds rd (fun l => feMul (x l) (y l)) :=
  ⟨_, execMul_eq_storeReg hr hx hy hxr hyr rd,
    completes_with_stored hr rfl fun l hl => fits_of_below (feMul_below (hxr l hl) (hyr l hl))⟩

/-- Settles O51: a reduced product fits a lane; SQR is MUL of the register with itself. -/
theorem mulAndSqrWriteReducedProducts : Obligations.MulAndSqrWriteReducedProducts := by
  intro s rd ra rb x y hr hx hxr
  have hxr' : ∀ l, l < s.cfg.lanes → mulInRange (x l) = true := fun l hl => (mulInRange_iff _).mpr (hxr l hl)
  refine ⟨?_, fun hy hyr => exec_mul_completes hr hx hy hxr' (fun l hl => (mulInRange_iff _).mpr (hyr l hl)) rd⟩
  obtain ⟨hsqr, -⟩ := squaringIsSelfMultiplication s rd ra
  rw [hsqr]
  exact exec_mul_completes hr hx hx hxr' hxr' rd

/-! ### Commands that keep failing lanes (R203) -/

/-- A command that writes one register completes with its frame and its answer, whatever it writes. -/
theorem writeReg_completedWith {s : State} (hf : s.fault = 0) (rd : Reg) (v : Lanes) (c : Code) (m : List Bool)
    (q : List Byte) : s.CompletedWith ((s.writeReg rd v).finish c m q) [rd] c m q :=
  ⟨⟨rfl, rfl, rfl, fun r hr => regs_writeReg_other s rd r v (by simpa using hr)⟩, hf, rfl, rfl, rfl⟩

/-- Lane l of the destination: the result where there is one, else what it was. -/
theorem keepFailing_lane {s : State} (r : Reg) (f : Nat → Option Triple) {l : Nat} (hl : l < s.cfg.lanes) :
    (keepFailing ((List.range s.cfg.lanes).map f) (s.lanes r))[l]?.join = ((f l).map Triple.limbs).or (s.lane r l) := by
  rw [keepFailing_getElem _ _ l (f l) (s.lane r l) (by simp [hl]) (lanes_getElem s r l hl)]
  rfl

/-- STATUS after a per-lane command whose mask reports the lanes with p. -/
theorem inverseCode_map (ls : List Nat) (p : Nat → Prop) [DecidablePred p] [Decidable (∃ l ∈ ls, p l)] :
    inverseCode (ls.map fun l => decide (p l)) = if ∃ l ∈ ls, p l then .notInvertible else .ok := by
  simp only [inverseCode, List.any_map, List.any_eq_true, Function.comp_apply, id, decide_eq_true_eq]

/-! ### INV (R129) -/

theorem feInv_isNone (x : Triple) : (feInv x).isNone = decide (residue x = 0) := by
  by_cases hx : residue x = 0
  · rw [feInv_of_residue_eq_zero hx, decide_eq_true hx]; rfl
  · rw [feInv_of_residue_ne_zero hx, decide_eq_false hx]; rfl

/-- The lanes of INV that fail are those with residue 0. -/
theorem failingLanes_feInv (x : Nat → Triple) (n : Nat) :
    failingLanes ((List.range n).map fun l => feInv (x l)) = (List.range n).map fun l => decide (residue (x l) = 0) := by
  simp only [failingLanes, List.map_map, Function.comp_def, feInv_isNone]

/-- The lanes of rd after INV. -/
def inverseLanes (s : State) (rd : Reg) (x : Nat → Triple) : Lanes :=
  keepFailing ((List.range s.cfg.lanes).map fun l => feInv (x l)) (s.lanes rd)

/-- INV on a written source. -/
theorem execInv_eq {s : State} {ra : Reg} {x : Nat → Triple} (hr : s.Ready []) (hx : s.Holds ra x) (rd : Reg) :
    execInv rd ra s = .next ((s.writeReg rd (inverseLanes s rd x)).finish
      (if ∃ l ∈ List.range s.cfg.lanes, residue (x l) = 0 then .notInvertible else .ok)
      ((List.range s.cfg.lanes).map fun l => decide (residue (x l) = 0)) []) := by
  rw [execInv, beginCommand_ready s hr, source_of_holds s ra x hx, List.map_map, ← inverseCode_map, ← failingLanes_feInv]
  rfl

theorem inverseLanes_of_residue_eq_zero {s : State} (rd : Reg) {x : Nat → Triple} {l : Nat} (hl : l < s.cfg.lanes)
    (hx : residue (x l) = 0) : (inverseLanes s rd x)[l]?.join = s.lane rd l := by
  rw [inverseLanes, keepFailing_lane rd _ hl, feInv_of_residue_eq_zero hx]
  rfl

theorem inverseLanes_of_residue_ne_zero {s : State} (rd : Reg) {x : Nat → Triple} {l : Nat} (hl : l < s.cfg.lanes)
    (hx : residue (x l) ≠ 0) :
    (inverseLanes s rd x)[l]?.join.map Limbs.nat = some (digits (modInverse (residue (x l)))) := by
  obtain ⟨h0, h1, h2⟩ := fits_of_below (digits_below (modInverse_lt (residue (x l))))
  rw [inverseLanes, keepFailing_lane rd _ hl, feInv_of_residue_ne_zero hx]
  exact congrArg some (limbs_nat _ h0 h1 h2)

/-- Settles O52: lane by lane, by whether the residue is 0. -/
theorem invWritesTheInversesLaneByLane : Obligations.InvWritesTheInversesLaneByLane := by
  intro s rd ra x hr hx
  refine ⟨_, execInv_eq hr hx rd, writeReg_completedWith hr.1 rd _ _ _ _, fun l hl => ⟨fun h => ?_, fun h => ?_⟩⟩
  · rw [finish_lane, lane_writeReg_same]
    exact inverseLanes_of_residue_eq_zero rd hl h
  · refine ⟨modInverse (residue (x l)), modInverse_lt _, ?_, ?_⟩
    · exact (Nat.mod_mul_mod _ _ _).symm.trans (residue_mul_modInverse h)
    · rw [State.triple, finish_lane, lane_writeReg_same]
      exact inverseLanes_of_residue_ne_zero rd hl h

end Sys2Proof.Proofs
end

section
/-! PROOFS of the family 43_bit_excess.md, growth (R143): a chain of doublings and a sum of equal triples are multiples
of a triple, and a reduced triple may be multiplied by up to 256 before it leaves the multiplier's limit. -/

namespace Sys2Proof.Proofs

open Sys2Proof.Machine Sys2Proof.Laws

/-- n times the triple, limb by limb. -/
def multiple (n : Nat) (x : Triple) : Triple := ⟨n * x.x0, n * x.x1, n * x.x2⟩

/-- The largest reduced triple. -/
def largestReduced : Triple := ⟨2 ^ 43 - 1, 2 ^ 43 - 1, 2 ^ 43 - 1⟩

/-! ### Doublings and sums -/

/-- "If inputs have bit-excess ≤ b, result has bit-excess ≤ b+1" (R143), for any bound. -/
theorem feAdd_below {x y : Triple} {m : Nat} (hx : x.below m = true) (hy : y.below m = true) :
    (feAdd x y).below (2 * m) = true := by
  simp only [below_iff, feAdd] at hx hy ⊢
  omega

theorem iterate_doubling (x : Triple) (k : Nat) : (fun z => feAdd z z)^[k] x = multiple (2 ^ k) x := by
  induction k with
  | zero => simp only [Function.iterate_zero, id, multiple, Nat.pow_zero, Nat.one_mul]
  | succ k ih =>
    rw [Function.iterate_succ_apply', ih]
    simp only [feAdd, multiple, Nat.pow_succ, Nat.mul_two, Nat.add_mul]

/-- A sum of triples is the sum of each limb. -/
theorem foldl_feAdd (xs : List Triple) (z : Triple) : xs.foldl feAdd z =
    ⟨z.x0 + (xs.map Triple.x0).sum, z.x1 + (xs.map Triple.x1).sum, z.x2 + (xs.map Triple.x2).sum⟩ := by
  induction xs generalizing z with
  | nil => rfl
  | cons x xs ih => simp only [List.foldl_cons, ih, feAdd, List.map_cons, List.sum_cons, Nat.add_assoc]

theorem sum_replicate_triple (n : Nat) (x : Triple) : (List.replicate n x).foldl feAdd ⟨0, 0, 0⟩ = multiple n x := by
  simp only [foldl_feAdd, List.map_replicate, List.sum_replicate, smul_eq_mul, Nat.zero_add, multiple]

/-- One limb of a sum of up to 256 reduced triples. -/
theorem limb_sum_le {xs : List Triple} {limb : Triple → Nat} (hx : ∀ x ∈ xs, limb x < 2 ^ 43) (hn : xs.length ≤ 256) :
    (xs.map limb).sum ≤ 2 ^ 51 - 1 :=
  calc (xs.map limb).sum ≤ (xs.map limb).length * (2 ^ 43 - 1) :=
        List.sum_le_card_nsmul _ _ (List.forall_mem_map.mpr fun x h => Nat.le_sub_one_of_lt (hx x h))
    _ ≤ 256 * (2 ^ 43 - 1) := Nat.mul_le_mul_right _ ((List.length_map limb).trans_le hn)
    _ ≤ 2 ^ 51 - 1 := by decide

/-! ### The multiplier's limit -/

theorem sum_mulInRange {xs : List Triple} (hx : ∀ x ∈ xs, x.below (2 ^ 43) = true) (hn : xs.length ≤ 256) :
    mulInRange (xs.foldl feAdd ⟨0, 0, 0⟩) = true := by
  simp only [below_iff, forall₂_and] at hx
  obtain ⟨h0, h1, h2⟩ := hx
  rw [foldl_feAdd, mulInRange_iff]
  simp only [Nat.zero_add]
  exact ⟨limb_sum_le h0 hn, limb_sum_le h1 hn, limb_sum_le h2 hn⟩

theorem multiple_mulInRange {x : Triple} (hx : x.below (2 ^ 43) = true) {n : Nat} (hn : n ≤ 256) :
    mulInRange (multiple n x) = true := by
  rw [← sum_replicate_triple]
  exact sum_mulInRange (fun y hy => List.eq_of_mem_replicate hy ▸ hx) (List.length_replicate.trans_le hn)

theorem multiple_largestReduced_mulInRange (n : Nat) : mulInRange (multiple n largestReduced) = true ↔ n ≤ 256 := by
  simp only [mulInRange_iff, multiple, largestReduced]
  omega

/-- The multiples by a power of two that 256 allows. -/
theorem two_pow_le_256 (k : Nat) : 2 ^ k ≤ 256 ↔ k ≤ 8 := Nat.pow_le_pow_iff_right (m := 8) (by decide)

/-- Settles O32: eight doublings are a multiple by 256, and a sum of 256 triples is at most that. -/
theorem eightDoublingsFitTheMultiplier : Obligations.EightDoublingsFitTheMultiplier := by
  refine ⟨fun b x y hx hy => ?_, fun x hx k hk => ?_, fun xs => sum_mulInRange, fun k => ?_, fun n => ?_⟩
  · rw [← Nat.add_assoc, Nat.pow_succ']
    exact feAdd_below hx hy
  · rw [iterate_doubling]
    exact multiple_mulInRange hx ((two_pow_le_256 k).mpr hk)
  · rw [iterate_doubling]
    exact (multiple_largestReduced_mulInRange _).trans (two_pow_le_256 k)
  · rw [sum_replicate_triple]
    exact multiple_largestReduced_mulInRange n

end Sys2Proof.Proofs
end

section
/-! PROOFS of the family 43_bit_excess.md, what each command requires of its sources (R142): the check that a command
makes of its operands is the condition of the table, and nothing else raises a fault when the sources are written. -/

namespace Sys2Proof.Proofs

open Sys2Proof.Machine Sys2Proof.Laws

/-! ### The condition in one register, and in two -/

/-- What the lanes of a written register hold. -/
def heldIn (s : State) (r : Reg) (l : Nat) : Triple := (s.triple r l).getD ⟨0, 0, 0⟩

theorem holds_of_written {s : State} {r : Reg} (h : s.Written r) : s.Holds r (heldIn s r) := by
  intro l hl
  obtain ⟨x, hx⟩ := Option.ne_none_iff_exists'.mp (h l hl)
  simp only [heldIn, State.triple, hx, Option.map_some, Option.getD_some]

section
variable {s : State} {a b : Reg} {x y : Nat → Triple}

/-- A check of one operand in every lane, as the table speaks of the register's triples. -/
theorem everyLaneHolds_iff (hx : s.Holds a x) {p : Triple → Bool} {P : Triple → Prop} (hp : ∀ u, p u = true ↔ P u) :
    everyLaneHolds p ((List.range s.cfg.lanes).map x) = true ↔
      ∀ l, l < s.cfg.lanes → ∀ u, s.triple a l = some u → P u := by
  refine (everyLaneHolds_range p x _).trans (forall₂_congr fun l hl => ?_)
  simp only [hx l hl, hp, Option.some.injEq, forall_eq']

/-- A check of two operands in every lane, as the table speaks of the registers' triples. -/
theorem everyLaneHolds2_iff (hx : s.Holds a x) (hy : s.Holds b y) {p : Triple → Triple → Bool}
    {P : Triple → Triple → Prop} (hp : ∀ u v, p u v = true ↔ P u v) :
    everyLaneHolds2 p ((List.range s.cfg.lanes).map x) ((List.range s.cfg.lanes).map y) = true ↔
      ∀ l, l < s.cfg.lanes → ∀ u v, s.triple a l = some u → s.triple b l = some v → P u v := by
  refine (everyLaneHolds2_range p x y _).trans (forall₂_congr fun l hl => ?_)
  simp only [hx l hl, hy l hl, hp, Option.some.injEq]
  exact ⟨fun h u v hu hv => hu ▸ hv ▸ h, fun h => h _ _ rfl rfl⟩

/-- A check of the two components of a pair against each other. -/
theorem everyLaneHolds_pair_iff (hx : s.Holds a x) (hy : s.Holds b y) {p : Fp2 → Bool} {P : Triple → Triple → Prop}
    (hp : ∀ u v, p (u, v) = true ↔ P u v) :
    everyLaneHolds p ((List.range s.cfg.lanes).map fun l => (x l, y l)) = true ↔
      ∀ l, l < s.cfg.lanes → ∀ u v, s.triple a l = some u → s.triple b l = some v → P u v :=
  (everyLaneHolds_range p _ _).trans <|
    (everyLaneHolds2_range (fun u v => p (u, v)) x y _).symm.trans (everyLaneHolds2_iff hx hy hp)

/-- A check made component by component of two pairs. -/
theorem everyLaneHolds2_pairs_iff {a' b' : Reg} {x' y' : Nat → Triple} (hx : s.Holds a x) (hx' : s.Holds a' x')
    (hy : s.Holds b y) (hy' : s.Holds b' y') {p : Triple → Triple → Bool} {P : Triple → Triple → Prop}
    (hp : ∀ u v, p u v = true ↔ P u v) :
    everyLaneHolds2 (fun c d : Fp2 => p c.1 d.1 && p c.2 d.2) ((List.range s.cfg.lanes).map fun l => (x l, x' l))
      ((List.range s.cfg.lanes).map fun l => (y l, y' l)) = true ↔
    (∀ l, l < s.cfg.lanes → ∀ u v, s.triple a l = some u → s.triple b l = some v → P u v) ∧
      ∀ l, l < s.cfg.lanes → ∀ u v, s.triple a' l = some u → s.triple b' l = some v → P u v := by
  rw [← everyLaneHolds2_iff hx hy hp, ← everyLaneHolds2_iff hx' hy' hp]
  simp only [everyLaneHolds2_range, Bool.and_eq_true, forall₂_and]

end

/-! ### The condition decides how a command ends -/

/-- The command, begun in s and ended in t, faulted where the condition P is broken, and raised no fault where it
holds. -/
def Decides (s : State) (P : Prop) (t : State) : Prop :=
  (¬ P → s.FaultedWith t .rangeViolation) ∧ (P → t.fault = 0)

section
variable {s : State} {P : Prop}

/-- A command without condition. -/
theorem decides_true {t : State} (ht : t.fault = 0) : Decides s True t :=
  ⟨fun h => absurd trivial h, fun _ => ht⟩

theorem requireRange_decides {b : Bool} {k : State} (hb : b = true ↔ P) (hk : k.fault = 0) :
    Decides s P (s.requireRange b k) := by
  rcases requireRange_cases s b k with ⟨h, e⟩ | ⟨h, e⟩ <;> rw [e]
  · exact ⟨fun _ => raise_faults s _, fun hP => absurd (hb.mpr hP) (by simp [h])⟩
  · exact ⟨fun hP => absurd (hb.mp h) hP, fun _ => hk⟩

theorem beginCommand_decides (hr : s.Ready []) {legal : Bool} (hl : legal = true) {k : State} (hk : Decides s P k) :
    Decides s P (s.beginCommand legal k) := by
  rwa [hl, beginCommand_ready s hr]

/-- A payload may be refused, but never with a fault. -/
theorem beginPayload_fault (hf : s.fault = 0) {legal : Bool} {n : Nat} {k : List Byte → State}
    (hk : (k s.payload).fault = 0) : (s.beginPayload legal n k).fault = 0 := by
  rcases beginPayload_cases s legal n k with ⟨hn, -⟩ | ⟨-, -, e⟩ | ⟨-, -, -, e⟩ | ⟨-, -, -, e⟩
  · exact absurd hf hn
  · rw [e]; exact hf
  · rw [e]; exact hf
  · rw [e]; exact hk

theorem requireSlots_fault (hf : s.fault = 0) {b : Bool} {k : State} (hk : k.fault = 0) :
    (s.requireSlots b k).fault = 0 := by
  rcases requireSlots_cases s b k with ⟨-, e⟩ | ⟨-, e⟩ <;> rw [e]
  · exact hf
  · exact hk

theorem source_decides {r : Reg} {x : Nat → Triple} (hx : s.Holds r x) {k : List Triple → State}
    (hk : Decides s P (k ((List.range s.cfg.lanes).map x))) : Decides s P (s.source r k) := by
  rwa [source_of_holds s r x hx]

theorem sourcePair_decides {r : Reg} {x y : Nat → Triple} (hx : s.Holds r x) (hy : s.Holds (partner r) y)
    {k : List Fp2 → State} (hk : Decides s P (k ((List.range s.cfg.lanes).map fun l => (x l, y l)))) :
    Decides s P (s.sourcePair r k) := by
  rwa [sourcePair_of_holds s r x y hx hy]

end

/-! ### Every command -/

/-- Whether a legal command on written sources raises a fault is decided by the condition that R142 puts on them. -/
theorem exec_decides (i : Instr) {s : State} (hw : i.wellFormed = true) (hr : s.Ready [])
    (h : ∀ r ∈ i.sources, s.Holds r (heldIn s r)) : ∃ t, exec i s = .next t ∧ Decides s (s.RangeHolds i) t := by
  have hf : s.fault = 0 := hr.1
  cases i with
  | nop | zero rd | one rd => exact ⟨_, rfl, beginCommand_decides hr hw (decides_true hf)⟩
  | ldi rd => exact ⟨_, rfl, decides_true (beginPayload_fault hf hf)⟩
  | dec rd | fp2dec rd => exact ⟨_, rfl, decides_true (beginPayload_fault hf (requireSlots_fault hf hf))⟩
  | enc ra | wred rd ra | canon rd ra | inv rd ra | iszero ra =>
    simp only [Instr.sources, List.forall_mem_cons] at h
    obtain ⟨ha, -⟩ := h
    exact ⟨_, rfl, beginCommand_decides hr hw (source_decides ha (decides_true hf))⟩
  | eq ra rb =>
    simp only [Instr.sources, List.forall_mem_cons] at h
    obtain ⟨ha, hb, -⟩ := h
    exact ⟨_, rfl, beginCommand_decides hr hw (source_decides ha (source_decides hb (decides_true hf)))⟩
  | fp2enc ra | fp2inv rd ra =>
    simp only [Instr.sources, List.forall_mem_cons] at h
    obtain ⟨ha, ha', -⟩ := h
    exact ⟨_, rfl, beginCommand_decides hr hw (sourcePair_decides ha ha' (decides_true hf))⟩
  | add rd ra rb =>
    simp only [Instr.sources, List.forall_mem_cons] at h
    obtain ⟨ha, hb, -⟩ := h
    exact ⟨_, rfl, beginCommand_decides hr hw (source_decides ha (source_decides hb
      (requireRange_decides (everyLaneHolds2_iff ha hb addInRange_iff) hf)))⟩
  | sub rd ra rb =>
    simp only [Instr.sources, List.forall_mem_cons] at h
    obtain ⟨ha, hb, -⟩ := h
    exact ⟨_, rfl, beginCommand_decides hr hw (source_decides ha (source_decides hb
      (requireRange_decides (everyLaneHolds2_iff ha hb subInRange_iff) hf)))⟩
  | neg rd ra =>
    simp only [Instr.sources, List.forall_mem_cons] at h
    obtain ⟨ha, -⟩ := h
    exact ⟨_, rfl, beginCommand_decides hr hw (source_decides ha
      (requireRange_decides (everyLaneHolds_iff ha negInRange_iff) hf))⟩
  | mul rd ra rb =>
    simp only [Instr.sources, List.forall_mem_cons] at h
    obtain ⟨ha, hb, -⟩ := h
    exact ⟨_, rfl, beginCommand_decides hr hw (source_decides ha (source_decides hb
      (requireRange_decides (Bool.and_eq_true_iff.trans
        (and_congr (everyLaneHolds_iff ha mulInRange_iff) (everyLaneHolds_iff hb mulInRange_iff))) hf)))⟩
  | sqr rd ra =>
    simp only [Instr.sources, List.forall_mem_cons] at h
    obtain ⟨ha, -⟩ := h
    exact ⟨_, rfl, beginCommand_decides hr hw (source_decides ha
      (requireRange_decides (everyLaneHolds_iff ha mulInRange_iff) hf))⟩
  | fp2add rd ra rb =>
    simp only [Instr.sources, List.forall_mem_cons] at h
    obtain ⟨ha, ha', hb, hb', -⟩ := h
    exact ⟨_, rfl, beginCommand_decides hr hw (sourcePair_decides ha ha' (sourcePair_decides hb hb'
      (requireRange_decides (everyLaneHolds2_pairs_iff ha ha' hb hb' addInRange_iff) hf)))⟩
  | fp2sub rd ra rb =>
    simp only [Instr.sources, List.forall_mem_cons] at h
    obtain ⟨ha, ha', hb, hb', -⟩ := h
    exact ⟨_, rfl, beginCommand_decides hr hw (sourcePair_decides ha ha' (sourcePair_decides hb hb'
      (requireRange_decides (everyLaneHolds2_pairs_iff ha ha' hb hb' subInRange_iff) hf)))⟩
  | fp2mul rd ra rb =>
    simp only [Instr.sources, List.forall_mem_cons] at h
    obtain ⟨ha, ha', hb, hb', -⟩ := h
    exact ⟨_, rfl, beginCommand_decides hr hw (sourcePair_decides ha ha' (sourcePair_decides hb hb'
      (requireRange_decides (Bool.and_eq_true_iff.trans
        (and_congr (everyLaneHolds_pair_iff ha ha' fun u v => fp2MulInRange_iff (u, v))
          (everyLaneHolds_pair_iff hb hb' fun u v => fp2MulInRange_iff (u, v)))) hf)))⟩
  | fp2sqr rd ra =>
    simp only [Instr.sources, List.forall_mem_cons] at h
    obtain ⟨ha, ha', -⟩ := h
    exact ⟨_, rfl, beginCommand_decides hr hw (sourcePair_decides ha ha'
      (requireRange_decides (everyLaneHolds_pair_iff ha ha' fun u v => fp2MulInRange_iff (u, v)) hf))⟩

/-- Settles O23. -/
theorem brokenRangeConditionIsFatal : Obligations.BrokenRangeConditionIsFatal := by
  intro i s hw hr hwritten
  obtain ⟨t, ht, hbroken, hkept⟩ := exec_decides i hw hr fun r hm => holds_of_written (hwritten r hm)
  exact ⟨fun h => ⟨t, ht, hbroken h⟩, fun h => ⟨t, ht, hkept h⟩⟩

end Sys2Proof.Proofs
end

section
/-! PROOFS of the family 43_bit_excess.md, the cost of the bias (R146): a NEG or SUB that completed leaves biased
differences, whose limbs exceed the multiplier's limit unless the subtrahend's limbs are large; WRED makes them legal
operands again. -/

namespace Sys2Proof.Proofs

open Sys2Proof.Machine Sys2Proof.Laws

/-! ### What a completed command met -/

theorem written_of_holds {s : State} {r : Reg} {x : Nat → Triple} (hx : s.Holds r x) : s.Written r := by
  intro l hl hn
  have h := hx l hl
  rw [State.triple, hn] at h
  cases h

theorem not_completed_of_faultedWith {s t : State} (h : s.FaultedWith t .rangeViolation) : ¬ Completed t := by
  obtain ⟨-, -, hstatus, -⟩ := h
  rw [Completed, hstatus]
  decide

/-- After a command that completed, the engine is ready for a command without payload, of as many lanes. -/
theorem ready_of_completedWith {s t : State} {dst : List Reg} {c : Code} {m : List Bool} {q : List Byte}
    (h : s.CompletedWith t dst c m q) : t.Ready [] ∧ t.cfg = s.cfg := by
  obtain ⟨⟨hcfg, -, hp, -⟩, hf, -⟩ := h
  exact ⟨⟨hf, hp⟩, hcfg⟩

section
variable {i : Instr} {s t : State} (hf : s.fault = 0) (ht : exec i s = .next t) (hc : Completed t)
include hf ht hc

/-- A command that takes no payload completed, so there was none. -/
theorem ready_of_completed (hi : i.slotBytes = 0) : s.Ready [] := by
  by_contra hn
  obtain rfl : s.fail .illegalCommand = t := by
    simpa [exec_illegal hf (.inr ⟨hi, fun hp => hn ⟨hf, hp⟩⟩)] using ht
  exact fail_not_completed s (.inl rfl) hc

/-- A command completed, so its sources met the range condition. -/
theorem rangeHolds_of_completed (hw : i.wellFormed = true) (hi : i.slotBytes = 0) (hs : ∀ r ∈ i.sources, s.Written r) :
    s.RangeHolds i := by
  by_contra hn
  obtain ⟨u, hu, hfaulted⟩ := (brokenRangeConditionIsFatal i s hw (ready_of_completed hf ht hc hi) hs).1 hn
  obtain rfl : u = t := by simpa [hu] using ht
  exact not_completed_of_faultedWith hfaulted hc

end

/-- SUB completed, so its minuend was written. -/
theorem minuend_written_of_completed {s t : State} {rd ra rb : Reg} (hf : s.fault = 0)
    (ht : exec (.sub rd ra rb) s = .next t) (hc : Completed t) : s.Written ra := by
  obtain rfl : s.beginCommand true _ = t := Host.Outcome.next.inj ht
  rw [beginCommand_of_completed hf hc] at hc
  obtain ⟨x, hx, -⟩ := source_of_completed hc
  intro l hl hn
  rw [(readReg_eq_none s ra).mpr ⟨l, hl, hn⟩] at hx
  cases hx

/-! ### What NEG and SUB leave -/

/-- The biased differences that a completed NEG or SUB leaves; NEG has the minuend 0. -/
theorem biasedDifference_of_completed {s t : State} {i : Instr} {rd ra rb : Reg} {y : Nat → Triple} (hf : s.fault = 0)
    (hi : i = .neg rd rb ∨ i = .sub rd ra rb) (hy : s.Holds rb y) (ht : exec i s = .next t) (hc : Completed t) :
    (t.Ready [] ∧ t.cfg = s.cfg) ∧ ∃ x : Nat → Triple,
      t.Holds rd (fun l => feSub (x l) (y l)) ∧ (i = .neg rd rb → ∀ l, x l = ⟨0, 0, 0⟩) := by
  have hb := written_of_holds hy
  rcases hi with rfl | rfl
  · have hr := ready_of_completed hf ht hc rfl
    have hrange := rangeHolds_of_completed hf ht hc rfl rfl (by simpa [Instr.sources] using hb)
    obtain ⟨u, hu, hcompleted, hholds⟩ :=
      negWritesTheBiasedNegations s rd rb y hr hy fun l hl => hrange l hl _ (hy l hl)
    obtain rfl : u = t := by simpa [hu] using ht
    simp only [← feNeg_eq] at hholds
    exact ⟨ready_of_completedWith hcompleted, fun _ => ⟨0, 0, 0⟩, hholds, fun _ _ => rfl⟩
  · have hr := ready_of_completed hf ht hc rfl
    have ha := minuend_written_of_completed hf ht hc
    have hx := holds_of_written ha
    have hrange := rangeHolds_of_completed hf ht hc rfl rfl (by simpa [Instr.sources] using ⟨ha, hb⟩)
    obtain ⟨u, hu, hcompleted, hholds⟩ :=
      subWritesTheBiasedDifferences s rd ra rb _ y hr hx hy fun l hl => hrange l hl _ _ (hx l hl) (hy l hl)
    obtain rfl : u = t := by simpa [hu] using ht
    exact ⟨ready_of_completedWith hcompleted, heldIn s ra, hholds, nofun⟩

/-- 2^51 is half of 2^52, so what is left of the bias is beyond the limit. -/
theorem feSub_not_mulInRange {y : Triple} (h : y.x0 ≤ 2 ^ 51 - 2 ^ 11 ∨ y.x1 ≤ 2 ^ 51 - 2 ^ 9 ∨ y.x2 ≤ 2 ^ 51 - 2 ^ 9)
    (x : Triple) : ¬ mulInRange (feSub x y) = true := by
  simp only [mulInRange_iff, feSub, bias]
  omega

theorem feNeg_mulInRange {y : Triple} (h : 2 ^ 51 - 2 ^ 11 < y.x0 ∧ 2 ^ 51 - 2 ^ 9 < y.x1 ∧ 2 ^ 51 - 2 ^ 9 < y.x2) :
    mulInRange (feNeg y) = true := by
  simp only [mulInRange_iff, feNeg_eq]
  omega

/-! ### Squaring -/

section
variable {s : State} {ra : Reg} {x : Nat → Triple} (hr : s.Ready []) (hx : s.Holds ra x) (rd : Reg)
include hr hx

theorem exec_sqr_completes (h : ∀ l, l < s.cfg.lanes → mulInRange (x l) = true) :
    ∃ t, exec (.sqr rd ra) s = .next t ∧ t.fault = 0 ∧ t.status = 0 := by
  obtain ⟨⟨t, ht, ⟨-, hf, hstatus, -⟩, -⟩, -⟩ :=
    mulAndSqrWriteReducedProducts s rd ra ra x x hr hx fun l hl => (mulInRange_iff _).mp (h l hl)
  exact ⟨t, ht, hf, hstatus⟩

theorem exec_sqr_faults {l : Nat} (hl : l < s.cfg.lanes) (h : ¬ mulInRange (x l) = true) :
    ∃ t, exec (.sqr rd ra) s = .next t ∧ s.FaultedWith t .rangeViolation :=
  (brokenRangeConditionIsFatal (.sqr rd ra) s rfl hr (by simpa [Instr.sources] using written_of_holds hx)).1
    fun hrange => h ((mulInRange_iff _).mpr (hrange l hl _ (hx l hl)))

/-- A reduced triple is within the limit, whatever it was before. -/
theorem exec_sqr_after_wred (f : Reg) :
    ∃ t u, exec (.wred f ra) s = .next t ∧ exec (.sqr rd f) t = .next u ∧ u.fault = 0 ∧ u.status = 0 := by
  obtain ⟨⟨t, ht, hcompleted, hholds⟩, -⟩ := wredAndCanonReduceEveryLane s f ra x hr hx
  obtain ⟨hr', hcfg⟩ := ready_of_completedWith hcompleted
  obtain ⟨u, hu, hend⟩ := exec_sqr_completes hr' hholds rd fun l hl => by
    have hbelow := wred_below (below_of_holds hx (hcfg ▸ hl))
    simp only [below_iff] at hbelow
    simp only [mulInRange_iff]
    omega
  exact ⟨t, u, ht, hu, hend⟩

end

/-- Settles O60: a completed NEG or SUB leaves biased differences, and their limbs decide what SQR does. -/
theorem biasedResultNeedsReductionBeforeMul : Obligations.BiasedResultNeedsReductionBeforeMul := by
  refine ⟨fun s t i rd ra rb f g y hf hi hy ht hstatus => ?_, by decide, by decide⟩
  obtain ⟨⟨hr, hcfg⟩, x, hholds, hneg⟩ := biasedDifference_of_completed hf hi hy ht (.inl hstatus)
  refine ⟨fun ⟨l, hl, hsmall⟩ => ?_, fun hi' hlarge => ?_, exec_sqr_after_wred hr hholds g f⟩
  · exact exec_sqr_faults hr hholds g (hcfg ▸ hl) (feSub_not_mulInRange hsmall (x l))
  · refine exec_sqr_completes hr hholds g fun l hl => ?_
    rw [hneg hi' l]
    exact feNeg_mulInRange (hlarge l (hcfg ▸ hl))

end Sys2Proof.Proofs
end

section
/-! PROOFS of the family 43_bit_excess.md, what each command guarantees about its result (R141): the bounds of the
results as functions, that storing keeps them, and that a completed command leaves only such results in good lanes. -/

namespace Sys2Proof.Proofs

open Sys2Proof.Machine Sys2Proof.Laws

/-! ### The two bounds of R141 -/

/-- Bit-excess 0 (R140). -/
def Reduced (x : Triple) : Prop := x.below (2 ^ 43) = true

/-- The bounds of a canonical triple (R97). -/
def Canonical (x : Triple) : Prop := x.x0 < 2 ^ 43 ∧ x.x1 < 2 ^ 43 ∧ x.x2 < 2 ^ 41 ∧ val x < 2 ^ 127 - 1

theorem reduced_of_canonical {x : Triple} (h : Canonical x) : Reduced x := by
  obtain ⟨h0, h1, h2, -⟩ := h
  exact (below_iff x _).mpr ⟨h0, h1, h2.trans (by decide)⟩

theorem digits_canonical {n : Nat} (hn : n < modulus) : Canonical (digits n) := by
  obtain ⟨h0, h1, h2⟩ := digits_bounds hn
  exact ⟨h0, h1, h2, (val_digits n).trans_lt hn⟩

/-- An LDI value has two limbs, and a u64 is far below p. -/
theorem feSmall_canonical {n : Nat} (hn : n < 2 ^ 64) : Canonical (feSmall n) := by
  simp only [Canonical, feSmall, val]
  omega

theorem feInv_canonical {x y : Triple} (h : feInv x = some y) : Canonical y := by
  by_cases hx : residue x = 0
  · rw [feInv_of_residue_eq_zero hx] at h; cases h
  · rw [feInv_of_residue_ne_zero hx] at h; cases h
    exact digits_canonical (modInverse_lt _)

theorem fp2Inv_canonical {eta : Nat} {c d : Fp2} (h : fp2Inv eta c = some d) : Canonical d.1 ∧ Canonical d.2 := by
  simp only [fp2Inv] at h
  split at h <;> cases h
  exact ⟨digits_canonical (Nat.mod_lt _ (by decide)), digits_canonical (Nat.mod_lt _ (by decide))⟩

/-! ### The product in Fp2, for every ETA -/

/-- An operand without excess bounds the high half, even where the other one is cut. -/
theorem hi_lt {a b : Nat} (hb : b < 2 ^ 43) : hi a b < 2 ^ 43 :=
  Nat.div_lt_of_lt_mul <| Nat.mul_lt_mul'' (macOperand a).isLt ((Nat.mod_le _ _).trans_lt hb)

theorem lo_lt (a b : Nat) : lo a b < 2 ^ 52 := Nat.mod_lt _ (by decide)

theorem feMul_reduced_of_right {x y : Triple} (hy : Reduced y) : Reduced (feMul x y) := by
  obtain ⟨y0, y1, y2⟩ := (below_iff y _).mp hy
  refine wred_below ((below_iff _ _).mpr ?_)
  simp only [mulZ]
  refine ⟨?_, ?_, ?_⟩
  · linarith only [lo_lt x.x0 y.x0, lo_lt x.x2 y.x1, lo_lt x.x1 y.x2, hi_lt (a := x.x2) y0, hi_lt (a := x.x1) y1,
      hi_lt (a := x.x0) y2]
  · linarith only [lo_lt x.x1 y.x0, lo_lt x.x0 y.x1, lo_lt x.x2 y.x2, hi_lt (a := x.x0) y0, hi_lt (a := x.x2) y1,
      hi_lt (a := x.x1) y2]
  · linarith only [lo_lt x.x2 y.x0, lo_lt x.x1 y.x1, lo_lt x.x0 y.x2, hi_lt (a := x.x1) y0, hi_lt (a := x.x0) y1,
      hi_lt (a := x.x2) y2]

/-- The condition on the sums is one on the components too (R159). -/
theorem mulInRange_of_fp2MulInRange {c : Fp2} (h : fp2MulInRange c = true) :
    mulInRange c.1 = true ∧ mulInRange c.2 = true := by
  simp only [fp2MulInRange_iff, mulInRange_iff] at h ⊢
  omega

/-- The last step of R158 weakly reduces a sum and two biased differences of reduced triples, which fit 64 bits. -/
theorem fp2Mul_reduced {eta : Nat} {c d : Fp2} (hc : fp2MulInRange c = true) (hd : fp2MulInRange d = true) :
    Reduced (fp2Mul eta c d).1 ∧ Reduced (fp2Mul eta c d).2 := by
  obtain ⟨hc1, hc2⟩ := mulInRange_of_fp2MulInRange hc
  obtain ⟨hd1, hd2⟩ := mulInRange_of_fp2MulInRange hd
  have h0 := feMul_below hc1 hd1
  have h1 := feMul_below hc2 hd2
  have h2 : (feMul (feAdd c.1 c.2) (feAdd d.1 d.2)).below (2 ^ 43) = true := feMul_below hc hd
  have h3 : (scaleByEta eta (feMul c.2 d.2)).below (2 ^ 43) = true := feMul_reduced_of_right h1
  refine ⟨wred_below ?_, wred_below ?_⟩
  · simp only [below_iff, feAdd] at h0 h3 ⊢
    omega
  · simp only [below_iff, feSub, bias] at h2 ⊢
    omega

/-! ### Slots of an LDI payload -/

theorem leInt_lt (bytes : List Byte) : leInt bytes < 256 ^ bytes.length := by
  induction bytes with
  | nil => decide
  | cons b bytes ih =>
    have hb := b.isLt
    simp only [leInt, List.length_cons, Nat.pow_succ]
    omega

theorem slots_mem_length {size lanes : Nat} {bytes slot : List Byte} (h : slot ∈ slots size lanes bytes) :
    slot.length ≤ size := by
  rw [slots_eq] at h
  obtain ⟨l, -, rfl⟩ := List.mem_map.mp h
  exact List.length_take_le _ _

theorem smallIntegers_lt {s : State} {bytes : List Byte} {n : Nat} (h : n ∈ s.smallIntegers bytes) : n < 2 ^ 64 := by
  obtain ⟨slot, hslot, rfl⟩ := List.mem_map.mp h
  calc leInt slot < 256 ^ slot.length := leInt_lt slot
    _ ≤ 256 ^ 8 := Nat.pow_le_pow_right (by decide) (slots_mem_length hslot)
    _ = 2 ^ 64 := by decide

/-! ### What a command leaves in its destinations -/

/-- If the command, ended in t, completed and did not report lane l, its destinations hold there only triples of P. -/
def Leaves (P : Triple → Prop) (dst : List Reg) (l : Nat) (t : State) : Prop :=
  Completed t → t.lmask[l]? = some false → ∀ r ∈ dst, ∀ x, t.triple r l = some x → P x

/-- The state that a step of the skeleton goes on to is all that counts. -/
theorem Leaves.of_completed {P : Triple → Prop} {dst : List Reg} {l : Nat} {t u : State} (hu : Leaves P dst l u)
    (h : Completed t → t = u) : Leaves P dst l t := by
  intro hc
  obtain rfl := h hc
  exact hu hc

/-- A lane with a result holds it after a per-lane command. -/
theorem keepFailing_of_result {s : State} {r : Reg} {rs : List (Option Triple)} {l : Nat} {y : Triple}
    (hl : l < s.cfg.lanes) (h : rs[l]? = some (some y)) : (keepFailing rs (s.lanes r))[l]?.join = some y.limbs := by
  rw [keepFailing_getElem rs _ l _ _ h (lanes_getElem s r l hl)]
  rfl

/-- A lane that is not reported has a result. -/
theorem result_of_not_failing {α : Type} {rs : List (Option α)} {l : Nat} (h : (failingLanes rs)[l]? = some false) :
    ∃ a, rs[l]? = some (some a) := by
  simpa [failingLanes, Option.isNone_eq_false_iff, Option.isSome_iff_exists] using h

section
variable {s : State} {P : Triple → Prop} {dst : List Reg} {l : Nat}

/-! ### The steps of the skeleton -/

theorem beginCommand_leaves (hf : s.fault = 0) {legal : Bool} {k : State} (hk : Leaves P dst l k) :
    Leaves P dst l (s.beginCommand legal k) :=
  hk.of_completed (beginCommand_of_completed hf)

theorem beginPayload_leaves (hf : s.fault = 0) {legal : Bool} {n : Nat} {k : List Byte → State}
    (hk : Leaves P dst l (k s.payload)) : Leaves P dst l (s.beginPayload legal n k) :=
  hk.of_completed (beginPayload_of_completed hf)

theorem source_leaves {r : Reg} {k : List Triple → State}
    (hk : ∀ x, (∀ y ∈ x, y.below (2 ^ 64) = true) → Leaves P dst l (k x)) : Leaves P dst l (s.source r k) := by
  intro hc
  obtain ⟨x, hx, e⟩ := source_of_completed hc
  rw [e] at hc ⊢
  refine hk x (fun y hy => ?_) hc
  obtain ⟨n, hn, rfl⟩ := List.mem_iff_getElem.mp hy
  refine (below_iff _ _).mpr (triple_below s r n _ ?_)
  rw [readReg_getElem s r x hx n (readReg_length s r x hx ▸ hn), List.getElem?_eq_getElem hn]

theorem sourcePair_leaves {r : Reg} {k : List Fp2 → State} (hk : ∀ c, Leaves P dst l (k c)) :
    Leaves P dst l (s.sourcePair r k) :=
  source_leaves fun _ _ => source_leaves fun _ _ => hk _

theorem requireRange_leaves {b : Bool} {k : State} (hk : b = true → Leaves P dst l k) :
    Leaves P dst l (s.requireRange b k) := by
  rcases requireRange_cases s b k with ⟨-, e⟩ | ⟨hb, e⟩ <;> rw [e]
  · exact fun hc => absurd hc (raise_not_completed s (.inr rfl))
  · exact hk hb

theorem requireSlots_leaves {b : Bool} {k : State} (hk : b = true → Leaves P dst l k) :
    Leaves P dst l (s.requireSlots b k) := by
  rcases requireSlots_cases s b k with ⟨-, e⟩ | ⟨hb, e⟩ <;> rw [e]
  · exact fun hc => absurd hc (fail_not_completed s (.inr rfl))
  · exact hk hb

/-! ### The ways to complete -/

variable (hP : ∀ x, P x → Reduced x)
include hP

/-- A triple that was stored is read back, for its limbs fit 64 bits. -/
theorem stored_of_triple {t : State} {r : Reg} {x y : Triple} (hy : P y) (hlane : t.lane r l = some y.limbs)
    (hx : t.triple r l = some x) : P x := by
  obtain ⟨h0, h1, h2⟩ := fits_of_below (hP y hy)
  rw [State.triple, hlane, Option.map_some, limbs_nat y h0 h1 h2] at hx
  cases hx
  exact hy

theorem storeReg_leaves (rd : Reg) {xs : List Triple} (hxs : ∀ y ∈ xs, P y) : Leaves P [rd] l (s.storeReg rd xs) := by
  intro _ _ r hr x hx
  obtain rfl := List.mem_singleton.mp hr
  obtain ⟨-, -, hlane⟩ := storeReg_spec s r xs
  cases hy : xs[l]? with
  | none => simp [State.triple, hlane, hy] at hx
  | some y => exact stored_of_triple hP (hxs y (List.mem_of_getElem? hy)) (by rw [hlane l, hy]; rfl) hx

theorem storePair_leaves (rd : Reg) {xs : List Fp2} (hxs : ∀ c ∈ xs, P c.1 ∧ P c.2) :
    Leaves P [rd, partner rd] l (s.storePair rd xs) := by
  intro _ _ r hr x hx
  obtain ⟨-, -, hlane⟩ := storePair_spec s rd xs
  obtain ⟨hfst, hsnd⟩ := hlane l
  cases hc : xs[l]? with
  | none => rcases List.mem_pair.mp hr with rfl | rfl <;> simp [State.triple, hfst, hsnd, hc] at hx
  | some c =>
    obtain ⟨h1, h2⟩ := hxs c (List.mem_of_getElem? hc)
    rcases List.mem_pair.mp hr with rfl | rfl
    · exact stored_of_triple hP h1 (by rw [hfst, hc]; rfl) hx
    · exact stored_of_triple hP h2 (by rw [hsnd, hc]; rfl) hx

/-- INV's ending: the lanes that are not reported hold their results. -/
theorem keepFailing_leaves (hl : l < s.cfg.lanes) (rd : Reg) {rs : List (Option Triple)} {c : Code} {q : List Byte}
    (hrs : ∀ y, some y ∈ rs → P y) :
    Leaves P [rd] l ((s.writeReg rd (keepFailing rs (s.lanes rd))).finish c (failingLanes rs) q) := by
  intro _ hm r hr x hx
  obtain rfl := List.mem_singleton.mp hr
  obtain ⟨y, hy⟩ := result_of_not_failing hm
  refine stored_of_triple hP (hrs y (List.mem_of_getElem? hy)) ?_ hx
  rw [finish_lane, lane_writeReg_same, keepFailing_of_result hl hy]

/-- FP2INV's ending, likewise for both components. -/
theorem keepFailingPair_leaves (hl : l < s.cfg.lanes) (rd : Reg) {rs : List (Option Fp2)} {c : Code} {q : List Byte}
    (hrs : ∀ d, some d ∈ rs → P d.1 ∧ P d.2) :
    Leaves P [rd, partner rd] l (((s.writeReg rd (keepFailing (rs.map (Option.map Prod.fst)) (s.lanes rd))).writeReg
      (partner rd) (keepFailing (rs.map (Option.map Prod.snd)) (s.lanes (partner rd)))).finish c (failingLanes rs) q) := by
  intro _ hm r hr x hx
  obtain ⟨d, hd⟩ := result_of_not_failing hm
  obtain ⟨h1, h2⟩ := hrs d (List.mem_of_getElem? hd)
  rcases List.mem_pair.mp hr with rfl | rfl
  · refine stored_of_triple hP h1 ?_ hx
    rw [finish_lane, lane_writeReg_other _ _ _ _ _ (partner_ne r).symm, lane_writeReg_same]
    exact keepFailing_of_result hl (by rw [List.getElem?_map, hd]; rfl)
  · refine stored_of_triple hP h2 ?_ hx
    rw [finish_lane, lane_writeReg_same]
    exact keepFailing_of_result hl (by rw [List.getElem?_map, hd]; rfl)

end

/-! ### Lists of results -/

theorem forall_mem_zipWith {α β γ : Type} {f : α → β → γ} {P : γ → Prop} {xs : List α} {ys : List β}
    (h : ∀ a ∈ xs, ∀ b ∈ ys, P (f a b)) : ∀ c ∈ List.zipWith f xs ys, P c := by
  rw [← List.map_uncurry_zip_eq_zipWith]
  refine List.forall_mem_map.mpr fun (a, b) hab => ?_
  obtain ⟨ha, hb⟩ := List.of_mem_zip hab
  exact h a ha b hb

/-- What a check of every lane says of each operand. -/
theorem forall_mem_of_everyLaneHolds {α : Type} {p : α → Bool} {xs : List α} (h : everyLaneHolds p xs = true) :
    ∀ x ∈ xs, p x = true := List.all_eq_true.mp h

/-! ### Every command of R141's first two rows -/

theorem exec_mul_leaves_reduced {s : State} (hf : s.fault = 0) (l : Nat) (rd ra rb : Reg) :
    ∃ t, exec (.mul rd ra rb) s = .next t ∧ Leaves Reduced [rd] l t := by
  refine ⟨_, rfl, beginCommand_leaves hf (source_leaves fun x _ => source_leaves fun y _ =>
    requireRange_leaves fun h => storeReg_leaves (fun _ => id) rd ?_)⟩
  obtain ⟨hx, hy⟩ := Bool.and_eq_true_iff.mp h
  exact forall_mem_zipWith fun a ha b hb =>
    feMul_below (forall_mem_of_everyLaneHolds hx a ha) (forall_mem_of_everyLaneHolds hy b hb)

theorem exec_fp2mul_leaves_reduced {s : State} (hf : s.fault = 0) (l : Nat) (rd ra rb : Reg) :
    ∃ t, exec (.fp2mul rd ra rb) s = .next t ∧ Leaves Reduced [rd, partner rd] l t := by
  refine ⟨_, rfl, beginCommand_leaves hf (sourcePair_leaves fun c => sourcePair_leaves fun d =>
    requireRange_leaves fun h => storePair_leaves (fun _ => id) rd ?_)⟩
  obtain ⟨hc, hd⟩ := Bool.and_eq_true_iff.mp h
  exact forall_mem_zipWith fun a ha b hb =>
    fp2Mul_reduced (forall_mem_of_everyLaneHolds hc a ha) (forall_mem_of_everyLaneHolds hd b hb)

/-- WRED and the multiplications leave reduced triples; the squarings are multiplications. -/
theorem exec_leaves_reduced {i : Instr} {s : State} (hf : s.fault = 0) (l : Nat)
    (hi : i.mnemonic ∈ ["WRED", "MUL", "SQR", "FP2MUL", "FP2SQR"]) :
    ∃ t, exec i s = .next t ∧ Leaves Reduced i.destinations l t := by
  cases i
  case wred rd ra =>
    exact ⟨_, rfl, beginCommand_leaves hf (source_leaves fun x hx =>
      storeReg_leaves (fun _ => id) rd (List.forall_mem_map.mpr fun y hy => wred_below (hx y hy)))⟩
  case mul rd ra rb => exact exec_mul_leaves_reduced hf l rd ra rb
  case fp2mul rd ra rb => exact exec_fp2mul_leaves_reduced hf l rd ra rb
  case sqr rd ra =>
    obtain ⟨hsqr, -⟩ := squaringIsSelfMultiplication s rd ra
    exact hsqr ▸ exec_mul_leaves_reduced hf l rd ra ra
  case fp2sqr rd ra =>
    obtain ⟨-, hsqr⟩ := squaringIsSelfMultiplication s rd ra
    exact hsqr ▸ exec_fp2mul_leaves_reduced hf l rd ra ra
  all_goals simp [Instr.mnemonic] at hi

/-- The constructors, the decoders, CANON and the inversions leave canonical triples. -/
theorem exec_leaves_canonical {i : Instr} {s : State} (hf : s.fault = 0) {l : Nat} (hl : l < s.cfg.lanes)
    (hi : i.mnemonic ∈ ["ZERO", "ONE", "LDI", "DEC", "FP2DEC", "CANON", "INV", "FP2INV"]) :
    ∃ t, exec i s = .next t ∧ Leaves Canonical i.destinations l t := by
  have hred (x : Triple) : Canonical x → Reduced x := reduced_of_canonical
  cases i
  case zero rd =>
    refine ⟨_, rfl, beginCommand_leaves hf (storeReg_leaves hred rd fun y hy => ?_)⟩
    rw [List.eq_of_mem_replicate hy]; exact feSmall_canonical (n := 0) (by decide)
  case one rd =>
    refine ⟨_, rfl, beginCommand_leaves hf (storeReg_leaves hred rd fun y hy => ?_)⟩
    rw [List.eq_of_mem_replicate hy]; exact feSmall_canonical (n := 1) (by decide)
  case ldi rd =>
    exact ⟨_, rfl, beginPayload_leaves hf (storeReg_leaves hred rd (List.forall_mem_map.mpr fun n hn =>
      feSmall_canonical (smallIntegers_lt hn)))⟩
  case dec rd =>
    exact ⟨_, rfl, beginPayload_leaves hf (requireSlots_leaves fun hb => storeReg_leaves hred rd
      (List.forall_mem_map.mpr fun slot hslot =>
        digits_canonical (of_decide_eq_true (forall_mem_of_everyLaneHolds hb slot hslot))))⟩
  case fp2dec rd =>
    refine ⟨_, rfl, beginPayload_leaves hf (requireSlots_leaves fun hb => storePair_leaves hred rd
      (List.forall_mem_map.mpr fun slot hslot => ?_))⟩
    obtain ⟨h0, h1⟩ := Bool.and_eq_true_iff.mp (forall_mem_of_everyLaneHolds hb slot hslot)
    exact ⟨digits_canonical (of_decide_eq_true h0), digits_canonical (of_decide_eq_true h1)⟩
  case canon rd ra =>
    exact ⟨_, rfl, beginCommand_leaves hf (source_leaves fun x _ => storeReg_leaves hred rd
      (List.forall_mem_map.mpr fun y _ => digits_canonical (residue_lt y)))⟩
  case inv rd ra =>
    refine ⟨_, rfl, beginCommand_leaves hf (source_leaves fun x _ => keepFailing_leaves hred hl rd fun y hy => ?_)⟩
    obtain ⟨a, -, ha⟩ := List.mem_map.mp hy
    exact feInv_canonical ha
  case fp2inv rd ra =>
    refine ⟨_, rfl, beginCommand_leaves hf (sourcePair_leaves fun c => keepFailingPair_leaves hred hl rd fun d hd => ?_)⟩
    obtain ⟨a, -, ha⟩ := List.mem_map.mp hd
    exact fp2Inv_canonical ha
  all_goals simp [Instr.mnemonic] at hi

/-- Settles O56. -/
theorem resultsKeepTheirBounds : Obligations.ResultsKeepTheirBounds := by
  intro i s t rd l x hf ht hc hrd hl hm hx
  refine ⟨fun hi => ?_, fun hi => ?_⟩
  · obtain ⟨u, hu, hleaves⟩ := exec_leaves_reduced hf l hi
    obtain rfl : u = t := by simpa [hu] using ht
    exact hleaves hc hm rd hrd x hx
  · obtain ⟨u, hu, hleaves⟩ := exec_leaves_canonical hf hl hi
    obtain rfl : u = t := by simpa [hu] using ht
    exact hleaves hc hm rd hrd x hx

end Sys2Proof.Proofs
end

section
/-! PROOFS of the family 44_fp2.md, the pure functions: the Karatsuba product is the product in GF(p)[u]/(u² − ETA), and
the inverse is the conjugate divided by the norm, which is not 0 for a non-residue. -/

namespace Sys2Proof.Proofs

open Sys2Proof.Machine Sys2Proof.Laws

/-! ### The Karatsuba product (R158 to R160) -/

theorem mulInRange_of_reduced {x : Triple} (h : Reduced x) : mulInRange x = true := by
  obtain ⟨h0, h1, h2⟩ := (below_iff x _).mp h
  exact (mulInRange_iff x).mpr (by omega)

/-- "the subtrahend limbs are < 2^43 ≤ BIAS_i" (R159). -/
theorem limbsLe_bias_of_reduced {x : Triple} (h : Reduced x) : limbsLe x bias = true := by
  obtain ⟨h0, h1, h2⟩ := (below_iff x _).mp h
  exact (limbsLe_iff x bias).mpr (by simp only [bias]; omega)

theorem val_feAdd (x y : Triple) : val (feAdd x y) = val x + val y := by
  simp only [val, feAdd]
  omega

theorem val_wred_modEq (x : Triple) : val (wred x) ≡ val x [MOD modulus] := residue_wred x

theorem val_feMul_modEq {x y : Triple} (hx : mulInRange x = true) (hy : mulInRange y = true) :
    val (feMul x y) ≡ val x * val y [MOD modulus] := residue_feMul hx hy

/-- The biases of the two subtractions are multiples of p. -/
theorem val_feSub_feSub_add_modEq {x y z : Triple} (hy : Reduced y) (hz : Reduced z) :
    val (feSub (feSub x y) z) + (val y + val z) ≡ val x [MOD modulus] := by
  have h1 := val_feSub_add_val (x := x) (limbsLe_bias_of_reduced hy)
  have h2 := val_feSub_add_val (x := feSub x y) (limbsLe_bias_of_reduced hz)
  have h : val (feSub (feSub x y) z) + (val y + val z) = val x + modulus * 2 ^ 12 := by omega
  rw [h]
  exact Nat.add_mul_mod_self_left _ _ _

section
variable {eta : Nat} {c d : Fp2} (hc : fp2MulInRange c = true) (hd : fp2MulInRange d = true)
include hc hd

theorem val_fp2Mul_fst_modEq (heta : eta < modulus) :
    val (fp2Mul eta c d).1 ≡ val c.1 * val d.1 + eta * (val c.2 * val d.2) [MOD modulus] := by
  obtain ⟨hc1, hc2⟩ := mulInRange_of_fp2MulInRange hc
  obtain ⟨hd1, hd2⟩ := mulInRange_of_fp2MulInRange hd
  have hscale : val (scaleByEta eta (feMul c.2 d.2)) ≡ eta * val (feMul c.2 d.2) [MOD modulus] := by
    have h := val_feMul_modEq (mulInRange_of_reduced (digits_below heta)) (mulInRange_of_reduced (feMul_below hc2 hd2))
    rwa [val_digits] at h
  calc val (fp2Mul eta c d).1
      ≡ val (feAdd (feMul c.1 d.1) (scaleByEta eta (feMul c.2 d.2))) [MOD modulus] := val_wred_modEq _
    _ = val (feMul c.1 d.1) + val (scaleByEta eta (feMul c.2 d.2)) := val_feAdd _ _
    _ ≡ val c.1 * val d.1 + eta * (val c.2 * val d.2) [MOD modulus] :=
      (val_feMul_modEq hc1 hd1).add (hscale.trans ((val_feMul_modEq hc2 hd2).mul_left eta))

/-- The product of the sums holds both squares and both cross products; what is taken from it are the squares. -/
theorem val_fp2Mul_snd_modEq : val (fp2Mul eta c d).2 ≡ val c.1 * val d.2 + val c.2 * val d.1 [MOD modulus] := by
  obtain ⟨hc1, hc2⟩ := mulInRange_of_fp2MulInRange hc
  obtain ⟨hd1, hd2⟩ := mulInRange_of_fp2MulInRange hd
  have ht := (val_feMul_modEq hc1 hd1).add (val_feMul_modEq hc2 hd2)
  refine ht.add_right_cancel ?_
  calc val (fp2Mul eta c d).2 + (val (feMul c.1 d.1) + val (feMul c.2 d.2))
      ≡ val (feMul (feAdd c.1 c.2) (feAdd d.1 d.2)) [MOD modulus] :=
        ((val_wred_modEq _).add_right _).trans (val_feSub_feSub_add_modEq (feMul_below hc1 hd1) (feMul_below hc2 hd2))
    _ ≡ val (feAdd c.1 c.2) * val (feAdd d.1 d.2) [MOD modulus] := val_feMul_modEq hc hd
    _ = val c.1 * val d.2 + val c.2 * val d.1 + (val c.1 * val d.1 + val c.2 * val d.2) := by
        rw [val_feAdd, val_feAdd]; ring

end

/-- Settles O37: three products of legal operands and their reduced combinations. -/
theorem fp2ProductIsCorrect : Obligations.Fp2ProductIsCorrect :=
  fun _ _ _ heta hc hd => ⟨rfl, val_fp2Mul_fst_modEq hc hd heta, val_fp2Mul_snd_modEq hc hd, fp2Mul_reduced hc hd⟩

/-! ### The inverse (R163) -/

section
variable {eta : Nat} {c : Fp2}

theorem fp2Inv_of_residues_eq_zero (h : residue c.1 = 0 ∧ residue c.2 = 0) : fp2Inv eta c = none := if_pos h

theorem fp2Inv_of_residues_ne_zero (h : ¬(residue c.1 = 0 ∧ residue c.2 = 0)) :
    fp2Inv eta c = some
      (digits (residue c.1 * modInverse (norm eta (residue c.1) (residue c.2)) % modulus),
        digits ((modulus - residue c.2) % modulus * modInverse (norm eta (residue c.1) (residue c.2)) % modulus)) :=
  if_neg h

end

/-- The norm of a non-zero element is not 0 where e is no square: else e were (a / b)². -/
theorem norm_ne_zero_of_nonresidue {F : Type} [Field F] {e a b : F} (he : ∀ x : F, x * x ≠ e) (h : ¬(a = 0 ∧ b = 0)) :
    a * a - e * b * b ≠ 0 := by
  intro h0
  by_cases hb : b = 0
  · rw [hb, mul_zero, sub_zero] at h0
    exact h ⟨mul_self_eq_zero.mp h0, hb⟩
  · refine he (a / b) ?_
    field_simp
    linear_combination h0

/-! ### Residues in the field with p elements -/

theorem mod_eq_of_cast_eq {m n : Nat} (hn : n < modulus) (h : (m : ZMod modulus) = n) : m % modulus = n :=
  ((ZMod.natCast_eq_natCast_iff' m n modulus).mp h).trans (Nat.mod_eq_of_lt hn)

theorem cast_residue (x : Triple) : (residue x : ZMod modulus) = val x := ZMod.natCast_mod _ _

theorem cast_val_eq_zero_iff (x : Triple) : (val x : ZMod modulus) = 0 ↔ residue x = 0 :=
  (ZMod.natCast_eq_zero_iff _ _).trans (Nat.dvd_iff_mod_eq_zero ..)

theorem cast_modulus_sub_residue (x : Triple) : ((modulus - residue x : Nat) : ZMod modulus) = -val x := by
  rw [Nat.cast_sub (residue_lt x).le, ZMod.natCast_self, cast_residue, zero_sub]

theorem cast_norm (eta a0 a1 : Nat) : (norm eta a0 a1 : ZMod modulus) = a0 * a0 - eta * a1 * a1 := by
  have h : (norm eta a0 a1 : Int) = ((a0 * a0 : Nat) - (eta * a1 * a1 : Nat) : Int) % (modulus : Int) :=
    Int.toNat_of_nonneg (Int.emod_nonneg _ (by decide))
  rw [← Int.cast_natCast, h, ZMod.intCast_mod]
  push_cast
  rfl

theorem cast_mul_self_ne {eta : Nat} (heta : eta < modulus) (h : ∀ n : Nat, n * n % modulus ≠ eta) (x : ZMod modulus) :
    x * x ≠ eta := by
  have := Fact.mk modulus_prime
  refine fun hx => h x.val (mod_eq_of_cast_eq heta ?_)
  rw [Nat.cast_mul, ZMod.natCast_zmod_val, hx]

/-- The norm times its inverse, in the field. -/
theorem norm_mul_cast_modInverse {cfg : Config} (hadm : cfg.Admissible) {c : Fp2}
    (hc : ¬(residue c.1 = 0 ∧ residue c.2 = 0)) :
    ((val c.1 : ZMod modulus) * val c.1 - cfg.eta * val c.2 * val c.2) *
      modInverse (norm cfg.eta (residue c.1) (residue c.2)) = 1 := by
  have := Fact.mk modulus_prime
  obtain ⟨-, -, heta, hsq⟩ := hadm
  have hcast := cast_norm cfg.eta (residue c.1) (residue c.2)
  simp only [cast_residue] at hcast
  have hne : (norm cfg.eta (residue c.1) (residue c.2) : ZMod modulus) ≠ 0 := by
    rw [hcast]
    refine norm_ne_zero_of_nonresidue (cast_mul_self_ne heta hsq) fun h => hc ?_
    exact h.imp (cast_val_eq_zero_iff _).mp (cast_val_eq_zero_iff _).mp
  have hmul := mul_modInverse fun h => hne ((ZMod.natCast_eq_zero_iff _ _).mpr (Nat.dvd_of_mod_eq_zero h))
  rw [← hcast, ← Nat.cast_mul, ← ZMod.natCast_mod, hmul, Nat.cast_one]

/-- Settles O38: (a0 + a1·u)·(a0 − a1·u) is the norm, which has an inverse. -/
theorem fp2InverseIsCorrect : Obligations.Fp2InverseIsCorrect := by
  refine fun cfg c hadm => ⟨fp2Inv_of_residues_eq_zero, fun hc => ?_⟩
  have hnorm := norm_mul_cast_modInverse hadm hc
  refine ⟨_, _, ?_, ?_, fp2Inv_of_residues_ne_zero hc, mod_eq_of_cast_eq (n := 1) (by decide) ?_,
    mod_eq_of_cast_eq (n := 0) (by decide) ?_⟩
  · exact Nat.mod_lt _ (by decide)
  · exact Nat.mod_lt _ (by decide)
  · simp only [Nat.cast_add, Nat.cast_mul, ZMod.natCast_mod, cast_residue, cast_modulus_sub_residue]
    linear_combination hnorm
  · simp only [Nat.cast_add, Nat.cast_mul, ZMod.natCast_mod, cast_residue, cast_modulus_sub_residue]
    ring

end Sys2Proof.Proofs
end

section
/-! PROOFS of the family 44_fp2.md, the commands: what FP2ADD, FP2SUB, FP2MUL, FP2SQR and FP2INV write and answer when they
complete, and that FP2ADD is two ADDs. -/

namespace Sys2Proof.Proofs

open Sys2Proof.Machine Sys2Proof.Laws

/-! ### Pairs as sources and destinations -/

/-- Every lane of the pair that begins at r is written, and lane l holds the element c l. -/
def HoldsPair (s : State) (r : Reg) (c : Nat → Fp2) : Prop :=
  s.Holds r (fun l => (c l).1) ∧ s.Holds (partner r) fun l => (c l).2

theorem sourcePair_of_holdsPair {s : State} {r : Reg} {c : Nat → Fp2} (h : HoldsPair s r c) (k : List Fp2 → State) :
    s.sourcePair r k = k ((List.range s.cfg.lanes).map c) :=
  sourcePair_of_holds s r _ _ h.1 h.2 k

theorem holdsPair_of_written {s : State} {r : Reg} (h : s.Written r) (h' : s.Written (partner r)) :
    HoldsPair s r fun l => (heldIn s r l, heldIn s (partner r) l) :=
  ⟨holds_of_written h, holds_of_written h'⟩

theorem evenReg_of_mod {r : Reg} (h : r.val % 2 = 0) : evenReg r = true := beq_iff_eq.mpr h

/-- A command that stores f in a pair completes with f in it, when the limbs fit 64 bits. -/
theorem completes_with_storedPair {s t : State} {rd : Reg} {f : Nat → Fp2} (hr : s.Ready [])
    (ht : t = s.storePair rd ((List.range s.cfg.lanes).map f))
    (hf : ∀ l, l < s.cfg.lanes → ((f l).1.x0 < 2 ^ 64 ∧ (f l).1.x1 < 2 ^ 64 ∧ (f l).1.x2 < 2 ^ 64) ∧
      ((f l).2.x0 < 2 ^ 64 ∧ (f l).2.x1 < 2 ^ 64 ∧ (f l).2.x2 < 2 ^ 64)) :
    s.CompletedWith t [rd, partner rd] .ok s.zeroMask [] ∧ HoldsPair t rd f := by
  subst ht
  exact ⟨storePair_completedWith s hr.1 rd _, storePair_holds s rd f hf⟩

/-! ### FP2ADD and FP2SUB (R164, R165) -/

section
variable {s : State} {rd ra rb : Reg} {c d : Nat → Fp2}

/-- Three even register fields make a command legal (R59). -/
theorem evenRegs_of_mod (hrd : rd.val % 2 = 0) (hra : ra.val % 2 = 0) (hrb : rb.val % 2 = 0) :
    (evenReg rd && evenReg ra && evenReg rb) = true := by
  rw [evenReg_of_mod hrd, evenReg_of_mod hra, evenReg_of_mod hrb]; rfl

/-- A command on two pairs whose check holds. -/
theorem execPairs_eq_storePair {legal : Bool} (hlegal : legal = true) (hr : s.Ready []) (hc : HoldsPair s ra c)
    (hd : HoldsPair s rb d) {check : List Fp2 → List Fp2 → Bool}
    (hcheck : check ((List.range s.cfg.lanes).map c) ((List.range s.cfg.lanes).map d) = true) (F : Fp2 → Fp2 → Fp2) :
    (s.beginCommand legal <| s.sourcePair ra fun c => s.sourcePair rb fun d =>
      s.requireRange (check c d) <| s.storePair rd (List.zipWith F c d)) =
      s.storePair rd ((List.range s.cfg.lanes).map fun l => F (c l) (d l)) := by
  rw [hlegal, beginCommand_ready s hr, sourcePair_of_holdsPair hc, sourcePair_of_holdsPair hd, hcheck, zipWith_range]
  rfl

theorem fp2AddInRange_of_rangeHolds (hc : HoldsPair s ra c) (hd : HoldsPair s rb d)
    (hrange : s.RangeHolds (.fp2add rd ra rb)) :
    everyLaneHolds2 fp2AddInRange ((List.range s.cfg.lanes).map c) ((List.range s.cfg.lanes).map d) = true :=
  (everyLaneHolds2_pairs_iff hc.1 hc.2 hd.1 hd.2 addInRange_iff).mpr hrange

theorem fp2SubInRange_of_rangeHolds (hc : HoldsPair s ra c) (hd : HoldsPair s rb d)
    (hrange : s.RangeHolds (.fp2sub rd ra rb)) :
    everyLaneHolds2 fp2SubInRange ((List.range s.cfg.lanes).map c) ((List.range s.cfg.lanes).map d) = true :=
  (everyLaneHolds2_pairs_iff hc.1 hc.2 hd.1 hd.2 subInRange_iff).mpr hrange

end

/-- Settles O53: the range condition of each component is what makes its sums, or its biased differences, fit. -/
theorem fp2addAndFp2subWorkComponentwise : Obligations.Fp2addAndFp2subWorkComponentwise := by
  intro s rd ra rb x0 x1 y0 y1 hrd hra hrb hr hx0 hx1 hy0 hy1
  have hlegal := evenRegs_of_mod hrd hra hrb
  have hc : HoldsPair s ra fun l => (x0 l, x1 l) := ⟨hx0, hx1⟩
  have hd : HoldsPair s rb fun l => (y0 l, y1 l) := ⟨hy0, hy1⟩
  refine ⟨fun hrange => ?_, fun hrange => ?_⟩
  · have hcheck := fp2AddInRange_of_rangeHolds hc hd hrange
    refine ⟨_, rfl, completes_with_storedPair hr (execPairs_eq_storePair hlegal hr hc hd hcheck fp2Add) fun l hl => ?_⟩
    obtain ⟨h0, h1⟩ := Bool.and_eq_true_iff.mp ((everyLaneHolds2_range ..).mp hcheck l hl)
    exact ⟨fits_of_limbsLe h0, fits_of_limbsLe h1⟩
  · have hcheck := fp2SubInRange_of_rangeHolds hc hd hrange
    refine ⟨_, rfl, completes_with_storedPair hr (execPairs_eq_storePair hlegal hr hc hd hcheck fp2Sub) fun l hl => ?_⟩
    obtain ⟨h0, h1⟩ := Bool.and_eq_true_iff.mp ((everyLaneHolds2_range ..).mp hcheck l hl)
    exact ⟨fits_of_limbsLe (Bool.and_eq_true_iff.mp h0).2, fits_of_limbsLe (Bool.and_eq_true_iff.mp h1).2⟩

/-! ### FP2MUL and FP2SQR (R166, R167) -/

section
variable {s : State} {rd ra rb : Reg} {c d : Nat → Fp2}

theorem fp2MulInRange_of_rangeHolds (rd : Reg) (hc : HoldsPair s ra c) (hrange : s.RangeHolds (.fp2sqr rd ra)) :
    everyLaneHolds fp2MulInRange ((List.range s.cfg.lanes).map c) = true :=
  (everyLaneHolds_pair_iff hc.1 hc.2 fun u v => fp2MulInRange_iff (u, v)).mpr hrange

/-- FP2MUL completes with the reduced products in its destination. -/
theorem exec_fp2mul_completes (hw : (Instr.fp2mul rd ra rb).wellFormed = true) (hr : s.Ready []) (hc : HoldsPair s ra c)
    (hd : HoldsPair s rb d) (hrange : s.RangeHolds (.fp2mul rd ra rb)) :
    ∃ t, exec (.fp2mul rd ra rb) s = .next t ∧ s.CompletedWith t [rd, partner rd] .ok s.zeroMask [] ∧
      HoldsPair t rd fun l => fp2Mul s.cfg.eta (c l) (d l) := by
  obtain ⟨ha, hb⟩ := hrange
  have hca := fp2MulInRange_of_rangeHolds rd hc ha
  have hdb := fp2MulInRange_of_rangeHolds rd hd hb
  refine ⟨_, rfl, completes_with_storedPair hr (execPairs_eq_storePair hw hr hc hd
    (check := fun c d => everyLaneHolds fp2MulInRange c && everyLaneHolds fp2MulInRange d)
    (Bool.and_eq_true_iff.mpr ⟨hca, hdb⟩) (fp2Mul s.cfg.eta)) fun l hl => ?_⟩
  obtain ⟨h0, h1⟩ := fp2Mul_reduced (eta := s.cfg.eta) ((everyLaneHolds_range ..).mp hca l hl)
    ((everyLaneHolds_range ..).mp hdb l hl)
  exact ⟨fits_of_below h0, fits_of_below h1⟩

end

/-- Settles O54: reduced products fit a lane; FP2SQR is FP2MUL of the pair with itself. -/
theorem fp2mulAndFp2sqrWriteTheProduct : Obligations.Fp2mulAndFp2sqrWriteTheProduct := by
  intro s rd ra rb x0 x1 y0 y1 hrd hra hrb hr hx0 hx1 hy0 hy1
  have hc : HoldsPair s ra fun l => (x0 l, x1 l) := ⟨hx0, hx1⟩
  have hd : HoldsPair s rb fun l => (y0 l, y1 l) := ⟨hy0, hy1⟩
  refine ⟨exec_fp2mul_completes (evenRegs_of_mod hrd hra hrb) hr hc hd, fun hrange => ?_⟩
  obtain ⟨-, hsqr⟩ := squaringIsSelfMultiplication s rd ra
  rw [hsqr]
  exact exec_fp2mul_completes (evenRegs_of_mod hrd hra hra) hr hc hc ⟨hrange, hrange⟩

/-! ### FP2INV (R168) -/

/-- A command that writes a pair completes with its frame and its answer, whatever it writes. -/
theorem writePair_completedWith {s : State} (hf : s.fault = 0) (rd : Reg) (v w : Lanes) (c : Code) (m : List Bool)
    (q : List Byte) :
    s.CompletedWith (((s.writeReg rd v).writeReg (partner rd) w).finish c m q) [rd, partner rd] c m q := by
  refine ⟨⟨rfl, rfl, rfl, fun r hr => ?_⟩, hf, rfl, rfl, rfl⟩
  obtain ⟨hfst, hsnd⟩ : r ≠ rd ∧ r ≠ partner rd := by simpa using hr
  exact (regs_writeReg_other _ _ _ _ hsnd).trans (regs_writeReg_other s _ _ _ hfst)

theorem fp2Inv_isNone (eta : Nat) (c : Fp2) : (fp2Inv eta c).isNone = decide (residue c.1 = 0 ∧ residue c.2 = 0) := by
  by_cases h : residue c.1 = 0 ∧ residue c.2 = 0
  · rw [fp2Inv_of_residues_eq_zero h, decide_eq_true h]; rfl
  · rw [fp2Inv_of_residues_ne_zero h, decide_eq_false h]; rfl

/-- The lanes of FP2INV that fail are those with both residues 0. -/
theorem failingLanes_fp2Inv (eta : Nat) (c : Nat → Fp2) (n : Nat) :
    failingLanes ((List.range n).map fun l => fp2Inv eta (c l)) =
      (List.range n).map fun l => decide (residue (c l).1 = 0 ∧ residue (c l).2 = 0) := by
  simp only [failingLanes, List.map_map, Function.comp_def, fp2Inv_isNone]

/-- The lanes of register r after FP2INV, where r takes this component of the inverses. -/
def fp2InverseLanes (s : State) (r : Reg) (component : Fp2 → Triple) (c : Nat → Fp2) : Lanes :=
  keepFailing ((List.range s.cfg.lanes).map fun l => (fp2Inv s.cfg.eta (c l)).map component) (s.lanes r)

/-- The state after FP2INV. -/
def afterFp2inv (s : State) (rd : Reg) (c : Nat → Fp2) : State :=
  ((s.writeReg rd (fp2InverseLanes s rd Prod.fst c)).writeReg (partner rd)
    (fp2InverseLanes s (partner rd) Prod.snd c)).finish
    (if ∃ l ∈ List.range s.cfg.lanes, residue (c l).1 = 0 ∧ residue (c l).2 = 0 then .notInvertible else .ok)
    ((List.range s.cfg.lanes).map fun l => decide (residue (c l).1 = 0 ∧ residue (c l).2 = 0)) []

section
variable {s : State} {rd ra : Reg} {c : Nat → Fp2} {l : Nat}

theorem execFp2inv_eq (hrd : rd.val % 2 = 0) (hra : ra.val % 2 = 0) (hr : s.Ready []) (hc : HoldsPair s ra c) :
    execFp2inv rd ra s = .next (afterFp2inv s rd c) := by
  rw [execFp2inv, evenReg_of_mod hrd, evenReg_of_mod hra, Bool.and_self, beginCommand_ready s hr, sourcePair_of_holdsPair hc,
    afterFp2inv, ← inverseCode_map, ← failingLanes_fp2Inv s.cfg.eta]
  simp only [List.map_map, Function.comp_def, fp2InverseLanes]

theorem fp2InverseLanes_lane (r : Reg) (component : Fp2 → Triple) (hl : l < s.cfg.lanes) :
    (fp2InverseLanes s r component c)[l]?.join =
      (((fp2Inv s.cfg.eta (c l)).map component).map Triple.limbs).or (s.lane r l) :=
  keepFailing_lane r _ hl

theorem afterFp2inv_lanes (s : State) (rd : Reg) (c : Nat → Fp2) (l : Nat) :
    (afterFp2inv s rd c).lane rd l = (fp2InverseLanes s rd Prod.fst c)[l]?.join ∧
    (afterFp2inv s rd c).lane (partner rd) l = (fp2InverseLanes s (partner rd) Prod.snd c)[l]?.join := by
  constructor
  · rw [afterFp2inv, finish_lane, lane_writeReg_other _ _ _ _ _ (partner_ne rd).symm, lane_writeReg_same]
  · rw [afterFp2inv, finish_lane, lane_writeReg_same]

theorem afterFp2inv_lanes_of_none (rd : Reg) (hl : l < s.cfg.lanes) (h : fp2Inv s.cfg.eta (c l) = none) :
    (afterFp2inv s rd c).lane rd l = s.lane rd l ∧ (afterFp2inv s rd c).lane (partner rd) l = s.lane (partner rd) l := by
  obtain ⟨hfst, hsnd⟩ := afterFp2inv_lanes s rd c l
  rw [hfst, hsnd, fp2InverseLanes_lane _ _ hl, fp2InverseLanes_lane _ _ hl, h]
  exact ⟨rfl, rfl⟩

/-- An inverse is canonical, so its limbs fit a lane. -/
theorem afterFp2inv_triples_of_some (rd : Reg) (hl : l < s.cfg.lanes) {d : Fp2} (h : fp2Inv s.cfg.eta (c l) = some d) :
    (afterFp2inv s rd c).triple rd l = some d.1 ∧ (afterFp2inv s rd c).triple (partner rd) l = some d.2 := by
  obtain ⟨hfst, hsnd⟩ := afterFp2inv_lanes s rd c l
  obtain ⟨h1, h2⟩ := fp2Inv_canonical h
  obtain ⟨x0, x1, x2⟩ := fits_of_below (reduced_of_canonical h1)
  obtain ⟨y0, y1, y2⟩ := fits_of_below (reduced_of_canonical h2)
  rw [State.triple, State.triple, hfst, hsnd, fp2InverseLanes_lane _ _ hl, fp2InverseLanes_lane _ _ hl, h]
  exact ⟨congrArg some (limbs_nat _ x0 x1 x2), congrArg some (limbs_nat _ y0 y1 y2)⟩

end

/-- Settles O55: lane by lane, by whether there is an inverse. -/
theorem fp2invWritesTheInversesLaneByLane : Obligations.Fp2invWritesTheInversesLaneByLane := by
  intro s rd ra x0 x1 hrd hra hr hx0 hx1
  have hc : HoldsPair s ra fun l => (x0 l, x1 l) := ⟨hx0, hx1⟩
  exact ⟨_, execFp2inv_eq hrd hra hr hc, writePair_completedWith hr.1 rd _ _ _ _ _, fun l hl =>
    ⟨afterFp2inv_lanes_of_none rd (c := fun l => (x0 l, x1 l)) hl,
      fun d => afterFp2inv_triples_of_some rd (c := fun l => (x0 l, x1 l)) hl⟩⟩

/-! ### FP2ADD as two ADDs (R164) -/

theorem written_of_readReg {s : State} {r : Reg} {x : List Triple} (h : s.readReg r = some x) : s.Written r := by
  intro l hl hn
  rw [(readReg_eq_none s r).mpr ⟨l, hl, hn⟩] at h
  cases h

/-- A source pair that was read by a command that completed was written. -/
theorem holdsPair_of_completed {s : State} {r : Reg} {k : List Fp2 → State} (h : Completed (s.sourcePair r k)) :
    ∃ c, HoldsPair s r c ∧ Completed (k ((List.range s.cfg.lanes).map c)) := by
  obtain ⟨x, hx, e⟩ := source_of_completed h
  have h' : Completed (s.source (partner r) fun y => k (x.zip y)) := e ▸ (h : Completed (s.source r _))
  obtain ⟨y, hy, -⟩ := source_of_completed h'
  have hc := holdsPair_of_written (written_of_readReg hx) (written_of_readReg hy)
  exact ⟨_, hc, sourcePair_of_holdsPair hc k ▸ h⟩

/-- A command that completed was legal (R59). -/
theorem wellFormed_of_completed {i : Instr} {s t : State} (hf : s.fault = 0) (ht : exec i s = .next t)
    (hc : Completed t) : i.wellFormed = true := by
  by_contra hn
  obtain rfl : s.fail .illegalCommand = t := by simpa [exec_illegal hf (.inl (eq_false_of_ne_true hn))] using ht
  exact fail_not_completed s (.inl rfl) hc

/-- A range check made by a command that completed held. -/
theorem check_of_completed {s : State} {b : Bool} {k : State} (h : Completed (s.requireRange b k)) : b = true := by
  rcases requireRange_cases s b k with ⟨-, e⟩ | ⟨hb, -⟩
  · exact absurd (e ▸ h) (raise_not_completed s (.inr rfl))
  · exact hb

theorem even_of_wellFormed {rd ra rb : Reg} (h : (Instr.fp2add rd ra rb).wellFormed = true) :
    rd.val % 2 = 0 ∧ ra.val % 2 = 0 ∧ rb.val % 2 = 0 := by
  simpa [Instr.wellFormed, evenReg, and_assoc] using h

/-- The partner of an even register is odd. -/
theorem partner_ne_of_mod {r r' : Reg} (h : r.val % 2 = 0) (h' : r'.val % 2 = 0) : partner r ≠ r' := by
  revert r r'; decide

/-- A register that a command does not store into holds what it held. -/
theorem storeReg_holds_other {s : State} {r rd : Reg} {x : Nat → Triple} (h : r ≠ rd) (xs : List Triple)
    (hx : s.Holds r x) : (s.storeReg rd xs).Holds r x := by
  intro l hl
  rw [State.triple, State.storeReg, finish_lane, lane_writeTriples_other _ _ _ _ _ h]
  exact hx l hl

/-- What an FP2ADD that completed has stored, of which pairs. -/
theorem fp2add_of_completed {s t : State} {rd ra rb : Reg} (hf : s.fault = 0)
    (ht : exec (.fp2add rd ra rb) s = .next t) (hcompleted : Completed t) :
    s.Ready [] ∧ ∃ c d, HoldsPair s ra c ∧ HoldsPair s rb d ∧
      (∀ l, l < s.cfg.lanes → addInRange (c l).1 (d l).1 = true ∧ addInRange (c l).2 (d l).2 = true) ∧
      t = s.storePair rd ((List.range s.cfg.lanes).map fun l => fp2Add (c l) (d l)) := by
  have hw := wellFormed_of_completed hf ht hcompleted
  have hr := ready_of_completed hf ht hcompleted rfl
  obtain rfl : s.beginCommand _ _ = t := Host.Outcome.next.inj ht
  rw [beginCommand_of_completed hf hcompleted] at hcompleted
  obtain ⟨c, hc, hcompleted⟩ := holdsPair_of_completed hcompleted
  obtain ⟨d, hd, hcompleted⟩ := holdsPair_of_completed hcompleted
  have hcheck := check_of_completed hcompleted
  exact ⟨hr, c, d, hc, hd, fun l hl => Bool.and_eq_true_iff.mp ((everyLaneHolds2_range ..).mp hcheck l hl),
    execPairs_eq_storePair hw hr hc hd hcheck fp2Add⟩

/-- Settles O59: the second ADD reads odd registers, which the first one, into an even register, has left alone. -/
theorem fp2addIsTwoAdds : Obligations.Fp2addIsTwoAdds := by
  intro s t rd ra rb hf ht hstatus
  obtain ⟨hrd, hra, hrb⟩ := even_of_wellFormed (wellFormed_of_completed hf ht (.inl hstatus))
  obtain ⟨hr, c, d, ⟨hc0, hc1⟩, ⟨hd0, hd1⟩, hrange, rfl⟩ := fp2add_of_completed hf ht (.inl hstatus)
  have hfirst := execRangedBinary_eq_storeReg hr hc0 hd0 (fun l hl => (hrange l hl).1) feAdd rd
  have hsecond (xs : List Triple) := execRangedBinary_eq_storeReg (s := s.storeReg rd xs) ⟨hf, rfl⟩
    (storeReg_holds_other (partner_ne_of_mod hra hrd) xs hc1) (storeReg_holds_other (partner_ne_of_mod hrb hrd) xs hd1)
    (fun l hl => (hrange l hl).2) feAdd (partner rd)
  refine ⟨_, _, congrArg Host.Outcome.next hfirst, congrArg Host.Outcome.next (hsecond _), ?_, rfl⟩
  simp only [storeReg_regs, storePair_regs, List.map_map]
  rfl

end Sys2Proof.Proofs
end

section
/-! PROOFS of the family 45_codec.md, the pure functions: little-endian strings and integers undo each other, and with
them the canonical codec. -/

namespace Sys2Proof.Proofs

open Sys2Proof.Machine Sys2Proof.Laws

/-! ### Little-endian strings (R11, R42) -/

/-- Byte k of a little-endian string. -/
theorem leBytes_getElem? {size k : Nat} (hk : k < size) (n : Nat) :
    ((leBytes size n)[k]?).map BitVec.toNat = some (n / 2 ^ (8 * k) % 256) := by
  induction size generalizing n k with
  | zero => exact absurd hk (Nat.not_lt_zero k)
  | succ size ih =>
    cases k with
    | zero => simp [leBytes]
    | succ k =>
      have hweight : 256 * 2 ^ (8 * k) = 2 ^ (8 * (k + 1)) := by rw [Nat.mul_succ, Nat.pow_add, Nat.mul_comm]
      rw [leBytes, List.getElem?_cons_succ, ih (Nat.lt_of_succ_lt_succ hk), Nat.div_div_eq_div_mul, hweight]

/-- A string of k bytes holds an integer mod 256^k. -/
theorem leInt_leBytes (k n : Nat) : leInt (leBytes k n) = n % 256 ^ k := by
  induction k generalizing n with
  | zero => rw [Nat.pow_zero, Nat.mod_one]; rfl
  | succ k ih =>
    rw [leBytes, leInt, ih, BitVec.toNat_ofNat, Nat.mod_mod, Nat.pow_succ', Nat.mod_mul]

/-- A string is written back from its integer. -/
theorem leBytes_leInt (bytes : List Byte) : leBytes bytes.length (leInt bytes) = bytes := by
  induction bytes with
  | nil => rfl
  | cons b bytes ih =>
    have hlow : (b.toNat + 256 * leInt bytes) % 256 = b.toNat := by
      rw [Nat.add_mul_mod_self_left, Nat.mod_eq_of_lt b.isLt]
    have hhigh : (b.toNat + 256 * leInt bytes) / 256 = leInt bytes := by
      rw [Nat.add_mul_div_left _ _ (by decide), Nat.div_eq_of_lt b.isLt, Nat.zero_add]
    rw [leInt, List.length_cons, leBytes, hlow, hhigh, ih, BitVec.ofNat_toNat, BitVec.setWidth_eq]

/-- The integer of a string, with byte k at weight 2^(8k). -/
theorem leInt_eq_sum (bytes : List Byte) :
    leInt bytes = ((List.range bytes.length).map fun k => (bytes.getD k 0).toNat * 2 ^ (8 * k)).sum := by
  induction bytes with
  | nil => rfl
  | cons b bytes ih =>
    have hweight (k : Nat) : ((b :: bytes).getD (k + 1) 0).toNat * 2 ^ (8 * (k + 1)) =
        256 * ((bytes.getD k 0).toNat * 2 ^ (8 * k)) := by
      rw [List.getD_cons_succ, Nat.mul_succ, Nat.pow_add]; ring
    rw [leInt, ih, List.length_cons, List.range_succ_eq_map, List.map_cons, List.map_map, List.sum_cons,
      ← List.sum_map_mul_left]
    simp only [Function.comp_def, Nat.succ_eq_add_one, hweight, List.getD_cons_zero, Nat.mul_zero, Nat.pow_zero,
      Nat.mul_one]

/-! ### The canonical codec (R181, R182, R191) -/

/-- 16 bytes have room for every residue. -/
theorem leInt_encodeFe (x : Triple) : leInt (encodeFe x) = residue x := by
  rw [encodeFe, leInt_leBytes, Nat.mod_eq_of_lt ((residue_lt x).trans (by decide))]

theorem validSlot_iff (slot : List Byte) : validSlot slot = true ↔ leInt slot < modulus := decide_eq_true_iff

theorem decodeFe_encodeFe (x : Triple) : decodeFe (encodeFe x) = canon x := by rw [decodeFe, leInt_encodeFe, canon]

theorem validSlot_encodeFe (x : Triple) : validSlot (encodeFe x) = true :=
  (validSlot_iff _).mpr ((leInt_encodeFe x).trans_lt (residue_lt x))

/-- A valid slot is encoded back from what it decodes to. -/
theorem encodeFe_decodeFe {slot : List Byte} (hlen : slot.length = 16) (hslot : validSlot slot = true) :
    encodeFe (decodeFe slot) = slot := by
  rw [encodeFe, decodeFe, residue_digits ((validSlot_iff slot).mp hslot), ← hlen, leBytes_leInt]

/-- Settles O39: strings and integers undo each other, and the residue of a canonical triple is its integer. -/
theorem codecRoundTrips : Obligations.CodecRoundTrips :=
  ⟨fun _ => encodeFe_decodeFe,
    fun x => ⟨decodeFe_encodeFe x, validSlot_encodeFe x, encodeFe_length x, fun _ hk => leBytes_getElem? hk (residue x)⟩,
    fun size n => ⟨leBytes_length size n, fun _ hk => leBytes_getElem? hk n⟩,
    leInt_eq_sum⟩

end Sys2Proof.Proofs
end

section
/-! PROOFS of the family 45_codec.md, the commands: what NOP, ZERO, ONE, LDI, DEC, ENC, FP2DEC and FP2ENC write and answer
when they complete. -/

namespace Sys2Proof.Proofs

open Sys2Proof.Machine Sys2Proof.Laws

/-- Settles O40: NOP has nothing to read or to store. -/
theorem nopAnswersOk : Obligations.NopAnswersOk :=
  fun s hr => ⟨_, rfl, completes_with_answer hr.1 (beginCommand_ready s hr _)⟩

/-! ### ZERO and ONE (R184, R185) -/

theorem everyLane_eq_range (s : State) (x : Triple) : s.everyLane x = (List.range s.cfg.lanes).map fun _ => x := by
  rw [State.everyLane, List.map_const', List.length_range]

/-- A command without sources that stores the same triple in every lane. -/
theorem execConstant_eq_storeReg {s : State} (hr : s.Ready []) (x : Triple) (rd : Reg) :
    (s.beginCommand true <| s.storeReg rd (s.everyLane x)) = s.storeReg rd ((List.range s.cfg.lanes).map fun _ => x) := by
  rw [beginCommand_ready s hr, everyLane_eq_range]

/-- Settles O41: the constants fit a lane, so they are stored as they are. -/
theorem zeroAndOneFillTheRegister : Obligations.ZeroAndOneFillTheRegister := by
  intro s rd hr
  exact ⟨⟨_, rfl, (completes_with_stored hr (execConstant_eq_storeReg hr ⟨0, 0, 0⟩ rd) fun _ _ => by decide).symm⟩,
    ⟨_, rfl, (completes_with_stored hr (execConstant_eq_storeReg hr ⟨1, 0, 0⟩ rd) fun _ _ => by decide).symm⟩⟩

/-! ### Slots of a payload, and what is stored from them (R44) -/

theorem slots_eq_slotOf (size lanes : Nat) (bytes : List Byte) :
    slots size lanes bytes = (List.range lanes).map fun l => slotOf size l bytes :=
  slots_eq size lanes bytes

theorem everyLaneHolds_slots (p : List Byte → Bool) (size lanes : Nat) (bytes : List Byte) :
    everyLaneHolds p (slots size lanes bytes) = true ↔ ∀ l, l < lanes → p (slotOf size l bytes) = true := by
  rw [slots_eq_slotOf, everyLaneHolds_range]

/-- A command that stores canonical triples, whatever payload they came from, completes with them in its destination. -/
theorem completes_with_canonical {s t : State} (hf : s.fault = 0) {f : Nat → Triple} {rd : Reg}
    (hcanonical : ∀ l, l < s.cfg.lanes → Canonical (f l)) (ht : t = s.storeReg rd ((List.range s.cfg.lanes).map f)) :
    s.CompletedWith t [rd] .ok s.zeroMask [] ∧ t.Holds rd f := by
  subst ht
  exact ⟨storeReg_completedWith s hf rd _,
    storeReg_holds s rd f fun l hl => fits_of_below (reduced_of_canonical (hcanonical l hl))⟩

/-! ### LDI (R186) -/

theorem smallIntegers_eq (s : State) (bytes : List Byte) :
    s.smallIntegers bytes = (List.range s.cfg.lanes).map fun l => leInt (slotOf 8 l bytes) := by
  rw [State.smallIntegers, slots_eq_slotOf, List.map_map]; rfl

theorem leInt_slotOf_lt (s : State) (bytes : List Byte) {l : Nat} (hl : l < s.cfg.lanes) :
    leInt (slotOf 8 l bytes) < 2 ^ 64 := by
  refine smallIntegers_lt (s := s) (bytes := bytes) ?_
  rw [smallIntegers_eq]
  exact List.mem_map_of_mem (List.mem_range.mpr hl)

/-- Settles O42: a slot of 8 bytes holds a u64, and fe_small of a u64 is canonical. -/
theorem ldiLoadsTheSmallIntegers : Obligations.LdiLoadsTheSmallIntegers := by
  intro s rd hf hlen
  refine ⟨_, rfl, completes_with_canonical hf (f := fun l => feSmall (leInt (slotOf 8 l s.payload)))
    (fun l hl => feSmall_canonical (leInt_slotOf_lt s _ hl)) ?_⟩
  rw [beginPayload_ready s hf _ hlen, smallIntegers_eq, List.map_map]; rfl

/-! ### DEC (R187) -/

/-- DEC with a payload of valid slots. -/
theorem execDec_eq_storeReg {s : State} (hf : s.fault = 0) (hlen : s.payload.length = 16 * s.cfg.lanes)
    (hvalid : ∀ l, l < s.cfg.lanes → validSlot (slotOf 16 l s.payload) = true) (rd : Reg) :
    execDec rd s = .next (s.storeReg rd ((List.range s.cfg.lanes).map fun l => decodeFe (slotOf 16 l s.payload))) := by
  rw [execDec, beginPayload_ready s hf _ hlen, State.feSlots, (everyLaneHolds_slots ..).mpr hvalid, slots_eq_slotOf,
    List.map_map]
  rfl

/-- Settles O43: a valid slot decodes to a canonical triple. -/
theorem decWritesTheDecodedLanes : Obligations.DecWritesTheDecodedLanes := by
  intro s rd hf hlen hslots
  have hvalid (l : Nat) (hl : l < s.cfg.lanes) : validSlot (slotOf 16 l s.payload) = true :=
    (validSlot_iff _).mpr (hslots l hl)
  exact ⟨_, execDec_eq_storeReg hf hlen hvalid rd,
    completes_with_canonical hf (fun l hl => digits_canonical (hslots l hl)) rfl⟩

/-! ### FP2DEC (R189) -/

theorem validFp2Slot_iff (slot : List Byte) :
    validFp2Slot slot = true ↔ leInt (slot.take 16) < modulus ∧ leInt (slot.drop 16) < modulus := by
  rw [validFp2Slot, Bool.and_eq_true, validSlot_iff, validSlot_iff]

/-- The two halves of slot l. -/
theorem slotOf_halves (l : Nat) (bytes : List Byte) :
    (slotOf 32 l bytes).take 16 = (bytes.drop (32 * l)).take 16 ∧
    (slotOf 32 l bytes).drop 16 = (bytes.drop (32 * l + 16)).take 16 := by
  constructor
  · rw [slotOf, List.take_take]; rfl
  · rw [slotOf, List.drop_take, List.drop_drop]

/-- Slot l is valid when the half slots 2l and 2l + 1 are. -/
theorem validFp2Slot_slotOf {l : Nat} {bytes : List Byte} (h : leInt (slotOf 16 (2 * l) bytes) < modulus)
    (h' : leInt (slotOf 16 (2 * l + 1) bytes) < modulus) : validFp2Slot (slotOf 32 l bytes) = true := by
  obtain ⟨hfirst, hsecond⟩ := slotOf_halves l bytes
  rw [validFp2Slot_iff, hfirst, hsecond]
  rw [slotOf, ← Nat.mul_assoc] at h
  rw [slotOf, Nat.mul_succ, ← Nat.mul_assoc] at h'
  exact ⟨h, h'⟩

/-- FP2DEC into an even register, with a payload of valid slots. -/
theorem execFp2dec_eq_storePair {s : State} {rd : Reg} (hrd : rd.val % 2 = 0) (hf : s.fault = 0)
    (hlen : s.payload.length = 32 * s.cfg.lanes)
    (hvalid : ∀ l, l < s.cfg.lanes → validFp2Slot (slotOf 32 l s.payload) = true) :
    execFp2dec rd s = .next (s.storePair rd ((List.range s.cfg.lanes).map fun l => decodeFp2 (slotOf 32 l s.payload))) := by
  rw [execFp2dec, evenReg_of_mod hrd, beginPayload_ready s hf _ hlen, State.fp2Slots,
    (everyLaneHolds_slots ..).mpr hvalid, slots_eq_slotOf, List.map_map]
  rfl

/-- Settles O44: both halves of a valid slot decode to canonical triples. -/
theorem fp2decWritesBothComponents : Obligations.Fp2decWritesBothComponents := by
  intro s rd hrd hf hlen hslots
  have hvalid (l : Nat) (hl : l < s.cfg.lanes) : validFp2Slot (slotOf 32 l s.payload) = true :=
    validFp2Slot_slotOf (hslots (2 * l) (by omega)) (hslots (2 * l + 1) (by omega))
  refine ⟨_, execFp2dec_eq_storePair hrd hf hlen hvalid, storePair_completedWith s hf rd _, ?_⟩
  simp only [← slotOf_halves]
  refine storePair_holds s rd _ fun l hl => ?_
  obtain ⟨hfirst, hsecond⟩ := (validFp2Slot_iff _).mp (hvalid l hl)
  exact ⟨fits_of_below (digits_below hfirst), fits_of_below (digits_below hsecond)⟩

/-! ### ENC and FP2ENC (R188, R190) -/

/-- Settles O45: the sources are read and encoded lane by lane; nothing is checked and nothing is stored. -/
theorem encAndFp2encAnswerTheBytes : Obligations.EncAndFp2encAnswerTheBytes := by
  refine ⟨fun s ra x hr hx => ⟨_, rfl, completes_with_answer hr.1 ?_⟩,
    fun s ra x y hra hr hx hy => ⟨_, rfl, completes_with_answer hr.1 ?_⟩⟩
  · rw [beginCommand_ready s hr, source_of_holds s ra x hx, List.flatMap_map]; rfl
  · rw [evenReg_of_mod hra, beginCommand_ready s hr, sourcePair_of_holds s ra x y hx hy, List.flatMap_map]; rfl

end Sys2Proof.Proofs
end

section
/-! PROOFS of the family 60_exceptions.md: what the spec's own words decode to (R221), what the fault state answers and how
it is left (R211), and what an unwritten source (R205) and an invalid payload (R202) do to a command. -/

namespace Sys2Proof.Proofs

open Sys2Proof.Machine Sys2Proof.Laws

/-- Settles O4: each legal word is the encoding of its well-formed command; the decoder is run on the illegal ones. -/
theorem wordsOfTheSpecDecodeAsItSays : Obligations.WordsOfTheSpecDecodeAsItSays := by
  have hlegal {w : Word} {i : Instr} (hi : i.wellFormed = true) (hw : encode i = w) : decodeWord w = .ok i :=
    decodeWord_eq_ok_iff.mpr ⟨hi, hw⟩
  exact ⟨hlegal rfl rfl, hlegal rfl rfl, hlegal rfl rfl, hlegal rfl rfl, hlegal rfl rfl, hlegal rfl rfl,
    rfl, rfl, rfl, rfl⟩

/-! ### The fault state (R211) -/

/-- A command that finds FAULT written ends in one way only. -/
theorem ends_of_faulted {s t : State} {dst : List Reg} (h : Ends s t dst) (hf : s.fault ≠ 0) : t = s.refuseInFault := by
  obtain ⟨-, e⟩ | ⟨h0, -⟩ := h
  · exact e
  · exact absurd h0 hf

theorem step_command_of_faulted {s : State} {w : Word} {bytes : List Byte} {rest : List HostMove}
    (hh : s.host = .command w bytes :: rest) (hf : s.fault ≠ 0) :
    step s = .next (s.present bytes rest).refuseInFault := by
  obtain ⟨t, dst, ht, he, -⟩ := step_command_ends s w bytes rest hh
  rw [ht, ends_of_faulted he hf]

/-- The refusal answers FAULT and changes nothing. -/
theorem refuseInFault_keeps (s : State) : s.Keeps s.refuseInFault [] := ⟨rfl, rfl, rfl, fun _ _ => rfl⟩

theorem host_of_fault_changed {s t : State} (hf : s.fault ≠ 0) (ht : step s = .next t) (hne : t.fault ≠ s.fault) :
    ∃ rest, s.host = .reset :: rest := by
  rcases step_inversion ht with ⟨-, rfl⟩ | ⟨rest, hh, -⟩ | ⟨_, bytes, rest, _, -, he⟩
  · exact absurd rfl hne
  · exact ⟨rest, hh⟩
  · exact absurd (ends_fault_of_faulted (s := s.present bytes rest) he hf) hne

/-- Settles O9: a command is refused, an idle step changes nothing, and a reset makes the reset state. -/
theorem faultStateRefusesEveryCommand : Obligations.FaultStateRefusesEveryCommand := by
  intro s hf
  refine ⟨fun w bytes rest hh => ?_, fun t => host_of_fault_changed hf, fun rest hh => ?_⟩
  · exact ⟨_, step_command_of_faulted hh hf, refuseInFault_keeps _, rfl, rfl, rfl, rfl⟩
  · exact ⟨_, step_reset s rest hh, resetWith_lane s.cfg⟩

/-! ### An unwritten source (R205) -/

/-- The command, begun in s and ended in t, raised UnwrittenRegister if a lane of one of the registers rs is unwritten. -/
def RaisesUnwritten (s : State) (rs : List Reg) (t : State) : Prop :=
  (∃ r ∈ rs, ¬ s.Written r) → t = s.raise .unwrittenRegister

section
variable {s : State} {rs : List Reg} {r : Reg}

/-- A command without sources. -/
theorem raisesUnwritten_nil (t : State) : RaisesUnwritten s [] t := by
  rintro ⟨_, hm, -⟩
  cases hm

theorem beginCommand_raisesUnwritten (hr : s.Ready []) {legal : Bool} (hl : legal = true) {k : State}
    (hk : RaisesUnwritten s rs k) : RaisesUnwritten s rs (s.beginCommand legal k) := by
  rwa [hl, beginCommand_ready s hr]

/-- Either r is the unwritten register, or it is read and the unwritten one is left to what comes after. -/
theorem source_raisesUnwritten {k : List Triple → State} (hk : ∀ x, RaisesUnwritten s rs (k x)) :
    RaisesUnwritten s (r :: rs) (s.source r k) := by
  rintro ⟨r', hm, hr'⟩
  rcases source_cases s r k with ⟨-, e⟩ | ⟨x, hx, e⟩
  · exact e
  · rcases List.mem_cons.mp hm with rfl | hm
    · exact absurd (written_of_readReg hx) hr'
    · rw [e, hk x ⟨r', hm, hr'⟩]

theorem sourcePair_raisesUnwritten {k : List Fp2 → State} (hk : ∀ c, RaisesUnwritten s rs (k c)) :
    RaisesUnwritten s (r :: partner r :: rs) (s.sourcePair r k) :=
  source_raisesUnwritten fun _ => source_raisesUnwritten fun _ => hk _

end

/-- Every legal command reads its sources before it looks at what they hold (R212). -/
theorem exec_raisesUnwritten (i : Instr) {s : State} (hw : i.wellFormed = true) (hr : s.Ready []) :
    ∃ t, exec i s = .next t ∧ RaisesUnwritten s i.sources t := by
  cases i with
  | nop | zero rd | one rd | ldi rd | dec rd | fp2dec rd => exact ⟨_, rfl, raisesUnwritten_nil _⟩
  | enc ra | neg rd ra | wred rd ra | canon rd ra | sqr rd ra | inv rd ra | iszero ra =>
    exact ⟨_, rfl, beginCommand_raisesUnwritten hr hw (source_raisesUnwritten fun _ => raisesUnwritten_nil _)⟩
  | add rd ra rb | sub rd ra rb | mul rd ra rb | eq ra rb =>
    exact ⟨_, rfl, beginCommand_raisesUnwritten hr hw (source_raisesUnwritten fun _ =>
      source_raisesUnwritten fun _ => raisesUnwritten_nil _)⟩
  | fp2enc ra | fp2sqr rd ra | fp2inv rd ra =>
    exact ⟨_, rfl, beginCommand_raisesUnwritten hr hw (sourcePair_raisesUnwritten fun _ => raisesUnwritten_nil _)⟩
  | fp2add rd ra rb | fp2sub rd ra rb | fp2mul rd ra rb =>
    exact ⟨_, rfl, beginCommand_raisesUnwritten hr hw (sourcePair_raisesUnwritten fun _ =>
      sourcePair_raisesUnwritten fun _ => raisesUnwritten_nil _)⟩

/-- Settles O22. -/
theorem unwrittenSourceIsFatal : Obligations.UnwrittenSourceIsFatal := by
  intro i s hw hr hunwritten
  obtain ⟨t, ht, hraises⟩ := exec_raisesUnwritten i hw hr
  exact ⟨t, ht, hraises hunwritten ▸ raise_faults s _⟩

/-! ### An invalid payload (R202) -/

/-- A payload of the wrong length, or one that the rest of the command rejects. -/
theorem beginPayload_rejects {s : State} (hf : s.fault = 0) {n : Nat} {k : List Byte → State}
    (h : s.payload.length ≠ n ∨ k s.payload = s.fail .invalidEncoding) :
    s.beginPayload true n k = s.fail .invalidEncoding := by
  rcases beginPayload_cases s true n k with ⟨hn, -⟩ | ⟨-, hl, -⟩ | ⟨-, -, -, e⟩ | ⟨-, -, hlen, e⟩
  · exact absurd hf hn
  · cases hl
  · exact e
  · rw [e, h.resolve_left (not_not_intro hlen)]

theorem requireSlots_rejects {s : State} {p : List Byte → Bool} {size l : Nat} {bytes : List Byte} (hl : l < s.cfg.lanes)
    (hp : ¬ p (slotOf size l bytes) = true) (k : State) :
    s.requireSlots (everyLaneHolds p (slots size s.cfg.lanes bytes)) k = s.fail .invalidEncoding := by
  rcases requireSlots_cases s (everyLaneHolds p (slots size s.cfg.lanes bytes)) k with ⟨-, e⟩ | ⟨hall, -⟩
  · exact e
  · exact absurd ((everyLaneHolds_slots p size _ bytes).mp hall l hl) hp

/-- The half slots of an FP2DEC payload, counted as R202 counts them: half slot k lies in slot k / 2. -/
theorem leInt_lt_of_validFp2Slot {k : Nat} {bytes : List Byte} (h : validFp2Slot (slotOf 32 (k / 2) bytes) = true) :
    leInt (slotOf 16 k bytes) < modulus := by
  obtain ⟨hfirst, hsecond⟩ := slotOf_halves (k / 2) bytes
  rw [validFp2Slot_iff, hfirst, hsecond] at h
  rcases Nat.mod_two_eq_zero_or_one k with hk | hk
  · rw [slotOf, show 16 * k = 32 * (k / 2) by omega]
    exact h.1
  · rw [slotOf, show 16 * k = 32 * (k / 2) + 16 by omega]
    exact h.2

/-- A bad slot of 16 bytes makes DEC or FP2DEC reject the payload; LDI has no such slot. -/
theorem exec_rejects_payload {i : Instr} {s : State} {rd : Reg}
    (hi : i = .ldi rd ∨ i = .dec rd ∨ (i = .fp2dec rd ∧ rd.val % 2 = 0)) (hf : s.fault = 0)
    (h : s.payload.length ≠ i.slotBytes * s.cfg.lanes ∨
      ∃ k, k < i.slotBytes / 16 * s.cfg.lanes ∧ modulus ≤ leInt (slotOf 16 k s.payload)) :
    exec i s = .next (s.fail .invalidEncoding) := by
  rcases hi with rfl | rfl | ⟨rfl, hrd⟩
  · refine congrArg _ (beginPayload_rejects hf (h.imp_right ?_))
    rintro ⟨k, hk, -⟩
    rw [Instr.slotBytes] at hk
    omega
  · refine congrArg _ (beginPayload_rejects hf (h.imp_right ?_))
    rintro ⟨k, hk, hbad⟩
    rw [Instr.slotBytes] at hk
    exact requireSlots_rejects (l := k) (by omega) (fun hv => hbad.not_gt ((validSlot_iff _).mp hv)) _
  · rw [exec, execFp2dec, evenReg_of_mod hrd]
    refine congrArg _ (beginPayload_rejects hf (h.imp_right ?_))
    rintro ⟨k, hk, hbad⟩
    rw [Instr.slotBytes] at hk
    exact requireSlots_rejects (l := k / 2) (by omega) (fun hv => hbad.not_gt (leInt_lt_of_validFp2Slot hv)) _

/-- Settles O24. -/
theorem invalidEncodingRejectsTheWholeCommand : Obligations.InvalidEncodingRejectsTheWholeCommand :=
  fun _ s _ hi hf h => ⟨s.fail .invalidEncoding, exec_rejects_payload hi hf h, fail_rejects s _ hf⟩

end Sys2Proof.Proofs
end

section
/-! PROOFS of the family 70_reset_and_hazards.md: one response for every command (R55, R246), and the asserted reset
(R231, R232). -/

namespace Sys2Proof.Proofs

open Sys2Proof.Machine Sys2Proof.Laws

/-! ### One command, one response -/

/-- However a command ends, it has given one response and used up its payload, and the host's moves after it are still
to come. -/
theorem ends_responds_once {s t : State} {dst : List Reg} (h : Ends s t dst) :
    ∃ r, t.responses = s.responses ++ [r] ∧ t.host = s.host ∧ t.payload = [] := by
  rcases ends_cases h with ⟨-, rfl⟩ | ⟨-, c, -, rfl⟩ | ⟨-, c, -, rfl⟩ | ⟨-, _, c, m, q, rfl, -⟩
  · exact ⟨_, refuseInFault_responses s, rfl, rfl⟩
  · exact ⟨_, fail_responses s c, rfl, rfl⟩
  · exact ⟨_, raise_responses s c, rfl, rfl⟩
  · exact ⟨_, finish_responses _ c m q, rfl, rfl⟩

/-- Settles O6, by the host's next move. -/
theorem everyCommandIsOneStepWithOneResponse : Obligations.EveryCommandIsOneStepWithOneResponse := by
  refine fun s => ⟨fun w bytes rest hh => ?_, fun rest hh => ?_, step_idle s⟩
  · obtain ⟨t, _, ht, he, -⟩ := step_command_ends s w bytes rest hh
    obtain ⟨r, hresponses, hhost, hpayload⟩ := ends_responds_once he
    exact ⟨t, r, ht, hresponses, hhost, hpayload⟩
  · exact ⟨s.assertReset rest, step_reset s rest hh, assertReset_responses s rest, assertReset_host s rest⟩

/-! ### Reset -/

/-- A second reset finds the reset state, and replaces the list of moves only. -/
theorem assertReset_assertReset (s : State) (rest rest' : List HostMove) :
    (s.assertReset rest).assertReset rest' = { s.assertReset rest with host := rest' } := rfl

/-- Settles O21. -/
theorem assertedResetGivesTheResetState : Obligations.AssertedResetGivesTheResetState := by
  refine fun s rest hh => ⟨s.assertReset rest, step_reset s rest hh, rfl, fun rest' hrest => ?_⟩
  rw [step_reset (s.assertReset rest) rest' hrest, assertReset_assertReset]

end Sys2Proof.Proofs
end
